-- ==== Sys2Proof/Word.lean ====
section
/-! DEFINITION. The two word types of the block: a byte (rule R21) and a u32 (rule R20). -/

namespace Sys2Proof

/-- A byte, 0 to 255 (rule R21). -/
abbrev Byte := BitVec 8

/-- A u32: every register, CRC and length field (rules R20 and R101). -/
abbrev Word := BitVec 32

end Sys2Proof
end

