-- ==== Sys2Proof/Syntax.lean ====
section
/-! DEFINITION. The command set PCB-CMD rev 1 (rules R3 and R302): one constructor per row of spec/opcode_table.json. -/

namespace Sys2Proof

/-- The eleven commands. None has an operand field: every operand is a register (rule R301). -/
inductive Instr where
  | crcInit      -- CRC_INIT, rule R410
  | crcUpdate    -- CRC_UPDATE, rule R411
  | crcCompute   -- CRC_COMPUTE, rule R412
  | crcVerify    -- CRC_VERIFY, rule R413
  | typeCheck    -- TYPE_CHECK, rule R460
  | chunkCrcGen  -- CHUNK_CRC_GEN, rule R461
  | chunkDecode  -- CHUNK_DECODE, rule R471
  | chunkEncode  -- CHUNK_ENCODE, rule R480
  | sigCheck     -- SIG_CHECK, rule R510
  | sigEmit      -- SIG_EMIT, rule R511
  | pngParse     -- PNG_PARSE, rule R520
  deriving DecidableEq, Repr

end Sys2Proof
end

