-- ==== Sys2Proof/WellFormed.lean ====
section
/-! DEFINITION. Which instructions and which command words are well formed (rules R300 to R304). -/

namespace Sys2Proof

/-- A command has no operand field, so there is nothing about it to check (rule R301). -/
def Instr.wellFormed : Instr → Bool
  | .crcInit => true
  | .crcUpdate => true
  | .crcCompute => true
  | .crcVerify => true
  | .typeCheck => true
  | .chunkCrcGen => true
  | .chunkDecode => true
  | .chunkEncode => true
  | .sigCheck => true
  | .sigEmit => true
  | .pngParse => true

/-- Check 1 of a command word: bits [31:8], the field MBZ, are zero (rule R300). -/
def mbzIsZero (w : Word) : Bool := w.toNat / 256 == 0

/-- The reserved OPCODE values, as rule R304 lists them: 0x00, 0x05-0x0F, 0x14-0x1F and 0x23-0xFF. -/
def reservedOpcode (op : Nat) : Bool :=
  op == 0x00 || (0x05 ≤ op && op ≤ 0x0F) || (0x14 ≤ op && op ≤ 0x1F) || (0x23 ≤ op && op ≤ 0xFF)

/-- Check 2 of a command word: bits [7:0], the field OPCODE, are not reserved (rule R304). -/
def opcodeIsAssigned (w : Word) : Bool := !reservedOpcode (w.toNat % 256)

/-- A command word that starts one of the eleven commands (rules R303 and R304). -/
def commandWordWellFormed (w : Word) : Bool := mbzIsZero w && opcodeIsAssigned w

end Sys2Proof
end

