-- ==== Sys2Proof/Decode.lean ====
section
/-! DEFINITION. The decoder of a command word, total on every 32-bit word and rejecting by name (rules R300 to R304),
and after it the encoder written from the opcode map of rule R302. -/

namespace Sys2Proof

/-- Why a command word is illegal (rule R304). Either way the command completes with IllegalCommand (rule R303). -/
inductive IllegalWord where
  /-- Bits [31:8] are not all zero. -/
  | nonzeroMbz
  /-- Bits [7:0] hold a reserved OPCODE. -/
  | reservedOpcode
  deriving DecidableEq, Repr

/-- The field OPCODE, bits [7:0] (rule R300). -/
def opcodeField (w : Word) : BitVec 8 := w.extractLsb' 0 8

/-- The field MBZ, bits [31:8] (rule R300). -/
def mbzField (w : Word) : BitVec 24 := w.extractLsb' 8 24

/-- The opcode map (rule R302), read from the OPCODE field. -/
def instrOfOpcode (op : BitVec 8) : Option Instr :=
  if op = 0x01#8 then some .crcInit
  else if op = 0x02#8 then some .crcUpdate
  else if op = 0x03#8 then some .crcCompute
  else if op = 0x04#8 then some .crcVerify
  else if op = 0x10#8 then some .typeCheck
  else if op = 0x11#8 then some .chunkCrcGen
  else if op = 0x12#8 then some .chunkDecode
  else if op = 0x13#8 then some .chunkEncode
  else if op = 0x20#8 then some .sigCheck
  else if op = 0x21#8 then some .sigEmit
  else if op = 0x22#8 then some .pngParse
  else none

/-- Command decode (rule R303): first the MBZ field, then the opcode map. -/
def decode (w : Word) : Except IllegalWord Instr :=
  if mbzField w ≠ 0#24 then .error .nonzeroMbz
  else match instrOfOpcode (opcodeField w) with
    | some i => .ok i
    | none => .error .reservedOpcode

/-- The OPCODE of a command (rule R302). -/
def opcodeOf : Instr → BitVec 8
  | .crcInit => 0x01#8
  | .crcUpdate => 0x02#8
  | .crcCompute => 0x03#8
  | .crcVerify => 0x04#8
  | .typeCheck => 0x10#8
  | .chunkCrcGen => 0x11#8
  | .chunkDecode => 0x12#8
  | .chunkEncode => 0x13#8
  | .sigCheck => 0x20#8
  | .sigEmit => 0x21#8
  | .pngParse => 0x22#8

/-- The command word of a command: MBZ zero above its OPCODE (rules R300 and R302). -/
def encode (i : Instr) : Word := 0#24 ++ opcodeOf i

/-- The command word whose low `nbits` bits are those of `w` and whose bits above are zero. A command word is one
32-bit register value, so it has no byte order and no second word (rule R300). -/
def tableWord (nbits w : Nat) : Word := BitVec.ofNat 32 (w % 2 ^ nbits)

/-- The command the decoder reads from an opcode-table word; none where it refuses. -/
def decodeTableWord (nbits w : Nat) : Option Instr := (decode (tableWord nbits w)).toOption

end Sys2Proof
end

