-- ==== Sys2Proof/Config.lean ====
section
/-! DEFINITION. The configuration parameters of rule R10 and the fixed constants. A State carries its configuration
(log entry 4), so a statement about every state holds for every configuration. -/

namespace Sys2Proof

/-- The parameters a PCB is built with (rule R10, entries U8 to U11). No step changes them. -/
structure Config where
  /-- BUF_SIZE: bytes of buffer memory, 16 to 2^31. -/
  bufSize : Nat
  /-- BASE_ADDR: host address of register offset 0x00, left open by the spec. -/
  baseAddr : Nat
  /-- BUF_BASE: host address of buffer byte 0, left open by the spec. -/
  bufBase : Nat
  /-- IRQ_ROUTE: where the platform routes the IRQ output, left open by the spec. No rule reads it (rule R620). -/
  irqRoute : Nat
  deriving DecidableEq, Repr

/-- BUF_SIZE lies in the range of rule R10. -/
def Config.wf (c : Config) : Bool := 16 ≤ c.bufSize && c.bufSize ≤ 2 ^ 31

/-- The default BUF_SIZE of rule R10. The three open parameters get the values log entry 4 names.
DESIGN CHOICE for BASE_ADDR, BUF_BASE and IRQ_ROUTE, unsafe: no statement may rest on them. -/
def Config.default : Config := { bufSize := 65536, baseAddr := 0, bufBase := 0x100, irqRoute := 0 }

end Sys2Proof
end

