-- ==== Sys2Proof/Machine/State.lean ====
section
/-! DEFINITION. The state of the PCB as plain data (rules R101 to R140), what stops the model, and the state after reset. -/

namespace Sys2Proof.Machine

/-- Buffer memory (rules R133 and R201): the written bytes, addresses strictly rising. An address that is not listed is
unwritten. -/
abbrev Memory := List Host.Cell

/-- Why the model stops with a fault. -/
inductive Fault where
  /-- A command or the host reads the buffer byte at this address, and nothing has written it since power-on (rule R133,
  entry U1). Raised by `readByte`'s callers. Safe: the hardware goes on with an unspecified byte, the model stops. -/
  | unwrittenByte (addr : Nat)
  /-- STATUS.BUSY = 1 while CUR_CMD is undefined, which rule R131 excludes. Raised by the engine's turn. Safe: no run from
  reset reaches it (the invariant of Safety.lean). -/
  | noLatchedCommand
  deriving DecidableEq, Repr

/-- Why the model refuses a step: a host access the spec leaves undefined, so that it is not in the step relation. -/
inductive Refusal where
  /-- An instruction whose meaning is not written yet. Raised by exec alone. Safe. -/
  | notModelled (mnemonic : String)
  /-- A register access that is not an aligned 32-bit access (rule R204, entry U2). Raised by the host's turn. Safe. -/
  | nonWordRegisterAccess
  /-- A word access at a register offset of 0x100 or above, outside the window of rule R200. Raised by the host's turn.
  Safe. -/
  | registerOffsetOutsideWindow
  /-- A buffer access wider than one byte (rule R202, entry U3). Raised by the host's turn. Safe. -/
  | wideBufferAccess
  /-- A buffer access at an address of BUF_SIZE or above, which does not reach the PCB (rule R202, entry U4). Raised by the
  host's turn. Safe. -/
  | bufferAddressOutsideBuffer
  /-- A bus access at a host address in neither window of rule R200: it does not reach the PCB. Raised by a bus turn.
  Safe. -/
  | hostAddressNotMapped
  /-- A bus access at a host address in both windows, which a platform that overlays them would have to settle. Raised by
  a bus turn. Safe. -/
  | hostAddressAmbiguous
  deriving DecidableEq, Repr

/-- What a host does to the PCB's ports (rule R640). A width is a number of bytes. -/
inductive HostAccess where
  | regRead (offset width : Nat)
  | regWrite (offset width : Nat) (value : Word)
  | bufRead (addr width : Nat)
  | bufWrite (addr width : Nat) (value : Byte)
  /-- Assertion of the reset input with power held (rule R700). -/
  | reset
  /-- Power-on, with the reset that goes with it (rule R700). -/
  | powerOn
  deriving DecidableEq, Repr

/-- A platform's access at a host address (rule R200). -/
inductive BusAccess where
  | read (hostAddr width : Nat)
  | write (hostAddr width : Nat) (value : Word)
  deriving DecidableEq, Repr

/-- One turn of the total order of rule R230, and the host's WAIT loop (rule R341). -/
inductive Turn where
  /-- The engine's turn: its complete step when it is enabled (rule R103). -/
  | engine
  /-- The host makes one access at the PCB's ports. -/
  | host (a : HostAccess)
  /-- The platform makes one access at a host address. -/
  | bus (b : BusAccess)
  /-- The host is in a WAIT loop; the engine moves at the latest after this many reads of BUSY = 1 (rule R720). -/
  | wait (polls : Nat)
  deriving DecidableEq, Repr

/-- What a host read gets back (rule R640). -/
inductive Readback where
  | word (v : Word)
  | byte (b : Byte)
  deriving DecidableEq, Repr

/-- Everything the spec gives the machine (rules R101, R131, R133, R140), its configuration (rule R10), and the model's own
two fields `agenda` and `reads`. -/
structure State where
  /-- The parameters of rule R10. -/
  cfg : Config
  /-- CTRL.IRQ_EN (rule R111). -/
  irqEn : Bool
  /-- CTRL.STRUCT_EN (rule R111). -/
  structEn : Bool
  /-- STATUS.BUSY (rule R112). -/
  busy : Bool
  /-- STATUS.DONE (rule R112). -/
  done : Bool
  /-- STATUS.OVERRUN (rule R112). -/
  overrun : Bool
  /-- ERR (rule R114). -/
  err : Word
  /-- SRC_ADDR (rule R115). -/
  srcAddr : Word
  /-- SRC_LEN (rule R115). -/
  srcLen : Word
  /-- DST_ADDR (rule R116). -/
  dstAddr : Word
  /-- DST_LEN (rule R116). -/
  dstLen : Word
  /-- DATA_ADDR (rule R117). -/
  dataAddr : Word
  /-- CHUNK_LEN (rule R118). -/
  chunkLen : Word
  /-- CHUNK_TYPE (rule R119). -/
  chunkType : Word
  /-- CHUNK_CRC (rule R120). -/
  chunkCrc : Word
  /-- CRC_STATE (rule R121). -/
  crcState : Word
  /-- CALC_CRC (rule R123). -/
  calcCrc : Word
  /-- TYPEFLAGS (rule R124). -/
  typeflags : Word
  /-- CONSUMED (rule R125). -/
  consumed : Word
  /-- CHUNK_COUNT (rule R126). -/
  chunkCount : Word
  /-- FAULT_OFFSET (rule R127). -/
  faultOffset : Word
  /-- CUR_CMD (rule R131): none where it is undefined. -/
  curCmd : Option Word
  /-- Buffer memory (rule R133). -/
  buf : Memory
  /-- The model's own (log entry 1): the turns still to be taken, in the order of rule R230. -/
  agenda : List Turn
  /-- The model's own (log entry 3): what host reads got back, newest first. -/
  reads : List Readback
  deriving DecidableEq, Repr

/-- The state after power-on and reset (rules R140 and R700) of a PCB with the parameters `c`. -/
def State.resetWith (c : Config) : State where
  cfg := c
  irqEn := false
  structEn := true
  busy := false
  done := false
  overrun := false
  err := 0#32
  srcAddr := 0#32
  srcLen := 0#32
  dstAddr := 0#32
  dstLen := 0#32
  dataAddr := 0#32
  chunkLen := 0#32
  chunkType := 0#32
  chunkCrc := 0#32
  crcState := 0xFFFFFFFF#32
  calcCrc := 0#32
  typeflags := 0#32
  consumed := 0#32
  chunkCount := 0#32
  faultOffset := 0#32
  curCmd := none
  buf := []
  agenda := []
  reads := []

/-- The machine right after reset (rule R140), with the default parameters. -/
def State.reset : State := State.resetWith Config.default

/-- The outcome of one step of the PCB. -/
abbrev Result := Host.Outcome State Fault Refusal

end Sys2Proof.Machine
end

