-- ==== Sys2Proof/Machine/Operands.lean ====
section
/-! DEFINITION. Byte order (rules R21, R210, R211), regions and their checks (rules R220 and R221), the operand regions of the
commands (rule R301), the byte formats (rules R320 to R325) and the constants of rule R10. -/

namespace Sys2Proof.Machine

/-- `be32`: a byte sequence as an unsigned number, most significant byte first (rule R21). -/
def be32 (s : List Byte) : Word := s.foldl (fun v b => v * 256#32 + b.setWidth 32) 0#32

/-- `BE32`: the four bytes of a u32, most significant first (rule R21). -/
def toBe32 (x : Word) : List Byte :=
  [x.extractLsb' 24 8, x.extractLsb' 16 8, x.extractLsb' 8 8, x.extractLsb' 0 8]

/-- `fits(a, n)` for a buffer of `size` bytes: exact, with no 32-bit wrap (rule R220). -/
def fits (size a n : Nat) : Bool := a + n ≤ size

/-- Regions (a, n) and (b, m) overlap (rule R221). -/
def overlap (a n b m : Nat) : Bool := 0 < n && 0 < m && a < b + m && b < a + n

/-- The source region, from SRC_ADDR (rule R115). -/
def State.srcBase (s : State) : Nat := s.srcAddr.toNat

/-- The source region's length, from SRC_LEN (rule R115). -/
def State.srcSize (s : State) : Nat := s.srcLen.toNat

/-- The destination region, from DST_ADDR (rule R116). -/
def State.dstBase (s : State) : Nat := s.dstAddr.toNat

/-- The destination region's capacity, from DST_LEN (rule R116). -/
def State.dstSize (s : State) : Nat := s.dstLen.toNat

/-- The chunk's data region, from DATA_ADDR (rule R117). -/
def State.dataBase (s : State) : Nat := s.dataAddr.toNat

/-- The chunk's data length L, from CHUNK_LEN (rule R118). -/
def State.dataSize (s : State) : Nat := s.chunkLen.toNat

/-- The source region fits in buffer memory (rule R220). -/
def State.srcFits (s : State) : Bool := fits s.cfg.bufSize s.srcBase s.srcSize

/-- The destination region fits in buffer memory (rule R220). -/
def State.dstFits (s : State) : Bool := fits s.cfg.bufSize s.dstBase s.dstSize

/-- The data region fits in buffer memory (rule R220). -/
def State.dataFits (s : State) : Bool := fits s.cfg.bufSize s.dataBase s.dataSize

/-- IEND_TYPE, "IEND" (rule R323). -/
def iendType : Word := 0x49454E44#32

/-- HDR_TYPE, "IHDR" (rules R10 and R323). -/
def hdrType : Word := 0x49484452#32

/-- PNG_SIG (rule R322). -/
def pngSig : List Byte := [0x89#8, 0x50#8, 0x4E#8, 0x47#8, 0x0D#8, 0x0A#8, 0x1A#8, 0x0A#8]

/-- The record of a chunk of type `t` with data `d` and CRC field `crc`, 12 + L bytes (rule R320). -/
def recordBytes (t : Word) (d : List Byte) (crc : Word) : List Byte :=
  toBe32 (BitVec.ofNat 32 d.length) ++ toBe32 t ++ d ++ toBe32 crc

/-- The 16-byte descriptor of one chunk (rule R324). -/
def descriptorBytes (off len : Nat) (t crc : Word) : List Byte :=
  toBe32 (BitVec.ofNat 32 off) ++ toBe32 (BitVec.ofNat 32 len) ++ toBe32 t ++ toBe32 crc

end Sys2Proof.Machine
end

