-- ==== Sys2Proof/Machine/CrcFunction.lean ====
section
/-! DEFINITION. The CRC-32/ISO-HDLC function (rules R400 to R405). -/

namespace Sys2Proof.Machine

/-- INIT (rule R401). -/
def crcInitValue : Word := 0xFFFFFFFF#32

/-- XOROUT (rule R401). -/
def crcXorOut : Word := 0xFFFFFFFF#32

/-- POLY_R, the reflected polynomial (rule R401). -/
def crcPoly : Word := 0xEDB88320#32

/-- `step_bit` (rule R401). -/
def crcStepBit (c : Word) : Word :=
  if c.getLsbD 0 then (c >>> 1) ^^^ crcPoly else c >>> 1

/-- `step_bit` applied n times. -/
def crcStepBits : Nat → Word → Word
  | 0, c => c
  | n + 1, c => crcStepBits n (crcStepBit c)

/-- `step_byte` (rule R401). -/
def crcStepByte (c : Word) (b : Byte) : Word := crcStepBits 8 (c ^^^ b.setWidth 32)

/-- `crc_update` (rule R401): the bytes fed first to last. -/
def crcUpdate : Word → List Byte → Word
  | c, [] => c
  | c, b :: t => crcUpdate (crcStepByte c b) t

/-- `crc32` (rule R402). -/
def crc32 (s : List Byte) : Word := crcUpdate crcInitValue s ^^^ crcXorOut

/-- The CRC of a chunk of type `t` and data `d`: over the four type bytes and then the data (rules R400 and R402). -/
def chunkCrcOf (t : Word) (d : List Byte) : Word := crc32 (toBe32 t ++ d)

end Sys2Proof.Machine
end

