-- ==== Sys2Proof/Machine/Flags.lean ====
section
/-! DEFINITION. Every flag and status computation: the type-code properties (rules R450 to R453), the error codes (rules R330
and R331), and the STATUS and CTRL words (rules R111, R112, R620). -/

namespace Sys2Proof.Machine

/-- Block-level error kinds (rule R331). -/
inductive BlockKind where
  | illegalCommand | rangeFault | overlap | dstTooSmall
  deriving DecidableEq, Repr

/-- Chunk-level error kinds (rule R331). -/
inductive ChunkKind where
  | tooShort | tooLong | badCrc | generic
  deriving DecidableEq, Repr

/-- Container-level error kinds that a command can raise (rule R331); the chunk error a container error wraps is part
of the kind. ChunkNotFound, IOError and the container's Generic are never raised (entry U15). -/
inductive ContKind where
  | badHeader | missingRequiredChunks | chunkError (k : ChunkKind)
  deriving DecidableEq, Repr

/-- What a command raises (rule R24). -/
inductive Raised where
  | block (k : BlockKind)
  | chunk (k : ChunkKind)
  | cont (k : ContKind)
  deriving DecidableEq, Repr

/-- BLOCK_KIND codes (rule R331). -/
def blockCode : BlockKind → Word
  | .illegalCommand => 1#32
  | .rangeFault => 2#32
  | .overlap => 3#32
  | .dstTooSmall => 4#32

/-- CHUNK_KIND codes (rule R331). -/
def chunkCode : ChunkKind → Word
  | .tooShort => 1#32
  | .tooLong => 2#32
  | .badCrc => 3#32
  | .generic => 4#32

/-- CONT_KIND codes (rule R331). -/
def contCode : ContKind → Word
  | .badHeader => 1#32
  | .missingRequiredChunks => 2#32
  | .chunkError _ => 5#32

/-- The ERR value of a raised error: BLOCK_KIND in [11:8], CONT_KIND in [7:4], CHUNK_KIND in [3:0] (rules R114 and R330). -/
def errCode : Raised → Word
  | .block k => blockCode k <<< 8
  | .chunk k => chunkCode k
  | .cont (.chunkError k) => (contCode (.chunkError k) <<< 4) ||| chunkCode k
  | .cont k => contCode k <<< 4

/-- A letter byte (rule R450). -/
def isLetter (b : Byte) : Bool :=
  (0x41 ≤ b.toNat && b.toNat ≤ 0x5A) || (0x61 ≤ b.toNat && b.toNat ≤ 0x7A)

/-- `letters(t)`: all four type bytes are letters (rule R450). -/
def letters (t : Word) : Bool := (toBe32 t).all isLetter

/-- One bit of a flag word. -/
def flagBit (b : Bool) (i : Nat) : Word := if b then 1#32 <<< i else 0#32

/-- `typeflags(t)` (rule R451), t packed as in CHUNK_TYPE: t0 = [31:24], t1 = [23:16], t2 = [15:8], t3 = [7:0], so bit 5 of
t0, t1, t2, t3 is bit 29, 21, 13, 5 of the word. -/
def typeFlagsOf (t : Word) : Word :=
  flagBit (letters t) 0 ||| flagBit (!t.getLsbD 29) 1 ||| flagBit (!t.getLsbD 21) 2 ||| flagBit (!t.getLsbD 13) 3
    ||| flagBit (t.getLsbD 5) 4 ||| flagBit (t == iendType) 5 ||| flagBit (t == hdrType) 6

/-- The CTRL word (rule R111). -/
def ctrlWord (s : State) : Word := flagBit s.irqEn 0 ||| flagBit s.structEn 1

/-- STATUS.ERROR (rule R112). -/
def errorFlag (s : State) : Bool := s.err != 0#32

/-- The IRQ output and STATUS.IRQ: DONE & CTRL.IRQ_EN (rule R620). -/
def irqOutput (s : State) : Bool := s.done && s.irqEn

/-- The STATUS word (rule R112). -/
def statusWord (s : State) : Word :=
  flagBit s.busy 0 ||| flagBit s.done 1 ||| flagBit (errorFlag s) 2 ||| flagBit s.overrun 3 ||| flagBit (irqOutput s) 4

/-- CRC_RESULT (rule R122). -/
def crcResult (s : State) : Word := s.crcState ^^^ 0xFFFFFFFF#32

end Sys2Proof.Machine
end

