-- ==== Sys2Proof/Machine/Ops.lean ====
section
/-! DEFINITION. The named operations over buffer memory (rules R23 and R133) and over the machine: completing and raising
(rules R24 and R610, the PCB's whole exception mechanism, rule R641), starting a command (rule R113) and reset (rule R700). -/

namespace Sys2Proof.Machine

/-- The canonical form of a memory: addresses strictly rising. -/
def Memory.wf : Memory → Bool
  | [] => true
  | [_] => true
  | x :: y :: rest => x.1 < y.1 && Memory.wf (y :: rest)

/-- The byte at an address; none where it is unwritten (rule R133). -/
def readByte : Memory → Nat → Option Byte
  | [], _ => none
  | (k, v) :: rest, a => if k = a then some v else readByte rest a

/-- Store a byte at its address, keeping the canonical form. -/
def writeByte : Memory → Nat → Byte → Memory
  | [], a, b => [(a, b)]
  | (k, v) :: rest, a, b =>
    if a < k then (a, b) :: (k, v) :: rest
    else if a = k then (a, b) :: rest
    else (k, v) :: writeByte rest a b

/-- `MemRead(a, n)` (rule R23). An unwritten byte among them is a model fault (rule R240). -/
def readBytes (m : Memory) : Nat → Nat → Except Fault (List Byte)
  | _, 0 => .ok []
  | a, n + 1 =>
    match readByte m a with
    | none => .error (.unwrittenByte a)
    | some b =>
      match readBytes m (a + 1) n with
      | .ok bs => .ok (b :: bs)
      | .error f => .error f

/-- `MemWrite(a, len(s), s)` (rule R23). -/
def writeBytes (m : Memory) : Nat → List Byte → Memory
  | _, [] => m
  | a, b :: bs => writeBytes (writeByte m a b) (a + 1) bs

/-- The completion effects: ERR, BUSY, DONE and CUR_CMD (rule R610, items 2 and 3). -/
def State.finish (s : State) (code : Word) : State :=
  { s with err := code, busy := false, done := true, curCmd := none }

/-- `complete` (rule R24): the command ends with ERR = 0. -/
def State.complete (s : State) : Result := .next (s.finish 0#32)

/-- `raise` (rule R24): the command ends with the raised error's code. -/
def State.raise (s : State) (e : Raised) : Result := .next (s.finish (errCode e))

/-- Go on with the result of a memory computation, or stop with its fault. -/
def resume {α : Type} (r : Except Fault α) (k : α → Result) : Result :=
  match r with
  | .ok v => k v
  | .error f => .fault f

/-- Start a command: latch the word, clear ERR and DONE, set BUSY (rule R113). -/
def State.startCommand (s : State) (w : Word) : State :=
  { s with curCmd := some w, err := 0#32, done := false, busy := true }

/-- Record a protocol violation (rules R102 and R203). -/
def State.noteOverrun (s : State) : State := { s with overrun := true }

/-- The host gets a value back (rule R640). -/
def State.pushRead (s : State) (r : Readback) : State := { s with reads := r :: s.reads }

/-- Reset with power held (rules R700 and R701): every register and field at its reset value, the buffer kept. The
configuration is the machine's, and the agenda and the values read are the host's: reset touches none of them. -/
def State.resetHeld (s : State) : State :=
  { State.resetWith s.cfg with buf := s.buf, agenda := s.agenda, reads := s.reads }

/-- Power-on (rule R700): the reset state with every buffer byte unwritten. -/
def State.powerOn (s : State) : State :=
  { State.resetWith s.cfg with agenda := s.agenda, reads := s.reads }

end Sys2Proof.Machine
end

