-- ==== Sys2Proof/Machine/Chunk.lean ====
section
/-! DEFINITION. The chunk commands and the decode function they share with the stream walk (rules R460 to R480). A type code is
held as the u32 that packs its four bytes in stream order (rule R119, log entry 8). -/

namespace Sys2Proof.Machine

/-- What `decode_chunk` returns (rule R470). -/
inductive Decoded where
  /-- `Ok(L, t, stored, c)`. -/
  | accepted (len : Nat) (type stored crc : Word)
  /-- `Err(kind, c?)`: the computed CRC where step 5 was reached. -/
  | failed (kind : ChunkKind) (crc : Option Word)
  deriving DecidableEq, Repr

/-- Steps 5 and 6 of `decode_chunk`, the letter check after the CRC (rule R470, conflict C3). -/
def checkRecord (len : Nat) (t : Word) (d : List Byte) (stored : Word) : Decoded :=
  if chunkCrcOf t d = stored then
    if letters t then .accepted len t stored (chunkCrcOf t d)
    else .failed .generic (some (chunkCrcOf t d))
  else .failed .badCrc (some (chunkCrcOf t d))

/-- Steps 4 to 6 of `decode_chunk`: the type, data and CRC fields of a record at `a` whose length is `len` (rule R470). -/
def decodeBody (m : Memory) (a len : Nat) : Except Fault Decoded := do
  let t ← readBytes m (a + 4) 4
  let d ← readBytes m (a + 8) len
  let stored ← readBytes m (a + 8 + len) 4
  return checkRecord len (be32 t) d (be32 stored)

/-- `decode_chunk(a, n)` (rule R470). -/
def decodeChunk (m : Memory) (a n : Nat) : Except Fault Decoded :=
  if n < 12 then .ok (.failed .tooShort none)
  else do
    let lenField ← readBytes m a 4
    if n - 12 < (be32 lenField).toNat then .ok (.failed .tooLong none)
    else decodeBody m a (be32 lenField).toNat

/-- TYPE_CHECK (rule R460). -/
def execTypeCheck (s : State) : Result :=
  State.complete { s with typeflags := typeFlagsOf s.chunkType }

/-- CHUNK_CRC_GEN (rule R461). -/
def execChunkCrcGen (s : State) : Result :=
  if s.dataFits then
    if letters s.chunkType then
      resume (readBytes s.buf s.dataBase s.dataSize) fun d =>
        State.complete { s with
          chunkCrc := chunkCrcOf s.chunkType d
          calcCrc := chunkCrcOf s.chunkType d }
    else s.raise (.chunk .generic)
  else s.raise (.block .rangeFault)

/-- The registers a successful CHUNK_DECODE writes (rule R471). -/
def State.storeDecoded (s : State) (len : Nat) (t stored crc : Word) : State :=
  { s with
    chunkLen := BitVec.ofNat 32 len
    chunkType := t
    chunkCrc := stored
    dataAddr := s.srcAddr + 8#32
    calcCrc := crc
    typeflags := typeFlagsOf t
    consumed := BitVec.ofNat 32 (12 + len) }

/-- CHUNK_DECODE (rule R471). -/
def execChunkDecode (s : State) : Result :=
  if s.srcFits then
    resume (decodeChunk s.buf s.srcBase s.srcSize) fun r =>
      match r with
      | .accepted len t stored crc => State.complete (s.storeDecoded len t stored crc)
      | .failed k none => s.raise (.chunk k)
      | .failed k (some crc) => State.raise { s with calcCrc := crc } (.chunk k)
  else s.raise (.block .rangeFault)

/-- The size of the record that CHUNK_ENCODE writes, 12 + L (rule R320). -/
def State.recordSize (s : State) : Nat := 12 + s.dataSize

/-- The data overlaps the written record other than exactly in place (rule R480). -/
def State.encodeOverlaps (s : State) : Bool :=
  overlap s.dataBase s.dataSize s.dstBase s.recordSize && s.dataBase != s.dstBase + 8

/-- What a successful CHUNK_ENCODE of the data `d` writes (rule R480). -/
def State.storeEncoded (s : State) (d : List Byte) : State :=
  { s with
    buf := writeBytes s.buf s.dstBase (recordBytes s.chunkType d (chunkCrcOf s.chunkType d))
    chunkCrc := chunkCrcOf s.chunkType d
    calcCrc := chunkCrcOf s.chunkType d
    consumed := BitVec.ofNat 32 s.recordSize }

/-- CHUNK_ENCODE (rule R480). -/
def execChunkEncode (s : State) : Result :=
  if !s.dataFits then s.raise (.block .rangeFault)
  else if !s.dstFits then s.raise (.block .rangeFault)
  else if s.dstSize < s.recordSize then s.raise (.block .dstTooSmall)
  else if s.encodeOverlaps then s.raise (.block .overlap)
  else if !letters s.chunkType then s.raise (.chunk .generic)
  else resume (readBytes s.buf s.dataBase s.dataSize) fun d => State.complete (s.storeEncoded d)

end Sys2Proof.Machine
end

