-- ==== Sys2Proof/Machine/Crc.lean ====
section
/-! DEFINITION. The CRC commands (rules R410 to R413). -/

namespace Sys2Proof.Machine

/-- CRC_INIT (rule R410). -/
def execCrcInit (s : State) : Result :=
  State.complete { s with crcState := crcInitValue }

/-- CRC_UPDATE (rule R411). -/
def execCrcUpdate (s : State) : Result :=
  if s.srcFits then
    resume (readBytes s.buf s.srcBase s.srcSize) fun bytes =>
      State.complete { s with crcState := crcUpdate s.crcState bytes, consumed := s.srcLen }
  else s.raise (.block .rangeFault)

/-- CRC_COMPUTE (rule R412). -/
def execCrcCompute (s : State) : Result :=
  if s.srcFits then
    resume (readBytes s.buf s.srcBase s.srcSize) fun bytes =>
      State.complete { s with crcState := crcUpdate crcInitValue bytes, consumed := s.srcLen }
  else s.raise (.block .rangeFault)

/-- CRC_VERIFY (rule R413). -/
def execCrcVerify (s : State) : Result :=
  if s.srcFits then
    resume (readBytes s.buf s.srcBase s.srcSize) fun bytes =>
      if crc32 bytes = s.chunkCrc then
        State.complete { s with calcCrc := crc32 bytes, consumed := s.srcLen }
      else State.raise { s with calcCrc := crc32 bytes } (.chunk .badCrc)
  else s.raise (.block .rangeFault)

end Sys2Proof.Machine
end

