-- ==== Sys2Proof/Machine/Stream.lean ====
section
/-! DEFINITION. The stream commands: the PNG signature and the whole-stream frame walk (rules R510 to R524). -/

namespace Sys2Proof.Machine

/-- The first 8 bytes of the source region are PNG_SIG; false, with no byte read, where it is shorter (rule R510,
decision D17). -/
def signatureMatches (m : Memory) (a n : Nat) : Except Fault Bool :=
  if n < 8 then .ok false
  else do
    let sig ← readBytes m a 8
    return sig == pngSig

/-- SIG_CHECK (rule R510). -/
def execSigCheck (s : State) : Result :=
  if s.srcFits then
    resume (signatureMatches s.buf s.srcBase s.srcSize) fun ok =>
      if ok then State.complete { s with consumed := 8#32 }
      else s.raise (.cont .badHeader)
  else s.raise (.block .rangeFault)

/-- SIG_EMIT (rule R511). -/
def execSigEmit (s : State) : Result :=
  if s.dstFits then
    if s.dstSize < 8 then s.raise (.block .dstTooSmall)
    else State.complete { s with buf := writeBytes s.buf s.dstBase pngSig, consumed := 8#32 }
  else s.raise (.block .rangeFault)

/-- Where a walk stands (rule R520): `off`, `n`, `first`, `last` and the buffer with the descriptors written so far. -/
structure Walk where
  off : Nat
  count : Nat
  first : Option Word
  last : Option Word
  buf : Memory
  deriving DecidableEq, Repr

/-- How the loop of rule R520 ends. -/
inductive WalkEnd where
  /-- The loop condition `off < SRC_LEN` is false. -/
  | finished (w : Walk)
  /-- A record fails, or the table is full. -/
  | stopped (e : Raised) (w : Walk)
  deriving DecidableEq, Repr

/-- The walk after the record at `off` decoded: its descriptor written, the offset advanced by 12 + L (rule R520). -/
def Walk.advance (w : Walk) (dst len : Nat) (t stored : Word) : Walk :=
  { off := w.off + 12 + len
    count := w.count + 1
    first := if w.count = 0 then some t else w.first
    last := some t
    buf := writeBytes w.buf (dst + 16 * w.count) (descriptorBytes w.off len t stored) }

/-- The loop of rule R520 over the stream (src, size), with the table (dst, cap). The first argument bounds the number of
iterations; SRC_LEN of them are always enough, because each advances `off` by at least 12 (rule R523, log entry 10). -/
def walkStream (src size dst cap : Nat) : Nat → Walk → Except Fault WalkEnd
  | 0, w => .ok (.finished w)
  | fuel + 1, w =>
    if w.off < size then
      match decodeChunk w.buf (src + w.off) (size - w.off) with
      | .error f => .error f
      | .ok (.failed k _) => .ok (.stopped (.cont (.chunkError k)) w)
      | .ok (.accepted len t stored _) =>
        if cap < 16 * (w.count + 1) then .ok (.stopped (.block .dstTooSmall) w)
        else walkStream src size dst cap fuel (w.advance dst len t stored)
    else .ok (.finished w)

/-- `required_ok(n, first, last)` (rule R521). -/
def requiredOk (w : Walk) : Bool :=
  2 ≤ w.count && w.first == some hdrType && w.last == some iendType

/-- The start of the walk (rule R520, step 2). -/
def State.walkStart (s : State) : Walk :=
  { off := 8, count := 0, first := none, last := none, buf := s.buf }

/-- The whole walk of PNG_PARSE. -/
def State.walk (s : State) : Except Fault WalkEnd :=
  walkStream s.srcBase s.srcSize s.dstBase s.dstSize s.srcSize s.walkStart

/-- A PNG_PARSE that fails after its block checks: CHUNK_COUNT, FAULT_OFFSET and the descriptors written (rule R522). -/
def State.failParse (s : State) (e : Raised) (count offset : Nat) (m : Memory) : Result :=
  State.raise { s with
    chunkCount := BitVec.ofNat 32 count
    faultOffset := BitVec.ofNat 32 offset
    buf := m } e

/-- Step 3 of PNG_PARSE and its completion (rules R520 and R521). -/
def State.endParse (s : State) (w : Walk) : Result :=
  if s.structEn && !requiredOk w then
    s.failParse (.cont .missingRequiredChunks) w.count s.srcSize w.buf
  else State.complete { s with
    chunkCount := BitVec.ofNat 32 w.count
    consumed := s.srcLen
    buf := w.buf }

/-- PNG_PARSE (rule R520). -/
def execPngParse (s : State) : Result :=
  if !s.srcFits then s.raise (.block .rangeFault)
  else if !s.dstFits then s.raise (.block .rangeFault)
  else if overlap s.srcBase s.srcSize s.dstBase s.dstSize then s.raise (.block .overlap)
  else resume (signatureMatches s.buf s.srcBase s.srcSize) fun ok =>
    if ok then
      resume s.walk fun r =>
        match r with
        | .finished w => s.endParse w
        | .stopped e w => s.failParse e w.count w.off w.buf
    else s.failParse (.cont .badHeader) 0 0 s.buf

end Sys2Proof.Machine
end

