-- ==== Sys2Proof/Machine/Dispatch.lean ====
section
/-! DEFINITION. One arm per command: what the engine's complete step does for it, completion effects included (rule R610). -/

namespace Sys2Proof.Machine

def exec (i : Instr) (s : State) : Host.Outcome State Fault Refusal :=
  match i with
  | .crcInit => Sys2Proof.Machine.execCrcInit s
  | .crcUpdate => Sys2Proof.Machine.execCrcUpdate s
  | .crcCompute => Sys2Proof.Machine.execCrcCompute s
  | .crcVerify => Sys2Proof.Machine.execCrcVerify s
  | .typeCheck => Sys2Proof.Machine.execTypeCheck s
  | .chunkCrcGen => Sys2Proof.Machine.execChunkCrcGen s
  | .chunkDecode => Sys2Proof.Machine.execChunkDecode s
  | .chunkEncode => Sys2Proof.Machine.execChunkEncode s
  | .sigCheck => Sys2Proof.Machine.execSigCheck s
  | .sigEmit => Sys2Proof.Machine.execSigEmit s
  | .pngParse => Sys2Proof.Machine.execPngParse s

end Sys2Proof.Machine
end

