-- ==== Sys2Proof/Machine/Registers.lean ====
section
/-! DEFINITION. The register map (rule R101): each register's offset, what a read returns and what a host write does (rules R102
to R129). -/

namespace Sys2Proof.Machine

/-- The 21 registers of rule R101. -/
inductive Reg where
  | id | ctrl | status | cmd | err | srcAddr | srcLen | dstAddr | dstLen | dataAddr | chunkLen | chunkType | chunkCrc
  | crcState | crcResult | calcCrc | typeflags | consumed | chunkCount | faultOffset | bufSize
  deriving DecidableEq, Repr

/-- The offset of a register (rule R101). -/
def regOffset : Reg → Nat
  | .id => 0x00
  | .ctrl => 0x04
  | .status => 0x08
  | .cmd => 0x0C
  | .err => 0x10
  | .srcAddr => 0x14
  | .srcLen => 0x18
  | .dstAddr => 0x1C
  | .dstLen => 0x20
  | .dataAddr => 0x24
  | .chunkLen => 0x28
  | .chunkType => 0x2C
  | .chunkCrc => 0x30
  | .crcState => 0x34
  | .crcResult => 0x38
  | .calcCrc => 0x3C
  | .typeflags => 0x40
  | .consumed => 0x44
  | .chunkCount => 0x48
  | .faultOffset => 0x4C
  | .bufSize => 0x50

/-- The register at a word-aligned offset; none at a reserved offset (rules R101 and R129). -/
def regAt (offset : Nat) : Option Reg :=
  [Reg.id, .ctrl, .status, .cmd, .err, .srcAddr, .srcLen, .dstAddr, .dstLen, .dataAddr, .chunkLen, .chunkType, .chunkCrc,
    .crcState, .crcResult, .calcCrc, .typeflags, .consumed, .chunkCount, .faultOffset, .bufSize].find?
    fun r => regOffset r == offset

/-- The identity constant, the bytes "PNG1" (rule R110). -/
def idValue : Word := 0x504E4731#32

/-- What a read of a register returns (rules R110 to R128). It has no side effect (rule R204). -/
def regValue (s : State) : Reg → Word
  | .id => idValue
  | .ctrl => ctrlWord s
  | .status => statusWord s
  | .cmd => 0#32
  | .err => s.err
  | .srcAddr => s.srcAddr
  | .srcLen => s.srcLen
  | .dstAddr => s.dstAddr
  | .dstLen => s.dstLen
  | .dataAddr => s.dataAddr
  | .chunkLen => s.chunkLen
  | .chunkType => s.chunkType
  | .chunkCrc => s.chunkCrc
  | .crcState => s.crcState
  | .crcResult => crcResult s
  | .calcCrc => s.calcCrc
  | .typeflags => s.typeflags
  | .consumed => s.consumed
  | .chunkCount => s.chunkCount
  | .faultOffset => s.faultOffset
  | .bufSize => BitVec.ofNat 32 s.cfg.bufSize

/-- What a read at a word-aligned offset returns: 0 at a reserved one (rule R129). -/
def readOffset (s : State) (offset : Nat) : Word :=
  match regAt offset with
  | some r => regValue s r
  | none => 0#32

/-- The W1C write of STATUS: a 1 clears DONE (bit 1) or OVERRUN (bit 3), accepted whether or not BUSY (rule R112). -/
def State.writeStatus (s : State) (v : Word) : State :=
  { s with done := s.done && !v.getLsbD 1, overrun := s.overrun && !v.getLsbD 3 }

/-- A host write to a register other than STATUS while BUSY = 0 (rules R102 and R111 to R128): a CMD write starts a command,
an RW register stores the value in its defined fields, an RO register ignores it. -/
def State.writeIdle (s : State) (r : Reg) (v : Word) : State :=
  match r with
  | .id => s
  | .ctrl => { s with irqEn := v.getLsbD 0, structEn := v.getLsbD 1 }
  | .status => s
  | .cmd => s.startCommand v
  | .err => s
  | .srcAddr => { s with srcAddr := v }
  | .srcLen => { s with srcLen := v }
  | .dstAddr => { s with dstAddr := v }
  | .dstLen => { s with dstLen := v }
  | .dataAddr => { s with dataAddr := v }
  | .chunkLen => { s with chunkLen := v }
  | .chunkType => { s with chunkType := v }
  | .chunkCrc => { s with chunkCrc := v }
  | .crcState => { s with crcState := v }
  | .crcResult => s
  | .calcCrc => s
  | .typeflags => s
  | .consumed => s
  | .chunkCount => s
  | .faultOffset => s
  | .bufSize => s

/-- A host write at a word-aligned offset. STATUS takes it always; the BUSY write filter discards any other (rules R102, R129
and R710). -/
def State.writeOffset (s : State) (offset : Nat) (v : Word) : State :=
  if offset = regOffset .status then s.writeStatus v
  else if s.busy then s.noteOverrun
  else match regAt offset with
    | some r => s.writeIdle r v
    | none => s

end Sys2Proof.Machine
end

