-- ==== Sys2Proof/Machine/HostPort.lean ====
section
/-! DEFINITION. The host's turns: the register port (rule R204), the buffer port (rules R202 and R203), reset (rule R700), and the
platform's address map (rule R200). -/

namespace Sys2Proof.Machine

/-- An access at the register port is an aligned 32-bit access below 0x100, or the model refuses it (rule R204, entry U2). -/
def registerPort (offset width : Nat) (k : Result) : Result :=
  if width = 4 ∧ offset % 4 = 0 then
    if offset < 0x100 then k else .refused .registerOffsetOutsideWindow
  else .refused .nonWordRegisterAccess

/-- An access at the buffer port is one byte below BUF_SIZE, or the model refuses it (rule R202, entries U3 and U4). -/
def bufferPort (s : State) (addr width : Nat) (k : Result) : Result :=
  if width = 1 then
    if addr < s.cfg.bufSize then k else .refused .bufferAddressOutsideBuffer
  else .refused .wideBufferAccess

/-- A host byte read: the byte while idle, 0x00 and OVERRUN while BUSY (rules R202 and R203). -/
def readBuffer (s : State) (addr : Nat) : Result :=
  if s.busy then .next (s.noteOverrun.pushRead (.byte 0x00#8))
  else match readByte s.buf addr with
    | some b => .next (s.pushRead (.byte b))
    | none => .fault (.unwrittenByte addr)

/-- A host byte write: stored while idle, discarded with OVERRUN while BUSY (rules R202 and R203). -/
def writeBuffer (s : State) (addr : Nat) (b : Byte) : State :=
  if s.busy then s.noteOverrun else { s with buf := writeByte s.buf addr b }

/-- One host access (rule R640). -/
def hostStep (a : HostAccess) (s : State) : Result :=
  match a with
  | .regRead offset width => registerPort offset width (.next (s.pushRead (.word (readOffset s offset))))
  | .regWrite offset width v => registerPort offset width (.next (s.writeOffset offset v))
  | .bufRead addr width => bufferPort s addr width (readBuffer s addr)
  | .bufWrite addr width b => bufferPort s addr width (.next (writeBuffer s addr b))
  | .reset => .next s.resetHeld
  | .powerOn => .next s.powerOn

/-- The host address lies in the register window (rule R200). -/
def inRegisterWindow (c : Config) (hostAddr : Nat) : Bool := c.baseAddr ≤ hostAddr && hostAddr < c.baseAddr + 0x100

/-- The host address lies in the buffer's window (rule R200). -/
def inBufferWindow (c : Config) (hostAddr : Nat) : Bool := c.bufBase ≤ hostAddr && hostAddr < c.bufBase + c.bufSize

/-- One access at a host address: register offset `x` stands at BASE_ADDR + x, block address `x` at BUF_BASE + x (rule R200). -/
def busStep (b : BusAccess) (s : State) : Result :=
  match b with
  | .read h width =>
    if inRegisterWindow s.cfg h && inBufferWindow s.cfg h then .refused .hostAddressAmbiguous
    else if inRegisterWindow s.cfg h then hostStep (.regRead (h - s.cfg.baseAddr) width) s
    else if inBufferWindow s.cfg h then hostStep (.bufRead (h - s.cfg.bufBase) width) s
    else .refused .hostAddressNotMapped
  | .write h width v =>
    if inRegisterWindow s.cfg h && inBufferWindow s.cfg h then .refused .hostAddressAmbiguous
    else if inRegisterWindow s.cfg h then hostStep (.regWrite (h - s.cfg.baseAddr) width v) s
    else if inBufferWindow s.cfg h then hostStep (.bufWrite (h - s.cfg.bufBase) width (v.setWidth 8)) s
    else .refused .hostAddressNotMapped

end Sys2Proof.Machine
end

