-- ==== Sys2Proof/Machine/Turns.lean ====
section
/-! DEFINITION. The engine's complete step (rules R103, R303, R610), the turn that moves next in the total order of rule R230, and
how a command word comes to be executed. -/

namespace Sys2Proof.Machine

/-- The engine decodes the latched word and executes its rule (rules R303 and R610). -/
def runWord (w : Word) (s : State) : Result :=
  match decode w with
  | .ok i => exec i s
  | .error _ => s.raise (.block .illegalCommand)

/-- The engine's turn: complete is enabled exactly when BUSY = 1, and otherwise nothing changes (rule R103). -/
def engineStep (s : State) : Result :=
  if s.busy then
    match s.curCmd with
    | some w => runWord w s
    | none => .fault .noLatchedCommand
  else .next s

/-- One read of STATUS in the host's WAIT loop (rule R341). The loop ends when BUSY reads 0. While it reads 1 the loop goes on;
after `polls` more such reads the engine moves, as weak fairness promises (rule R720, log entry 7). DESIGN CHOICE (log entry 24):
the complete step falls behind one such read at the least; that it falls before the first, which entry U6 allows too, is an
engine turn in front of the WAIT. -/
def waitStep (polls : Nat) (rest : List Turn) (s : State) : Result :=
  if s.busy then
    match polls with
    | 0 => .next { s.pushRead (.word (statusWord s)) with agenda := .engine :: .wait 0 :: rest }
    | k + 1 => .next { s.pushRead (.word (statusWord s)) with agenda := .wait k :: rest }
  else .next { s.pushRead (.word (statusWord s)) with agenda := rest }

/-- The next turn of the total order (rule R230). With no turn left to the host the engine moves (rule R720). -/
def takeTurn (s : State) : Result :=
  match s.agenda with
  | [] => engineStep s
  | .engine :: rest => engineStep { s with agenda := rest }
  | .host a :: rest => hostStep a { s with agenda := rest }
  | .bus b :: rest => busStep b { s with agenda := rest }
  | .wait polls :: rest => waitStep polls rest s

/-- The command word `w` latched, as a host write of it to CMD leaves the machine (rule R113), and the engine's turn next. -/
def State.latch (s : State) (w : Word) : State :=
  { s.startCommand w with agenda := .engine :: s.agenda }

end Sys2Proof.Machine
end

