-- ==== Sys2Proof/Machine/Step.lean ====
section
/-! DEFINITION. One step of the machine, and a machine whose next step runs a given command word. -/

namespace Sys2Proof.Machine

/-- One step: one host access or one engine step (rule R230). -/
def step (s : State) : Host.Outcome State Fault Refusal := takeTurn s

/-- `s` with the opcode-table word latched in CUR_CMD and the engine's turn next: the PCB fetches nothing (rule R130), a
command comes from the host's CMD write, and this stands for that write (log entry 2). -/
def State.withFetchWord (s : State) (nbits w : Nat) : State := s.latch (Sys2Proof.tableWord nbits w)

end Sys2Proof.Machine
end

