-- ==== Sys2Proof/Machine/HostProgram.lean ====
section
/-! DEFINITION. Host programs (rules R340, R341 and R721): the notation's lines, the turns each stands for, and when a run of a
host program has ended. When the engine moves between the lines is open (entry U6, rule R720); log entry 24 says where a program
of this file places it. -/

namespace Sys2Proof.Machine

/-- A line of a host program (rule R340) or a pseudo-instruction (rule R341). Rule R720 and entry U6 leave open when the engine
moves. DESIGN CHOICE (log entries 7 and 24): a WAIT carries how many reads of BUSY = 1 the host makes, after a first one, before
the engine moves, and `engine` is no line of the notation but a place between two lines at which the engine moves, as the
comment in program P6 of spec/95_test_vectors.md marks one. -/
inductive HostLine where
  | wr (r : Reg) (v : Word)
  | rd (r : Reg)
  | wb (addr : Nat) (bytes : List Byte)
  | rb (addr n : Nat)
  | cmd (i : Instr)
  | wait (polls : Nat)
  | run (i : Instr) (polls : Nat)
  | ack
  | setType (t : Word)
  | engine
  deriving DecidableEq, Repr

/-- `WR REG, value`. -/
def turnWr (r : Reg) (v : Word) : Turn := .host (.regWrite (regOffset r) 4 v)

/-- `RD REG`. -/
def turnRd (r : Reg) : Turn := .host (.regRead (regOffset r) 4)

/-- `WB addr, b0 b1 ...`: one byte write each, at rising addresses. -/
def turnsWb : Nat → List Byte → List Turn
  | _, [] => []
  | a, b :: bs => .host (.bufWrite a 1 b) :: turnsWb (a + 1) bs

/-- `RB addr, n`: n byte reads, at rising addresses. -/
def turnsRb : Nat → Nat → List Turn
  | _, 0 => []
  | a, n + 1 => .host (.bufRead a 1) :: turnsRb (a + 1) n

/-- The turns a line stands for (rules R340 and R341). DESIGN CHOICE (log entry 24): a line of the host is the host's turns
alone, WAIT and RUN apart, so the engine does not move inside one or behind one unless the program places it there. -/
def turnsOf : HostLine → List Turn
  | .wr r v => [turnWr r v]
  | .rd r => [turnRd r]
  | .wb a bs => turnsWb a bs
  | .rb a n => turnsRb a n
  | .cmd i => [turnWr .cmd (encode i)]
  | .wait polls => [.wait polls]
  | .run i polls => [turnWr .cmd (encode i), .wait polls]
  | .ack => [turnWr .status 0x0000000A#32]
  | .setType t => [turnWr .chunkType t]
  | .engine => [.engine]

/-- A machine with a host program still to run. DESIGN CHOICE (log entry 24), since entry U6 and rule R720 leave open when the
engine moves: it moves where the program has an `engine` line, inside a WAIT that has read BUSY = 1 at least once, and after the
last line; between two other lines it does not. Every interleaving of the lines with complete steps is the program with
`engine` lines at those places. -/
def State.withProgram (s : State) (p : List HostLine) : State := { s with agenda := p.flatMap turnsOf }

/-- A run of a host program has ended: the host has made its last access and BUSY = 0 (rule R721). -/
def State.runEnded (s : State) : Bool := s.agenda.isEmpty && !s.busy

end Sys2Proof.Machine
end

