-- ==== Sys2Proof/Safety.lean ====
section
/-! DEFINITION. The terms claims are made in: what memory holds, the invariant of the machine, and which registers a command may
write. -/

namespace Sys2Proof.Machine

/-- The buffer holds the bytes `bs` from address `a` on, every one of them written. -/
def Holds (m : Memory) (a : Nat) (bs : List Byte) : Prop :=
  ∀ i : Nat, i < bs.length → readByte m (a + i) = bs[i]?

/-- Every byte of the region (a, n) is written. -/
def Written (m : Memory) (a n : Nat) : Prop := ∀ i : Nat, i < n → (readByte m (a + i)).isSome = true

/-- Every written address lies in the buffer (rule R133). -/
def addressesBelow (m : Memory) (size : Nat) : Bool := m.all fun cell => cell.1 < size

/-- The ERR values a completed command can leave (rule R601): 0, and the fifteen codes of the error cause table. -/
def legalErrs : List Word :=
  [0x000, 0x001, 0x002, 0x003, 0x004, 0x010, 0x020, 0x051, 0x052, 0x053, 0x054, 0x100, 0x200, 0x300, 0x400]

/-- What holds of every state a run can reach: the parameters are in range (rule R10), the buffer is in canonical form and
inside BUF_SIZE (rule R133), CUR_CMD is defined exactly when BUSY = 1 (rule R131), a command in flight shows ERR = 0 and
DONE = 0 (rule R711), ERR is 0 or a code of rule R601, and the reserved bits [31:7] of TYPEFLAGS are 0 (rule R124). -/
structure State.Inv (s : State) : Prop where
  config : s.cfg.wf = true
  canonical : s.buf.wf = true
  inside : addressesBelow s.buf s.cfg.bufSize = true
  latched : s.busy = s.curCmd.isSome
  inFlight : s.busy = true → s.err = 0#32 ∧ s.done = false
  errLegal : s.err ∈ legalErrs
  flagsReserved : s.typeflags >>> 7 = 0#32

/-- The registers a command may write, besides STATUS and ERR (rules R301, R471, R520 and R522). CRC_RESULT is CRC_STATE seen
through its complement (rule R122). -/
def resultRegs : Instr → List Reg
  | .crcInit => [.crcState, .crcResult]
  | .crcUpdate => [.crcState, .crcResult, .consumed]
  | .crcCompute => [.crcState, .crcResult, .consumed]
  | .crcVerify => [.calcCrc, .consumed]
  | .typeCheck => [.typeflags]
  | .chunkCrcGen => [.chunkCrc, .calcCrc]
  | .chunkDecode => [.chunkLen, .chunkType, .chunkCrc, .dataAddr, .calcCrc, .typeflags, .consumed]
  | .chunkEncode => [.chunkCrc, .calcCrc, .consumed]
  | .sigCheck => [.consumed]
  | .sigEmit => [.consumed]
  | .pngParse => [.chunkCount, .faultOffset, .consumed]

/-- The registers a FAILED command may write, besides STATUS and ERR (rules R413, R471, R522 and R611). -/
def failureRegs : Instr → List Reg
  | .crcInit => []
  | .crcUpdate => []
  | .crcCompute => []
  | .crcVerify => [.calcCrc]
  | .typeCheck => []
  | .chunkCrcGen => []
  | .chunkDecode => [.calcCrc]
  | .chunkEncode => []
  | .sigCheck => []
  | .sigEmit => []
  | .pngParse => [.chunkCount, .faultOffset]

/-- No field but a register result, ERR, BUSY, DONE, CUR_CMD or the buffer differs: the configuration, the enables, OVERRUN,
the agenda and what host reads got back are as they were. -/
def State.sameEnvironment (s t : State) : Prop :=
  t.cfg = s.cfg ∧ t.irqEn = s.irqEn ∧ t.structEn = s.structEn ∧ t.overrun = s.overrun ∧ t.agenda = s.agenda
    ∧ t.reads = s.reads

/-- The completion effects of rule R610 have been applied. -/
def State.completed (s : State) : Prop := s.busy = false ∧ s.done = true ∧ s.curCmd = none

/-- Every byte of buffer memory reads as before. -/
def SameBytes (m m' : Memory) : Prop := ∀ a : Nat, readByte m' a = readByte m a

/-- The engine moves next, and these turns follow it (rules R103 and R720). -/
def State.engineTurn (s : State) (rest : List Turn) : Prop :=
  s.agenda = .engine :: rest ∨ (s.agenda = [] ∧ rest = [])

/-- The next turn is a host write of `v` to the register at `off`, at the register port or through the bus (rule R200). -/
def State.hostWrites (s : State) (off : Nat) (v : Word) : Prop :=
  s.agenda.head? = some (.host (.regWrite off 4 v)) ∨ s.agenda.head? = some (.bus (.write (s.cfg.baseAddr + off) 4 v))

/-- The next turn is a host access that the BUSY filter turns away (rules R102, R203 and R710): a register write at an offset
other than STATUS's, or a buffer read or write, at the port or through the bus (rule R200). -/
def State.filteredAccess (s : State) : Prop :=
  (∃ (off : Nat) (v : Word), off ≠ 0x08 ∧ off % 4 = 0 ∧ off < 0x100 ∧ s.hostWrites off v)
    ∨ ∃ a : Nat, a < s.cfg.bufSize ∧ (s.agenda.head? = some (.host (.bufRead a 1))
      ∨ (∃ b : Byte, s.agenda.head? = some (.host (.bufWrite a 1 b)))
      ∨ s.agenda.head? = some (.bus (.read (s.cfg.bufBase + a) 1))
      ∨ ∃ v : Word, s.agenda.head? = some (.bus (.write (s.cfg.bufBase + a) 1 v)))

/-- The next turn is a reset, with power held or at power-on (rule R700). -/
def State.resets (s : State) : Prop :=
  s.agenda.head? = some (.host .reset) ∨ s.agenda.head? = some (.host .powerOn)

/-- A byte in the ASCII letter ranges (rule R450). -/
abbrev LetterByte (b : Byte) : Prop :=
  (0x41 ≤ b.toNat ∧ b.toNat ≤ 0x5A) ∨ (0x61 ≤ b.toNat ∧ b.toNat ≤ 0x7A)

/-- A type code, packed as in CHUNK_TYPE, whose four bytes are letters (rule R450). -/
abbrev LetterCode (t : Word) : Prop := ∀ b ∈ toBe32 t, LetterByte b

/-- The regions (a, n) and (b, m) overlap, as rule R221 says it. -/
abbrev RegionsOverlap (a n b m : Nat) : Prop := 0 < n ∧ 0 < m ∧ a < b + m ∧ b < a + n

/-- The source region of a state lies in buffer memory (rule R220). -/
abbrev State.SrcFits (s : State) : Prop := s.srcAddr.toNat + s.srcLen.toNat ≤ s.cfg.bufSize

/-- The destination region of a state lies in buffer memory (rule R220). -/
abbrev State.DstFits (s : State) : Prop := s.dstAddr.toNat + s.dstLen.toNat ≤ s.cfg.bufSize

/-- The data region of a state lies in buffer memory (rule R220). -/
abbrev State.DataFits (s : State) : Prop := s.dataAddr.toNat + s.chunkLen.toNat ≤ s.cfg.bufSize

/-- The bytes of a record with the LENGTH, TYPE, DATA and CRC fields given (rule R320). -/
def fieldsBytes (len t : Word) (d : List Byte) (crc : Word) : List Byte := toBe32 len ++ toBe32 t ++ d ++ toBe32 crc

/-- The record at `a`, in an input of `n` bytes, fails with this chunk kind (rule R470): the source's steps in order, the
letter check after the CRC. -/
def RecordFails (m : Memory) (a n : Nat) : ChunkKind → Prop
  | .tooShort => n < 12
  | .tooLong => 12 ≤ n ∧ ∃ len : Word, Holds m a (toBe32 len) ∧ n < 12 + len.toNat
  | .badCrc => ∃ (len t : Word) (d : List Byte) (crc : Word), d.length = len.toNat ∧ 12 + len.toNat ≤ n
      ∧ Holds m a (fieldsBytes len t d crc) ∧ crc32 (toBe32 t ++ d) ≠ crc
  | .generic => ∃ (len t : Word) (d : List Byte), d.length = len.toNat ∧ 12 + len.toNat ≤ n
      ∧ Holds m a (fieldsBytes len t d (crc32 (toBe32 t ++ d))) ∧ ¬ LetterCode t

/-- One chunk of a stream: its type code and its data. -/
structure Chunk where
  type : Word
  data : List Byte
  deriving DecidableEq, Repr

/-- The chunk's CRC (rule R400). -/
def Chunk.crc (c : Chunk) : Word := crc32 (toBe32 c.type ++ c.data)

/-- The chunk's record (rule R320). -/
def Chunk.record (c : Chunk) : List Byte := fieldsBytes (BitVec.ofNat 32 c.data.length) c.type c.data c.crc

/-- A chunk a decoder accepts: its type is four letters and its length is a u32. -/
abbrev Chunk.Valid (c : Chunk) : Prop := LetterCode c.type ∧ c.data.length < 2 ^ 32

/-- A PNG stream (rule R325): the signature and the records, nothing after them. -/
def streamBytes (cs : List Chunk) : List Byte :=
  [0x89#8, 0x50#8, 0x4E#8, 0x47#8, 0x0D#8, 0x0A#8, 0x1A#8, 0x0A#8] ++ cs.flatMap Chunk.record

/-- The descriptor table of the chunks whose first record stands at `off` (rule R324). -/
def tableBytes : Nat → List Chunk → List Byte
  | _, [] => []
  | off, c :: cs =>
    toBe32 (BitVec.ofNat 32 off) ++ toBe32 (BitVec.ofNat 32 c.data.length) ++ toBe32 c.type ++ toBe32 c.crc
      ++ tableBytes (off + 12 + c.data.length) cs

/-- The required chunks are in their positions (rule R521): at least two, IHDR first, IEND last. -/
abbrev RequiredChunks (cs : List Chunk) : Prop :=
  2 ≤ cs.length ∧ cs.head?.map Chunk.type = some 0x49484452#32 ∧ cs.getLast?.map Chunk.type = some 0x49454E44#32

/-- PNG_PARSE's operands pass its block-level checks (rule R520): both regions fit and they do not overlap. -/
abbrev State.ParseOperands (s : State) : Prop :=
  s.SrcFits ∧ s.DstFits ∧ ¬ RegionsOverlap s.srcAddr.toNat s.srcLen.toNat s.dstAddr.toNat s.dstLen.toNat

/-- The buffer region whose bytes a command may read, as base and length (rule R240). -/
def readRegion : Instr → State → Nat × Nat
  | .crcInit, _ => (0, 0)
  | .crcUpdate, s => (s.srcAddr.toNat, s.srcLen.toNat)
  | .crcCompute, s => (s.srcAddr.toNat, s.srcLen.toNat)
  | .crcVerify, s => (s.srcAddr.toNat, s.srcLen.toNat)
  | .typeCheck, _ => (0, 0)
  | .chunkCrcGen, s => (s.dataAddr.toNat, s.chunkLen.toNat)
  | .chunkDecode, s => (s.srcAddr.toNat, s.srcLen.toNat)
  | .chunkEncode, s => (s.dataAddr.toNat, s.chunkLen.toNat)
  | .sigCheck, s => (s.srcAddr.toNat, s.srcLen.toNat)
  | .sigEmit, _ => (0, 0)
  | .pngParse, s => (s.srcAddr.toNat, s.srcLen.toNat)

/-- The buffer region a command has written when it goes from `s` to `t`, as base and length (rules R240, R480, R511, R520 and
R522): the whole record or signature where it succeeds, the descriptors of CHUNK_COUNT chunks where PNG_PARSE gets past its
block checks, and nothing else. -/
def writtenRegion : Instr → State → State → Nat × Nat
  | .crcInit, _, _ => (0, 0)
  | .crcUpdate, _, _ => (0, 0)
  | .crcCompute, _, _ => (0, 0)
  | .crcVerify, _, _ => (0, 0)
  | .typeCheck, _, _ => (0, 0)
  | .chunkCrcGen, _, _ => (0, 0)
  | .chunkDecode, _, _ => (0, 0)
  | .chunkEncode, s, t => (s.dstAddr.toNat, if t.err = 0#32 then 12 + s.chunkLen.toNat else 0)
  | .sigCheck, _, _ => (0, 0)
  | .sigEmit, s, t => (s.dstAddr.toNat, if t.err = 0#32 then 8 else 0)
  | .pngParse, s, t => (s.dstAddr.toNat, if t.err = 0x200#32 ∨ t.err = 0x300#32 then 0 else 16 * t.chunkCount.toNat)

/-- The ERR values a command may leave (rule R601). -/
def possibleErrs : Instr → List Word
  | .crcInit => [0x000]
  | .crcUpdate => [0x000, 0x200]
  | .crcCompute => [0x000, 0x200]
  | .crcVerify => [0x000, 0x200, 0x003]
  | .typeCheck => [0x000]
  | .chunkCrcGen => [0x000, 0x200, 0x004]
  | .chunkDecode => [0x000, 0x200, 0x001, 0x002, 0x003, 0x004]
  | .chunkEncode => [0x000, 0x200, 0x400, 0x300, 0x004]
  | .sigCheck => [0x000, 0x200, 0x010]
  | .sigEmit => [0x000, 0x200, 0x400]
  | .pngParse => [0x000, 0x200, 0x300, 0x010, 0x051, 0x052, 0x053, 0x054, 0x400, 0x020]

/-- Every byte outside (base, n) reads as before. -/
def SameBytesOutside (m m' : Memory) (base n : Nat) : Prop :=
  ∀ a : Nat, a < base ∨ base + n ≤ a → readByte m' a = readByte m a

end Sys2Proof.Machine
end

