-- ==== Sys2Proof/Certificates/Slice0/Obligations.lean ====
section
/-! DEFINITION. The statements for the provers. Each says in its docstring which rule of spec/ it formalises. -/

open Sys2Proof Sys2Proof.Machine

/-! Encoding and decoding. -/

/-- Rules R302 and R303: the decoder accepts exactly the eleven words of the opcode map, each as its command. -/
def Obligations.DecoderAcceptsExactlyTheOpcodeMap : Prop :=
  ∀ (w : Word) (i : Instr), decode w = .ok i ↔
    (w, i) ∈ [(0x01#32, Instr.crcInit), (0x02#32, .crcUpdate), (0x03#32, .crcCompute), (0x04#32, .crcVerify),
      (0x10#32, .typeCheck), (0x11#32, .chunkCrcGen), (0x12#32, .chunkDecode), (0x13#32, .chunkEncode),
      (0x20#32, .sigCheck), (0x21#32, .sigEmit), (0x22#32, .pngParse)]

/-- Rules R300 and R302: decoding a well-formed command's word gives the command back, and a word that decodes is the word of
what it decodes to, so no bit of a command word is dropped. -/
def Obligations.DecodeAndEncodeAgree : Prop :=
  (∀ i : Instr, i.wellFormed = true → decode (encode i) = .ok i) ∧ ∀ (w : Word) (i : Instr), decode w = .ok i → w = encode i

/-- Rules R303 and R304: the words that decode to no command are exactly those with a nonzero bit in [31:8] or a reserved
OPCODE. -/
def Obligations.IllegalWordsAreTheReservedOnes : Prop :=
  ∀ w : Word, (∀ i : Instr, decode w ≠ .ok i) ↔
    (0x100 ≤ w.toNat ∨ w.toNat % 256 = 0x00 ∨ (0x05 ≤ w.toNat % 256 ∧ w.toNat % 256 ≤ 0x0F)
      ∨ (0x14 ≤ w.toNat % 256 ∧ w.toNat % 256 ≤ 0x1F) ∨ 0x23 ≤ w.toNat % 256)

/-- Rule R302, words written out: one word of each family decodes as the table says, and two illegal words decode to none. -/
def Obligations.SampleWordsDecode : Prop :=
  decodeTableWord 32 0x00000003 = some .crcCompute ∧ decodeTableWord 32 0x00000012 = some .chunkDecode
    ∧ decodeTableWord 32 0x00000022 = some .pngParse ∧ decodeTableWord 32 0x00000000 = none
    ∧ decodeTableWord 32 0x00000101 = none

/-! The engine's step. -/

/-- Rules R303 and R610: at the engine's turn, with a command in flight, a step is exec of the decoded command. -/
def Obligations.StepRunsTheDecodedCommand : Prop :=
  ∀ (s : State) (rest : List Turn) (w : Word) (i : Instr), s.busy = true → s.curCmd = some w → s.engineTurn rest →
    decode w = .ok i → i.wellFormed = true → step s = exec i { s with agenda := rest }

/-- Rules R303 and R304: an illegal word completes with IllegalCommand, writing ERR = 0x100 and the completion effects and
nothing else. -/
def Obligations.IllegalWordCompletesWithIllegalCommand : Prop :=
  ∀ (s : State) (rest : List Turn) (w : Word), s.busy = true → s.curCmd = some w → s.engineTurn rest →
    (0x100 ≤ w.toNat ∨ reservedOpcode (w.toNat % 256) = true) →
    step s = .next { s with agenda := rest, err := 0x100#32, busy := false, done := true, curCmd := none }

/-- Rule R103: complete is enabled exactly when BUSY = 1; with BUSY = 0 the engine's turn changes nothing. -/
def Obligations.EngineIsIdleUnlessBusy : Prop :=
  ∀ (s : State) (rest : List Turn), s.busy = false → s.engineTurn rest → step s = .next { s with agenda := rest }

/-- The invariant of Safety.lean (rules R10, R124, R131, R133, R330, R711) is kept by every step, whoever moves. -/
def Obligations.StepKeepsInvariant : Prop :=
  ∀ s t : State, s.Inv → step s = .next t → t.Inv

/-- Rules R140 and R700: the state after power-on meets the invariant, for every parameter value of rule R10. -/
def Obligations.ResetMeetsInvariant : Prop :=
  State.reset.Inv ∧ ∀ c : Config, c.wf = true → (State.resetWith c).Inv

/-- Rules R10 and R128: a read of BUFSIZE returns the parameter BUF_SIZE, which never changes. That BASE_ADDR, BUF_BASE and
IRQ_ROUTE stand in the state and never change either is the model's choice (log entry 4). -/
def Obligations.ParametersNeverChange : Prop :=
  ∀ s t : State, step s = .next t → t.cfg = s.cfg ∧ regValue s .bufSize = BitVec.ofNat 32 s.cfg.bufSize
    ∧ regValue t .bufSize = BitVec.ofNat 32 s.cfg.bufSize

/-- Rule R112, the columns "Set by" and "Cleared by": BUSY rises only by a CMD write while it is 0 and falls only by the engine's
completion or reset; DONE rises only by the engine's completion and falls only by a host write of 1 to bit 1, the start of the
next command or reset; OVERRUN rises only by a host access that the BUSY filter turns away, a register write at an offset other
than 0x08 or a buffer read or write while BUSY = 1, and falls only by a host write of 1 to bit 3 or reset. -/
def Obligations.StatusBitsChangeOnlyAsListed : Prop :=
  ∀ s t : State, step s = .next t →
    (s.busy = false → t.busy = true → ∃ v : Word, t.curCmd = some v ∧ s.hostWrites 0x0C v)
    ∧ (s.busy = true → t.busy = false → (∃ rest, s.engineTurn rest) ∨ s.resets)
    ∧ (s.done = false → t.done = true → (∃ rest, s.engineTurn rest) ∧ s.busy = true ∧ t.busy = false)
    ∧ (s.done = true → t.done = false → (∃ v : Word, v.getLsbD 1 = true ∧ s.hostWrites 0x08 v)
      ∨ (s.busy = false ∧ ∃ v : Word, s.hostWrites 0x0C v) ∨ s.resets)
    ∧ (s.overrun = false → t.overrun = true → s.busy = true ∧ s.filteredAccess)
    ∧ (s.overrun = true → t.overrun = false → (∃ v : Word, v.getLsbD 3 = true ∧ s.hostWrites 0x08 v) ∨ s.resets)

/-! Reset. -/

/-- Rules R101, R129, R133, R140 and R700: after power-on and its reset every register reads its reset value, a reserved offset
reads 0, CUR_CMD is undefined, IRQ is 0 and every buffer byte is unwritten, for every parameter value. (A reset with power held
keeps the bytes: ResetRestoresTheResetState.) -/
def Obligations.ResetLeavesTheResetValues : Prop :=
  ∀ c : Config,
    (∀ p ∈ [(0x00, 0x504E4731#32), (0x04, 0x00000002#32), (0x08, 0#32), (0x0C, 0#32), (0x10, 0#32), (0x14, 0#32), (0x18, 0#32),
        (0x1C, 0#32), (0x20, 0#32), (0x24, 0#32), (0x28, 0#32), (0x2C, 0#32), (0x30, 0#32), (0x34, 0xFFFFFFFF#32), (0x38, 0#32),
        (0x3C, 0#32), (0x40, 0#32), (0x44, 0#32), (0x48, 0#32), (0x4C, 0#32), (0x50, BitVec.ofNat 32 c.bufSize)],
      readOffset (State.resetWith c) p.1 = p.2)
    ∧ (∀ off : Nat, 0x54 ≤ off → readOffset (State.resetWith c) off = 0#32)
    ∧ (State.resetWith c).curCmd = none ∧ irqOutput (State.resetWith c) = false
    ∧ ∀ a : Nat, readByte (State.resetWith c).buf a = none

/-- Rules R700 and R701: a reset, whether or not a command is in flight, restores every register, latches nothing and abandons
the command with no effect; with power held it keeps every buffer byte, and at power-on every byte is unwritten. The model's own
choices beside them: power-on is one turn (log entry 17), and a reset keeps the agenda (log entry 1) and what the host has read
(log entry 3). -/
def Obligations.ResetRestoresTheResetState : Prop :=
  ∀ (s : State) (rest : List Turn) (a : HostAccess), a = .reset ∨ a = .powerOn → s.agenda = .host a :: rest →
    ∃ t : State, step s = .next t ∧ (∀ r : Reg, regValue t r = regValue (State.resetWith s.cfg) r) ∧ t.curCmd = none
      ∧ t.busy = false ∧ t.done = false ∧ t.overrun = false ∧ t.irqEn = false ∧ t.structEn = true ∧ t.err = 0#32
      ∧ irqOutput t = false ∧ t.crcState = 0xFFFFFFFF#32 ∧ regValue t .crcResult = 0#32
      ∧ t.cfg = s.cfg ∧ t.agenda = rest ∧ t.reads = s.reads
      ∧ (a = .reset → ∀ x : Nat, readByte t.buf x = readByte s.buf x)
      ∧ (a = .powerOn → ∀ x : Nat, readByte t.buf x = none)

/-! The CRC commands. -/

/-- Rule R410: CRC_INIT, word 0x01, loads 0xFFFFFFFF into CRC_STATE, so CRC_RESULT reads 0, and completes. -/
def Obligations.CrcInitLoadsTheInitialValue : Prop :=
  decode 0x01#32 = .ok .crcInit ∧ ∀ s : State, ∃ t : State, exec .crcInit s = .next t ∧ regValue t .crcResult = 0#32
    ∧ t = { s with crcState := 0xFFFFFFFF#32, err := 0#32, busy := false, done := true, curCmd := none }

/-- Rule R411: the bytes of the source region are fed into the running CRC; a region that does not fit gives RangeFault and
changes nothing else. -/
def Obligations.CrcUpdateFeedsTheSourceRegion : Prop :=
  decode 0x02#32 = .ok .crcUpdate ∧ ∀ s : State,
    (s.SrcFits → ∀ bs : List Byte, bs.length = s.srcLen.toNat → Holds s.buf s.srcAddr.toNat bs →
      exec .crcUpdate s = .next { s with
        crcState := crcUpdate s.crcState bs, consumed := s.srcLen, err := 0#32, busy := false, done := true, curCmd := none })
    ∧ (¬ s.SrcFits →
      exec .crcUpdate s = .next { s with err := 0x200#32, busy := false, done := true, curCmd := none })

/-- Rule R412: the CRC starts at 0xFFFFFFFF whatever CRC_STATE held. -/
def Obligations.CrcComputeStartsAfresh : Prop :=
  decode 0x03#32 = .ok .crcCompute ∧ ∀ s : State,
    (s.SrcFits → ∀ bs : List Byte, bs.length = s.srcLen.toNat → Holds s.buf s.srcAddr.toNat bs →
      ∃ t : State, exec .crcCompute s = .next t ∧ regValue t .crcResult = crc32 bs ∧ t = { s with
        crcState := crcUpdate 0xFFFFFFFF#32 bs, consumed := s.srcLen, err := 0#32, busy := false, done := true, curCmd := none })
    ∧ (¬ s.SrcFits →
      exec .crcCompute s = .next { s with err := 0x200#32, busy := false, done := true, curCmd := none })

/-- Rule R413: CALC_CRC takes the CRC computed, match or not; only a match writes CONSUMED and leaves ERR = 0. -/
def Obligations.CrcVerifyComparesWithChunkCrc : Prop :=
  decode 0x04#32 = .ok .crcVerify ∧ ∀ s : State,
    (s.SrcFits → ∀ bs : List Byte, bs.length = s.srcLen.toNat → Holds s.buf s.srcAddr.toNat bs →
      (crc32 bs = s.chunkCrc → exec .crcVerify s = .next { s with
        calcCrc := crc32 bs, consumed := s.srcLen, err := 0#32, busy := false, done := true, curCmd := none })
      ∧ (crc32 bs ≠ s.chunkCrc → exec .crcVerify s = .next { s with
        calcCrc := crc32 bs, err := 0x003#32, busy := false, done := true, curCmd := none }))
    ∧ (¬ s.SrcFits →
      exec .crcVerify s = .next { s with err := 0x200#32, busy := false, done := true, curCmd := none })

/-- Rule R404, a law the spec derives: CRC_INIT and then CRC_UPDATE over two adjoining regions leaves in CRC_RESULT the crc32
of the whole string, wherever it is split. -/
def Obligations.SegmentedCrcIsTheWholeCrc : Prop :=
  ∀ (s t u v : State) (x y : List Byte), Holds s.buf s.srcAddr.toNat (x ++ y) →
    s.srcAddr.toNat + x.length + y.length ≤ s.cfg.bufSize → s.srcAddr.toNat + x.length + y.length < 2 ^ 32 →
    exec .crcInit s = .next t →
    exec .crcUpdate { t with srcLen := BitVec.ofNat 32 x.length } = .next u →
    exec .crcUpdate { u with srcAddr := s.srcAddr + BitVec.ofNat 32 x.length, srcLen := BitVec.ofNat 32 y.length } = .next v →
    v.err = 0#32 ∧ regValue v .crcResult = crc32 (x ++ y)

/-- Rules R401 and R402, which the spec marks as general knowledge: the model's CRC function written out (one bit with the
reflected polynomial, one byte as eight bits, a byte string first to last, crc32), the table-driven form, which gives the same
register for every register value and byte, its entry T[1], and the check value over "123456789". -/
def Obligations.CrcFunctionFollowsItsRule : Prop :=
  (∀ c : Word, crcStepBit c = if c.getLsbD 0 = true then (c >>> 1) ^^^ 0xEDB88320#32 else c >>> 1)
    ∧ (∀ c : Word, crcStepBits 0 c = c) ∧ (∀ (n : Nat) (c : Word), crcStepBits (n + 1) c = crcStepBits n (crcStepBit c))
    ∧ (∀ (c : Word) (b : Byte), crcStepByte c b = crcStepBits 8 (c ^^^ b.setWidth 32))
    ∧ (∀ c : Word, crcUpdate c [] = c)
    ∧ (∀ (c : Word) (b : Byte) (bs : List Byte), crcUpdate c (b :: bs) = crcUpdate (crcStepByte c b) bs)
    ∧ (∀ bs : List Byte, crc32 bs = crcUpdate 0xFFFFFFFF#32 bs ^^^ 0xFFFFFFFF#32)
    ∧ (∀ (c : Word) (b : Byte), crcStepByte c b = (c >>> 8) ^^^ crcStepBits 8 ((c ^^^ b.setWidth 32) &&& 0xFF#32))
    ∧ crcStepBits 8 0x00000001#32 = 0x77073096#32
    ∧ crc32 [0x31#8, 0x32#8, 0x33#8, 0x34#8, 0x35#8, 0x36#8, 0x37#8, 0x38#8, 0x39#8] = 0xCBF43926#32

/-- Rule R407, the property the source states: flipping any single bit of a byte string changes its crc32. -/
def Obligations.SingleBitFlipChangesTheCrc : Prop :=
  ∀ (pre post : List Byte) (b : Byte) (k : Nat), k < 8 →
    crc32 (pre ++ (b ^^^ (1#8 <<< k)) :: post) ≠ crc32 (pre ++ b :: post)

/-- Rule R403: only CRC_INIT, CRC_UPDATE and CRC_COMPUTE write CRC_STATE, and only CRC_UPDATE reads it: for every other command,
another value in CRC_STATE changes nothing else in the result, nor the CRC_STATE that CRC_INIT or a successful CRC_COMPUTE
writes. -/
def Obligations.CrcStateIsTheGeneratorsAlone : Prop :=
  (∀ (i : Instr) (s t : State), i ≠ .crcInit → i ≠ .crcUpdate → i ≠ .crcCompute → exec i s = .next t →
      t.crcState = s.crcState)
    ∧ ∀ (i : Instr) (s t : State) (v : Word), i ≠ .crcUpdate → exec i s = .next t →
      ∃ t' : State, exec i { s with crcState := v } = .next t' ∧ { t' with crcState := t.crcState } = t
        ∧ (i = .crcInit ∨ i = .crcCompute → t.err = 0#32 → t'.crcState = t.crcState)

/-! Type codes and one chunk. -/

/-- Rule R21: be32 is the big-endian value of four bytes and BE32 its inverse. -/
def Obligations.BigEndianConversionsAreInverse : Prop :=
  (∀ a b c d : Byte, (be32 [a, b, c, d]).toNat = a.toNat * 2 ^ 24 + b.toNat * 2 ^ 16 + c.toNat * 2 ^ 8 + d.toNat
      ∧ toBe32 (be32 [a, b, c, d]) = [a, b, c, d])
    ∧ ∀ x : Word, be32 (toBe32 x) = x

/-- Rules R451 and R460: TYPE_CHECK writes one bit for each property of the four type bytes and nothing above them, for letters
and other bytes alike, and never raises. -/
def Obligations.TypeCheckReportsEveryProperty : Prop :=
  decode 0x10#32 = .ok .typeCheck ∧ ∀ (s : State) (t0 t1 t2 t3 : Byte), toBe32 s.chunkType = [t0, t1, t2, t3] →
    ∃ f : Word,
      exec .typeCheck s = .next { s with typeflags := f, err := 0#32, busy := false, done := true, curCmd := none }
      ∧ (f.getLsbD 0 = true ↔ ∀ b ∈ [t0, t1, t2, t3], LetterByte b)
      ∧ f.getLsbD 1 = !t0.getLsbD 5 ∧ f.getLsbD 2 = !t1.getLsbD 5 ∧ f.getLsbD 3 = !t2.getLsbD 5 ∧ f.getLsbD 4 = t3.getLsbD 5
      ∧ (f.getLsbD 5 = true ↔ [t0, t1, t2, t3] = [0x49#8, 0x45#8, 0x4E#8, 0x44#8])
      ∧ (f.getLsbD 6 = true ↔ [t0, t1, t2, t3] = [0x49#8, 0x48#8, 0x44#8, 0x52#8])
      ∧ ∀ k : Nat, 7 ≤ k → f.getLsbD k = false

/-- Rule R461: the range check, then the letter check, then the CRC over type ++ data into CHUNK_CRC and CALC_CRC. -/
def Obligations.ChunkCrcGenComputesTheChunkCrc : Prop :=
  decode 0x11#32 = .ok .chunkCrcGen ∧ ∀ s : State,
    (¬ s.DataFits → exec .chunkCrcGen s = .next { s with err := 0x200#32, busy := false, done := true, curCmd := none })
    ∧ (s.DataFits → ¬ LetterCode s.chunkType →
      exec .chunkCrcGen s = .next { s with err := 0x004#32, busy := false, done := true, curCmd := none })
    ∧ (s.DataFits → LetterCode s.chunkType → ∀ d : List Byte, d.length = s.chunkLen.toNat → Holds s.buf s.dataAddr.toNat d →
      exec .chunkCrcGen s = .next { s with
        chunkCrc := crc32 (toBe32 s.chunkType ++ d), calcCrc := crc32 (toBe32 s.chunkType ++ d)
        err := 0#32, busy := false, done := true, curCmd := none })

/-- Rules R470 and R471, the success: a record that fits, whose CRC field is the CRC of its type and data and whose type is
four letters, is accepted, bytes after it ignored. -/
def Obligations.ChunkDecodeAcceptsAGoodRecord : Prop :=
  ∀ (s : State) (len ty : Word) (d : List Byte), s.SrcFits → d.length = len.toNat → 12 + len.toNat ≤ s.srcLen.toNat →
    LetterCode ty → Holds s.buf s.srcAddr.toNat (fieldsBytes len ty d (crc32 (toBe32 ty ++ d))) →
    exec .chunkDecode s = .next { s with
      chunkLen := len, chunkType := ty, chunkCrc := crc32 (toBe32 ty ++ d), dataAddr := s.srcAddr + 8#32
      calcCrc := crc32 (toBe32 ty ++ d), typeflags := typeFlagsOf ty, consumed := 12#32 + len
      err := 0#32, busy := false, done := true, curCmd := none }

/-- Rules R331, R470 and R471, the failures: the first check that fails, in the order of the rule, gives the error, TooShort 1,
TooLong 2, BadCRC 3 and Generic 4, and only CALC_CRC is written, with the CRC computed, where the CRC was reached. -/
def Obligations.ChunkDecodeFailsAtTheFirstCheck : Prop :=
  ∀ s : State,
    (¬ s.SrcFits → exec .chunkDecode s = .next { s with err := 0x200#32, busy := false, done := true, curCmd := none })
    ∧ (s.SrcFits → ∀ (k : ChunkKind) (e : Word),
      (k, e) ∈ [(ChunkKind.tooShort, 0x001#32), (.tooLong, 0x002#32), (.badCrc, 0x003#32), (.generic, 0x004#32)] →
      RecordFails s.buf s.srcAddr.toNat s.srcLen.toNat k →
      ∃ c : Word, exec .chunkDecode s = .next { s with
          calcCrc := c, err := e, busy := false, done := true, curCmd := none }
        ∧ (k = .tooShort ∨ k = .tooLong → c = s.calcCrc)
        ∧ ∀ (len ty : Word) (d : List Byte) (crc : Word), k = .badCrc ∨ k = .generic → d.length = len.toNat →
          Holds s.buf s.srcAddr.toNat (fieldsBytes len ty d crc) → c = crc32 (toBe32 ty ++ d))

/-- Rule R480, the success: the record is written at DST_ADDR, from the data as it was, and no byte outside it changes. -/
def Obligations.ChunkEncodeWritesTheRecord : Prop :=
  ∀ (s : State) (d : List Byte), s.DataFits → s.DstFits → 12 + s.chunkLen.toNat ≤ s.dstLen.toNat →
    (¬ RegionsOverlap s.dataAddr.toNat s.chunkLen.toNat s.dstAddr.toNat (12 + s.chunkLen.toNat)
      ∨ s.dataAddr.toNat = s.dstAddr.toNat + 8) →
    LetterCode s.chunkType → d.length = s.chunkLen.toNat → Holds s.buf s.dataAddr.toNat d →
    ∃ m : Memory,
      exec .chunkEncode s = .next { s with
        buf := m, chunkCrc := crc32 (toBe32 s.chunkType ++ d), calcCrc := crc32 (toBe32 s.chunkType ++ d)
        consumed := 12#32 + s.chunkLen, err := 0#32, busy := false, done := true, curCmd := none }
      ∧ Holds m s.dstAddr.toNat (fieldsBytes s.chunkLen s.chunkType d (crc32 (toBe32 s.chunkType ++ d)))
      ∧ SameBytesOutside s.buf m s.dstAddr.toNat (12 + s.chunkLen.toNat)

/-- Rules R480 and R630, the failures: the first check that fails, in the order data region, destination region, capacity,
overlap, letters, gives the error, and nothing else is written. -/
def Obligations.ChunkEncodeFailsAtTheFirstCheck : Prop :=
  ∀ s : State,
    (¬ s.DataFits ∨ ¬ s.DstFits →
      exec .chunkEncode s = .next { s with err := 0x200#32, busy := false, done := true, curCmd := none })
    ∧ (s.DataFits → s.DstFits →
      (s.dstLen.toNat < 12 + s.chunkLen.toNat →
        exec .chunkEncode s = .next { s with err := 0x400#32, busy := false, done := true, curCmd := none })
      ∧ (12 + s.chunkLen.toNat ≤ s.dstLen.toNat →
        (RegionsOverlap s.dataAddr.toNat s.chunkLen.toNat s.dstAddr.toNat (12 + s.chunkLen.toNat) →
          s.dataAddr.toNat ≠ s.dstAddr.toNat + 8 →
          exec .chunkEncode s = .next { s with err := 0x300#32, busy := false, done := true, curCmd := none })
        ∧ (¬ RegionsOverlap s.dataAddr.toNat s.chunkLen.toNat s.dstAddr.toNat (12 + s.chunkLen.toNat)
            ∨ s.dataAddr.toNat = s.dstAddr.toNat + 8 →
          ¬ LetterCode s.chunkType →
          exec .chunkEncode s = .next { s with err := 0x004#32, busy := false, done := true, curCmd := none })))

/-- Rule R481, a law the spec derives: CHUNK_DECODE of the record a successful CHUNK_ENCODE wrote gives back its length, type, CRC
and data. -/
def Obligations.DecodeOfEncodedChunkGivesItBack : Prop :=
  ∀ s t u : State, exec .chunkEncode s = .next t → t.err = 0#32 → u.buf = t.buf → u.cfg = t.cfg → u.srcAddr = s.dstAddr →
    u.srcLen.toNat = 12 + s.chunkLen.toNat →
    ∃ v : State, exec .chunkDecode u = .next v ∧ v.err = 0#32 ∧ v.chunkLen = s.chunkLen ∧ v.chunkType = s.chunkType
      ∧ v.chunkCrc = t.chunkCrc ∧ v.dataAddr = s.dstAddr + 8#32
      ∧ ∀ i : Nat, i < s.chunkLen.toNat →
        readByte v.buf (s.dstAddr.toNat + 8 + i) = readByte s.buf (s.dataAddr.toNat + i)

/-- Rule R482, a law the spec derives: take a record that CHUNK_DECODE accepts and flip one bit of its type, data or CRC bytes;
CHUNK_DECODE of the flipped record fails with BadCRC. -/
def Obligations.FlippedRecordFailsWithBadCrc : Prop :=
  ∀ (s t : State) (k j : Nat) (b : Byte), exec .chunkDecode s = .next t → t.err = 0#32 → 4 ≤ k →
    k < 12 + t.chunkLen.toNat → j < 8 → readByte s.buf (s.srcAddr.toNat + k) = some b →
    ∃ u : State,
      exec .chunkDecode { s with buf := writeByte s.buf (s.srcAddr.toNat + k) (b ^^^ (1#8 <<< j)) } = .next u
      ∧ u.err = 0x003#32 ∧ u.chunkLen = s.chunkLen ∧ u.chunkType = s.chunkType ∧ u.consumed = s.consumed

/-! The stream. -/

/-- Rule R510: SIG_CHECK, word 0x20, compares the first eight bytes of the source region with the signature. -/
def Obligations.SigCheckComparesEightBytes : Prop :=
  decode 0x20#32 = .ok .sigCheck ∧ ∀ s : State,
    (¬ s.SrcFits → exec .sigCheck s = .next { s with err := 0x200#32, busy := false, done := true, curCmd := none })
    ∧ (s.SrcFits → s.srcLen.toNat < 8 →
      exec .sigCheck s = .next { s with err := 0x010#32, busy := false, done := true, curCmd := none })
    ∧ (s.SrcFits → 8 ≤ s.srcLen.toNat → ∀ bs : List Byte, bs.length = 8 → Holds s.buf s.srcAddr.toNat bs →
      (bs = [0x89#8, 0x50#8, 0x4E#8, 0x47#8, 0x0D#8, 0x0A#8, 0x1A#8, 0x0A#8] →
        exec .sigCheck s = .next { s with consumed := 8#32, err := 0#32, busy := false, done := true, curCmd := none })
      ∧ (bs ≠ [0x89#8, 0x50#8, 0x4E#8, 0x47#8, 0x0D#8, 0x0A#8, 0x1A#8, 0x0A#8] →
        exec .sigCheck s = .next { s with err := 0x010#32, busy := false, done := true, curCmd := none }))

/-- Rule R511: the signature is written at DST_ADDR and no byte outside it changes; a region that does not fit or holds fewer
than 8 bytes writes nothing. -/
def Obligations.SigEmitWritesTheSignature : Prop :=
  decode 0x21#32 = .ok .sigEmit ∧ ∀ s : State,
    (¬ s.DstFits → exec .sigEmit s = .next { s with err := 0x200#32, busy := false, done := true, curCmd := none })
    ∧ (s.DstFits → s.dstLen.toNat < 8 →
      exec .sigEmit s = .next { s with err := 0x400#32, busy := false, done := true, curCmd := none })
    ∧ (s.DstFits → 8 ≤ s.dstLen.toNat → ∃ m : Memory,
      exec .sigEmit s = .next { s with
        buf := m, consumed := 8#32, err := 0#32, busy := false, done := true, curCmd := none }
      ∧ Holds m s.dstAddr.toNat [0x89#8, 0x50#8, 0x4E#8, 0x47#8, 0x0D#8, 0x0A#8, 0x1A#8, 0x0A#8]
      ∧ SameBytesOutside s.buf m s.dstAddr.toNat 8)

/-- Rules R520 and R521, the success: over a stream of valid chunks PNG_PARSE writes one descriptor per chunk, in stream order,
and no byte outside the table, where the required chunks are in place or the check is off. -/
def Obligations.PngParseDescribesEveryChunk : Prop :=
  ∀ (s : State) (cs : List Chunk), s.ParseOperands → (∀ c ∈ cs, c.Valid) → (streamBytes cs).length = s.srcLen.toNat →
    Holds s.buf s.srcAddr.toNat (streamBytes cs) → 16 * cs.length ≤ s.dstLen.toNat →
    (s.structEn = true → RequiredChunks cs) →
    ∃ m : Memory,
      exec .pngParse s = .next { s with
        buf := m, chunkCount := BitVec.ofNat 32 cs.length, consumed := s.srcLen
        err := 0#32, busy := false, done := true, curCmd := none }
      ∧ Holds m s.dstAddr.toNat (tableBytes 8 cs) ∧ SameBytesOutside s.buf m s.dstAddr.toNat (16 * cs.length)

/-- Rules R521 and R522: with STRUCT_EN = 1 and the required chunks not in place, a stream that walks cleanly fails with
MissingRequiredChunks, and CHUNK_COUNT, FAULT_OFFSET = SRC_LEN and the descriptors are written. -/
def Obligations.PngParseRequiresHeaderAndEnd : Prop :=
  ∀ (s : State) (cs : List Chunk), s.ParseOperands → (∀ c ∈ cs, c.Valid) → (streamBytes cs).length = s.srcLen.toNat →
    Holds s.buf s.srcAddr.toNat (streamBytes cs) → 16 * cs.length ≤ s.dstLen.toNat →
    s.structEn = true → ¬ RequiredChunks cs →
    ∃ m : Memory,
      exec .pngParse s = .next { s with
        buf := m, chunkCount := BitVec.ofNat 32 cs.length, faultOffset := s.srcLen
        err := 0x020#32, busy := false, done := true, curCmd := none }
      ∧ Holds m s.dstAddr.toNat (tableBytes 8 cs) ∧ SameBytesOutside s.buf m s.dstAddr.toNat (16 * cs.length)

/-- Rules R331, R520 and R522: the first record that fails ends the walk: its chunk error wrapped (0x051 TooShort, 0x052 TooLong,
0x053 BadCRC, 0x054 Generic), its offset in FAULT_OFFSET, the number of records before it in CHUNK_COUNT and their descriptors in
the table. -/
def Obligations.PngParseStopsAtTheFirstBadRecord : Prop :=
  ∀ (s : State) (cs : List Chunk) (k : ChunkKind) (e : Word),
    (k, e) ∈ [(ChunkKind.tooShort, 0x051#32), (.tooLong, 0x052#32), (.badCrc, 0x053#32), (.generic, 0x054#32)] →
    s.ParseOperands → (∀ c ∈ cs, c.Valid) → (streamBytes cs).length < s.srcLen.toNat → Holds s.buf s.srcAddr.toNat (streamBytes cs) →
    16 * cs.length ≤ s.dstLen.toNat →
    RecordFails s.buf (s.srcAddr.toNat + (streamBytes cs).length) (s.srcLen.toNat - (streamBytes cs).length) k →
    ∃ m : Memory,
      exec .pngParse s = .next { s with
        buf := m, chunkCount := BitVec.ofNat 32 cs.length, faultOffset := BitVec.ofNat 32 (streamBytes cs).length
        err := e, busy := false, done := true, curCmd := none }
      ∧ Holds m s.dstAddr.toNat (tableBytes 8 cs) ∧ SameBytesOutside s.buf m s.dstAddr.toNat (16 * cs.length)

/-- Rules R520 and R522: a valid record that the table has no room for ends the walk with DstTooSmall, after it decodes. -/
def Obligations.PngParseStopsWhenTheTableIsFull : Prop :=
  ∀ (s : State) (cs : List Chunk) (c : Chunk), s.ParseOperands → (∀ x ∈ cs ++ [c], x.Valid) →
    (streamBytes (cs ++ [c])).length ≤ s.srcLen.toNat → Holds s.buf s.srcAddr.toNat (streamBytes (cs ++ [c])) →
    16 * cs.length ≤ s.dstLen.toNat → s.dstLen.toNat < 16 * (cs.length + 1) →
    ∃ m : Memory,
      exec .pngParse s = .next { s with
        buf := m, chunkCount := BitVec.ofNat 32 cs.length, faultOffset := BitVec.ofNat 32 (streamBytes cs).length
        err := 0x400#32, busy := false, done := true, curCmd := none }
      ∧ Holds m s.dstAddr.toNat (tableBytes 8 cs) ∧ SameBytesOutside s.buf m s.dstAddr.toNat (16 * cs.length)

/-- Rules R520 and R522: the block-level checks write ERR alone; a missing or wrong signature writes CHUNK_COUNT = 0 and
FAULT_OFFSET = 0 besides. -/
def Obligations.PngParseChecksOperandsThenSignature : Prop :=
  ∀ s : State,
    (¬ s.SrcFits ∨ ¬ s.DstFits →
      exec .pngParse s = .next { s with err := 0x200#32, busy := false, done := true, curCmd := none })
    ∧ (s.SrcFits → s.DstFits → RegionsOverlap s.srcAddr.toNat s.srcLen.toNat s.dstAddr.toNat s.dstLen.toNat →
      exec .pngParse s = .next { s with err := 0x300#32, busy := false, done := true, curCmd := none })
    ∧ (s.ParseOperands →
      (s.srcLen.toNat < 8 ∨ ∃ bs : List Byte, bs.length = 8 ∧ Holds s.buf s.srcAddr.toNat bs
        ∧ bs ≠ [0x89#8, 0x50#8, 0x4E#8, 0x47#8, 0x0D#8, 0x0A#8, 0x1A#8, 0x0A#8]) →
      exec .pngParse s = .next { s with
        chunkCount := 0#32, faultOffset := 0#32, err := 0x010#32, busy := false, done := true, curCmd := none })

/-- Rule R523, a law the spec derives: a walk that finishes stands exactly at the end of the stream, and has described at most
(SRC_LEN - 8) / 12 chunks. -/
def Obligations.FinishedWalkStandsAtTheStreamEnd : Prop :=
  ∀ (s : State) (w : Walk), 8 ≤ s.srcLen.toNat → s.walk = .ok (.finished w) →
    w.off = s.srcLen.toNat ∧ w.count ≤ (s.srcLen.toNat - 8) / 12

/-- Rule R512, a law the spec derives: SIG_EMIT writes the stream of no chunks, and CHUNK_ENCODE at the end of a stream, its data
outside the record or in place, makes it the stream of one chunk more, CONSUMED saying where the next record goes. -/
def Obligations.SerializingCommandsBuildTheStream : Prop :=
  (∀ s t : State, exec .sigEmit s = .next t → t.err = 0#32 → Holds t.buf s.dstAddr.toNat (streamBytes []) ∧ t.consumed = 8#32)
    ∧ ∀ (s t : State) (a : Nat) (cs : List Chunk) (d : List Byte), s.cfg.wf = true → Holds s.buf a (streamBytes cs) →
      s.dstAddr.toNat = a + (streamBytes cs).length → d.length = s.chunkLen.toNat → Holds s.buf s.dataAddr.toNat d →
      exec .chunkEncode s = .next t → t.err = 0#32 →
      Holds t.buf a (streamBytes (cs ++ [{ type := s.chunkType, data := d }]))
        ∧ s.dstAddr.toNat + t.consumed.toNat = a + (streamBytes (cs ++ [{ type := s.chunkType, data := d }])).length

/-! What holds of every command. -/

/-- Rules R301 and R132: a command changes no register besides STATUS, ERR and its result registers. -/
def Obligations.CommandsWriteOnlyTheirResultRegisters : Prop :=
  ∀ (i : Instr) (s t : State) (r : Reg), exec i s = .next t → r ≠ .status → r ≠ .err → r ∉ resultRegs i →
    regValue t r = regValue s r

/-- Rule R611: a failed command changes no register besides STATUS, ERR and those its rule names, and no buffer byte, but for the
descriptors of a failed PNG_PARSE. -/
def Obligations.FailedCommandsAreAtomic : Prop :=
  ∀ (i : Instr) (s t : State), exec i s = .next t → t.err ≠ 0#32 →
    (∀ r : Reg, r ≠ .status → r ≠ .err → r ∉ failureRegs i → regValue t r = regValue s r)
    ∧ (i ≠ .pngParse → SameBytes s.buf t.buf)

/-- Rules R601 and R610: a command that completes leaves BUSY = 0, DONE = 1 and CUR_CMD undefined, an ERR value that its rules can
raise, IRQ = CTRL.IRQ_EN, and the enables, OVERRUN and the parameters as they were; so it leaves the model's own agenda (log
entry 1) and list of the values read (log entry 3). -/
def Obligations.CommandsLeaveTheCompletionEffects : Prop :=
  ∀ (i : Instr) (s t : State), exec i s = .next t →
    t.completed ∧ s.sameEnvironment t ∧ irqOutput t = s.irqEn ∧ t.err ∈ possibleErrs i

/-- The layout of rules R114 and R330, without what each kind says: ERR after a command word has run has nothing above bit 11, and
either it is 0, or it holds a block kind
alone, a chunk kind alone (a CRC or chunk command's), or a container kind, with a chunk kind exactly beside ChunkError. -/
def Obligations.ErrHoldsOneKind : Prop :=
  ∀ (w : Word) (s t : State), runWord w s = .next t →
    t.err.toNat < 4096
    ∧ (t.err = 0#32
      ∨ (t.err.extractLsb' 8 4 ≠ 0#4 ∧ t.err.extractLsb' 4 4 = 0#4 ∧ t.err.extractLsb' 0 4 = 0#4)
      ∨ (t.err.extractLsb' 8 4 = 0#4 ∧ t.err.extractLsb' 4 4 = 0#4 ∧ t.err.extractLsb' 0 4 ≠ 0#4
        ∧ ∃ i ∈ [Instr.crcVerify, .chunkCrcGen, .chunkDecode, .chunkEncode], decode w = .ok i)
      ∨ (t.err.extractLsb' 8 4 = 0#4 ∧ t.err.extractLsb' 4 4 ≠ 0#4
        ∧ (t.err.extractLsb' 0 4 ≠ 0#4 ↔ t.err.extractLsb' 4 4 = 5#4)))

/-- Rule R240, the commands that write no byte: after one of them every byte of the buffer reads as before. -/
def Obligations.ReadingCommandsKeepEveryByte : Prop :=
  ∀ (i : Instr) (s t : State), i ≠ .chunkEncode → i ≠ .sigEmit → i ≠ .pngParse → exec i s = .next t → SameBytes s.buf t.buf

/-- Rule R240, the commands that write: CHUNK_ENCODE changes no byte outside [DST_ADDR, +12 + CHUNK_LEN), SIG_EMIT none outside
[DST_ADDR, +8), PNG_PARSE none outside [DST_ADDR, +16 * CHUNK_COUNT), which lies in [DST_ADDR, +DST_LEN) when it got past its
block checks. -/
def Obligations.StoringCommandsKeepEveryOtherByte : Prop :=
  (∀ s t : State, exec .chunkEncode s = .next t →
      SameBytesOutside s.buf t.buf s.dstAddr.toNat (12 + s.chunkLen.toNat))
    ∧ (∀ s t : State, exec .sigEmit s = .next t → SameBytesOutside s.buf t.buf s.dstAddr.toNat 8)
    ∧ (∀ s t : State, exec .pngParse s = .next t →
      SameBytesOutside s.buf t.buf s.dstAddr.toNat (16 * t.chunkCount.toNat)
        ∧ SameBytesOutside s.buf t.buf s.dstAddr.toNat s.dstLen.toNat)

/-- Rules R133, R240 and R600: no command is refused; one stops only at an unwritten byte of its own operand region; and where that
region is written, or does not fit, it completes. -/
def Obligations.CommandsStopOnlyAtUnwrittenOperandBytes : Prop :=
  ∀ (i : Instr) (s : State),
    (∀ q : Refusal, exec i s ≠ .refused q)
    ∧ (∀ f : Fault, exec i s = .fault f → ∃ k : Nat, k < (readRegion i s).2 ∧ f = .unwrittenByte ((readRegion i s).1 + k)
      ∧ readByte s.buf ((readRegion i s).1 + k) = none ∧ (readRegion i s).1 + k < s.cfg.bufSize)
    ∧ ((∀ k : Nat, k < (readRegion i s).2 → (readRegion i s).1 + k < s.cfg.bufSize →
        (readByte s.buf ((readRegion i s).1 + k)).isSome = true) → ∃ t : State, exec i s = .next t)

/-- Rule R240: what a command does depends on no buffer byte outside its operand region: two machines that differ only there
complete with the same registers, write the same bytes into the same region, and leave every byte outside it. -/
def Obligations.CommandsReadOnlyTheirOperandBytes : Prop :=
  ∀ (i : Instr) (s t : State) (m : Memory),
    (∀ k : Nat, k < (readRegion i s).2 → readByte m ((readRegion i s).1 + k) = readByte s.buf ((readRegion i s).1 + k)) →
    exec i s = .next t → ∃ t' : State, exec i { s with buf := m } = .next t' ∧ { t' with buf := t.buf } = t
      ∧ (∀ k : Nat, k < (writtenRegion i s t).2 →
        readByte t'.buf ((writtenRegion i s t).1 + k) = readByte t.buf ((writtenRegion i s t).1 + k))
      ∧ SameBytesOutside s.buf t.buf (writtenRegion i s t).1 (writtenRegion i s t).2
      ∧ SameBytesOutside m t'.buf (writtenRegion i s t).1 (writtenRegion i s t).2

/-- Rules R20, R125, R126, R127 and R324 (log entry 9): with BUF_SIZE in the range of rule R10, no address, length, offset or count
that CHUNK_DECODE, CHUNK_ENCODE or PNG_PARSE writes wraps. Of PNG_PARSE: the chunks it passed are the ones its stream holds,
CHUNK_COUNT is their exact number, FAULT_OFFSET of a failure the exact number of bytes before it, and each descriptor's
REC_OFFSET and LENGTH are the exact offset and data length of its record. -/
def Obligations.LengthsNeverWrap : Prop :=
  (∀ s t : State, s.cfg.wf = true → exec .chunkDecode s = .next t → t.err = 0#32 →
      t.dataAddr.toNat = s.srcAddr.toNat + 8 ∧ t.consumed.toNat = 12 + t.chunkLen.toNat ∧ t.consumed.toNat ≤ s.srcLen.toNat)
    ∧ (∀ s t : State, s.cfg.wf = true → exec .chunkEncode s = .next t → t.err = 0#32 →
      t.consumed.toNat = 12 + s.chunkLen.toNat ∧ t.consumed.toNat ≤ s.dstLen.toNat)
    ∧ ∀ s t : State, s.ParseOperands → exec .pngParse s = .next t →
      (t.err = 0x010#32 → t.chunkCount.toNat = 0 ∧ t.faultOffset.toNat = 0)
      ∧ (t.err ≠ 0x010#32 → ∃ cs : List Chunk, (∀ c ∈ cs, c.Valid) ∧ Holds s.buf s.srcAddr.toNat (streamBytes cs)
        ∧ (streamBytes cs).length ≤ s.srcLen.toNat ∧ 16 * cs.length ≤ s.dstLen.toNat ∧ t.chunkCount.toNat = cs.length
        ∧ (t.err = 0#32 → t.consumed.toNat = (streamBytes cs).length)
        ∧ (t.err ≠ 0#32 → t.faultOffset.toNat = (streamBytes cs).length)
        ∧ ∀ (k : Nat) (c : Chunk), cs[k]? = some c → ∃ off len : Word,
          Holds t.buf (s.dstAddr.toNat + 16 * k) (toBe32 off ++ toBe32 len)
            ∧ off.toNat = (streamBytes (cs.take k)).length ∧ len.toNat = c.data.length)

/-! The host's ports. -/

/-- Rules R101, R102, R129 and R204: an aligned word read returns the register at that offset, 0 at a reserved one, and changes
nothing. -/
def Obligations.RegisterReadsFollowTheMap : Prop :=
  ∀ (s : State) (rest : List Turn) (off : Nat), s.agenda = .host (.regRead off 4) :: rest → off % 4 = 0 → off < 0x100 →
    ∃ v : Word, step s = .next { s with agenda := rest, reads := .word v :: s.reads }
      ∧ (off = 0x00 → v = 0x504E4731#32) ∧ (off = 0x04 → v = ctrlWord s) ∧ (off = 0x08 → v = statusWord s)
      ∧ (off = 0x0C → v = 0#32) ∧ (off = 0x10 → v = s.err) ∧ (off = 0x14 → v = s.srcAddr) ∧ (off = 0x18 → v = s.srcLen)
      ∧ (off = 0x1C → v = s.dstAddr) ∧ (off = 0x20 → v = s.dstLen) ∧ (off = 0x24 → v = s.dataAddr)
      ∧ (off = 0x28 → v = s.chunkLen) ∧ (off = 0x2C → v = s.chunkType) ∧ (off = 0x30 → v = s.chunkCrc)
      ∧ (off = 0x34 → v = s.crcState) ∧ (off = 0x38 → v = s.crcState ^^^ 0xFFFFFFFF#32) ∧ (off = 0x3C → v = s.calcCrc)
      ∧ (off = 0x40 → v = s.typeflags) ∧ (off = 0x44 → v = s.consumed) ∧ (off = 0x48 → v = s.chunkCount)
      ∧ (off = 0x4C → v = s.faultOffset) ∧ (off = 0x50 → v = BitVec.ofNat 32 s.cfg.bufSize) ∧ (0x54 ≤ off → v = 0#32)

/-- Rule R102: while BUSY = 0 a host write to an RW register stores the value in its defined fields and changes nothing
else. -/
def Obligations.WritableRegistersStoreTheValue : Prop :=
  ∀ (s : State) (rest : List Turn) (off : Nat) (v : Word), s.busy = false → s.agenda = .host (.regWrite off 4 v) :: rest →
    (off = 0x04 → step s = .next { s with agenda := rest, irqEn := v.getLsbD 0, structEn := v.getLsbD 1 })
    ∧ (off = 0x14 → step s = .next { s with agenda := rest, srcAddr := v })
    ∧ (off = 0x18 → step s = .next { s with agenda := rest, srcLen := v })
    ∧ (off = 0x1C → step s = .next { s with agenda := rest, dstAddr := v })
    ∧ (off = 0x20 → step s = .next { s with agenda := rest, dstLen := v })
    ∧ (off = 0x24 → step s = .next { s with agenda := rest, dataAddr := v })
    ∧ (off = 0x28 → step s = .next { s with agenda := rest, chunkLen := v })
    ∧ (off = 0x2C → step s = .next { s with agenda := rest, chunkType := v })
    ∧ (off = 0x30 → step s = .next { s with agenda := rest, chunkCrc := v })
    ∧ (off = 0x34 → step s = .next { s with agenda := rest, crcState := v })

/-- Rules R102 and R129: while BUSY = 0 a host write to an RO register or to a reserved offset changes nothing. -/
def Obligations.ReadOnlyAndReservedOffsetsIgnoreWrites : Prop :=
  ∀ (s : State) (rest : List Turn) (off : Nat) (v : Word), s.busy = false → s.agenda = .host (.regWrite off 4 v) :: rest →
    off % 4 = 0 → off < 0x100 →
    (off = 0x00 ∨ off = 0x10 ∨ off = 0x38 ∨ off = 0x3C ∨ off = 0x40 ∨ off = 0x44 ∨ off = 0x48 ∨ off = 0x4C ∨ 0x50 ≤ off) →
    step s = .next { s with agenda := rest }

/-- Rule R113: a CMD write while BUSY = 0 latches the word, whatever it is, clears ERR and DONE and sets BUSY; while BUSY = 1 it
is ignored and sets OVERRUN; a read returns 0. -/
def Obligations.CmdWriteStartsACommand : Prop :=
  (∀ s : State, readOffset s 0x0C = 0#32)
    ∧ ∀ (s : State) (rest : List Turn) (w : Word), s.agenda = .host (.regWrite 0x0C 4 w) :: rest →
      (s.busy = false →
        step s = .next { s with agenda := rest, curCmd := some w, err := 0#32, done := false, busy := true })
      ∧ (s.busy = true → step s = .next { s with agenda := rest, overrun := true })

/-- Rules R203 and R710: while BUSY = 1 a register write to any offset but STATUS is discarded, a buffer write is discarded, a
buffer read returns 0x00 (shown in the model's own list, log entry 3), and each sets OVERRUN, which stays set until a host write
of 1 or reset. -/
def Obligations.BusyFilterDiscardsHostAccesses : Prop :=
  (∀ s t : State, step s = .next t → s.overrun = true → t.overrun = false →
    (∃ v : Word, v.getLsbD 3 = true ∧ s.hostWrites 0x08 v) ∨ s.resets)
  ∧ ∀ (s : State) (rest : List Turn), s.busy = true →
    (∀ (off : Nat) (v : Word), s.agenda = .host (.regWrite off 4 v) :: rest → off % 4 = 0 → off < 0x100 → off ≠ 0x08 →
      step s = .next { s with agenda := rest, overrun := true })
    ∧ (∀ (a : Nat) (b : Byte), s.agenda = .host (.bufWrite a 1 b) :: rest → a < s.cfg.bufSize →
      step s = .next { s with agenda := rest, overrun := true })
    ∧ ∀ a : Nat, s.agenda = .host (.bufRead a 1) :: rest → a < s.cfg.bufSize →
      step s = .next { s with agenda := rest, overrun := true, reads := .byte 0x00#8 :: s.reads }

/-- Rule R112: a write to STATUS, BUSY or not, clears DONE where bit 1 is 1 and OVERRUN where bit 3 is 1, and changes nothing
else. -/
def Obligations.StatusWriteClearsOnlyWhatItNames : Prop :=
  ∀ (s : State) (rest : List Turn) (v : Word), s.agenda = .host (.regWrite 0x08 4 v) :: rest →
    ∃ t : State, step s = .next t ∧ t = { s with agenda := rest, done := t.done, overrun := t.overrun }
      ∧ t.done = (if v.getLsbD 1 = true then false else s.done)
      ∧ t.overrun = (if v.getLsbD 3 = true then false else s.overrun)

/-- Rules R111, R112 and R620: the bits of the CTRL and STATUS words, the computed ERROR and IRQ and the reserved bits among
them. -/
def Obligations.ControlAndStatusWordsShowTheirFields : Prop :=
  ∀ s : State,
    (statusWord s).getLsbD 0 = s.busy ∧ (statusWord s).getLsbD 1 = s.done
      ∧ ((statusWord s).getLsbD 2 = true ↔ s.err ≠ 0#32) ∧ (statusWord s).getLsbD 3 = s.overrun
      ∧ (statusWord s).getLsbD 4 = (s.done && s.irqEn) ∧ irqOutput s = (statusWord s).getLsbD 4
      ∧ (∀ k : Nat, 5 ≤ k → (statusWord s).getLsbD k = false)
      ∧ (ctrlWord s).getLsbD 0 = s.irqEn ∧ (ctrlWord s).getLsbD 1 = s.structEn
      ∧ ∀ k : Nat, 2 ≤ k → (ctrlWord s).getLsbD k = false

/-- Rules R133 and R202: while BUSY = 0 a byte write below BUF_SIZE stores the byte and leaves every other byte, and a byte read
returns the byte stored and changes nothing, or stops the model where the byte is unwritten. -/
def Obligations.IdleBufferPortReadsAndWritesBytes : Prop :=
  ∀ (s : State) (rest : List Turn) (a : Nat), s.busy = false → a < s.cfg.bufSize →
    (∀ b : Byte, s.agenda = .host (.bufWrite a 1 b) :: rest →
      ∃ m : Memory, step s = .next { s with agenda := rest, buf := m } ∧ readByte m a = some b
        ∧ ∀ x : Nat, x ≠ a → readByte m x = readByte s.buf x)
    ∧ (s.agenda = .host (.bufRead a 1) :: rest →
      (∀ b : Byte, readByte s.buf a = some b →
        step s = .next { s with agenda := rest, reads := .byte b :: s.reads })
      ∧ (readByte s.buf a = none → step s = .fault (.unwrittenByte a)))

/-- Rules R200, R202 and R204 (entries U2, U3, U4): the accesses the PCB does not define are refused, BUSY or not (log entry 13),
an aligned word access outside the register window among them (log entry 11). -/
def Obligations.UndefinedHostAccessesAreRefused : Prop :=
  ∀ (s : State) (rest : List Turn),
    (∀ off w : Nat, s.agenda = .host (.regRead off w) :: rest → w ≠ 4 ∨ off % 4 ≠ 0 →
      step s = .refused .nonWordRegisterAccess)
    ∧ (∀ (off w : Nat) (v : Word), s.agenda = .host (.regWrite off w v) :: rest → w ≠ 4 ∨ off % 4 ≠ 0 →
      step s = .refused .nonWordRegisterAccess)
    ∧ (∀ off : Nat, s.agenda = .host (.regRead off 4) :: rest → off % 4 = 0 → 0x100 ≤ off →
      step s = .refused .registerOffsetOutsideWindow)
    ∧ (∀ (off : Nat) (v : Word), s.agenda = .host (.regWrite off 4 v) :: rest → off % 4 = 0 → 0x100 ≤ off →
      step s = .refused .registerOffsetOutsideWindow)
    ∧ (∀ a w : Nat, s.agenda = .host (.bufRead a w) :: rest → w ≠ 1 → step s = .refused .wideBufferAccess)
    ∧ (∀ (a w : Nat) (b : Byte), s.agenda = .host (.bufWrite a w b) :: rest → w ≠ 1 → step s = .refused .wideBufferAccess)
    ∧ (∀ a : Nat, s.agenda = .host (.bufRead a 1) :: rest → s.cfg.bufSize ≤ a →
      step s = .refused .bufferAddressOutsideBuffer)
    ∧ ∀ (a : Nat) (b : Byte), s.agenda = .host (.bufWrite a 1 b) :: rest → s.cfg.bufSize ≤ a →
      step s = .refused .bufferAddressOutsideBuffer

/-- Rule R610, its last sentence, and rule R711: while a command is in flight no host access changes a register or a buffer byte,
except that OVERRUN may rise or be cleared; reset alone does more. -/
def Obligations.NothingChangesWhileACommandIsInFlight : Prop :=
  ∀ (s t : State) (rest : List Turn) (a : HostAccess), s.busy = true → s.done = false → s.agenda = .host a :: rest →
    a ≠ .reset → a ≠ .powerOn → step s = .next t →
    t = { s with overrun := t.overrun, agenda := rest, reads := t.reads } ∧ SameBytes s.buf t.buf
      ∧ ∀ r : Reg, r ≠ .status → regValue t r = regValue s r

/-- Rules R341 and R720, under the fairness the agenda carries (log entries 1 and 7): a WAIT after a CMD write ends, after its
polls, with the command completed, where the buffer is written. -/
def Obligations.WaitEndsWithTheCommandCompleted : Prop :=
  ∀ (s : State) (k : Nat) (rest : List Turn), s.busy = true → s.curCmd.isSome = true → s.agenda = .wait k :: rest →
    Written s.buf 0 s.cfg.bufSize →
    ∃ t : State, Host.Core.run Sys2Proof.core (k + 3) s = .next t ∧ t.completed ∧ t.agenda = rest
      ∧ t.reads.length = s.reads.length + (k + 2)

/-- Rule R200: register offset x stands at host address BASE_ADDR + x and block address x at BUF_BASE + x, where the platform
keeps the two windows apart (log entry 12). That a bus write at the buffer stores the low eight bits of its value is the model's
choice (log entry 21, DESIGN CHOICE): rule R211 leaves byte lanes to the platform. -/
def Obligations.BusAddressesReachTheTwoWindows : Prop :=
  ∀ (s : State) (rest : List Turn) (x w : Nat) (v : Word),
    (s.cfg.baseAddr + 0x100 ≤ s.cfg.bufBase ∨ s.cfg.bufBase + s.cfg.bufSize ≤ s.cfg.baseAddr) →
    (s.agenda = .bus (.read (s.cfg.baseAddr + x) w) :: rest → x < 0x100 →
      step s = step { s with agenda := .host (.regRead x w) :: rest })
    ∧ (s.agenda = .bus (.write (s.cfg.baseAddr + x) w v) :: rest → x < 0x100 →
      step s = step { s with agenda := .host (.regWrite x w v) :: rest })
    ∧ (s.agenda = .bus (.read (s.cfg.bufBase + x) w) :: rest → x < s.cfg.bufSize →
      step s = step { s with agenda := .host (.bufRead x w) :: rest })
    ∧ (s.agenda = .bus (.write (s.cfg.bufBase + x) w v) :: rest → x < s.cfg.bufSize →
      step s = step { s with agenda := .host (.bufWrite x w (v.setWidth 8)) :: rest })
end

