-- ==== Sys2Proof/Laws/Bytes.lean ====
section
/-! SUPPORT. The byte-order helpers, the region checks and the error codes, each stated once. -/

namespace Sys2Proof.Machine

@[simp] theorem length_toBe32 (x : Word) : (toBe32 x).length = 4 := rfl

@[simp] theorem length_pngSig : pngSig.length = 8 := rfl

@[simp] theorem length_recordBytes (t : Word) (d : List Byte) (crc : Word) :
    (recordBytes t d crc).length = 12 + d.length := by
  simp [recordBytes]; omega

@[simp] theorem length_descriptorBytes (off len : Nat) (t crc : Word) :
    (descriptorBytes off len t crc).length = 16 := by simp [descriptorBytes]

/-- `be32` of four bytes, as rule R21 writes it. -/
theorem toNat_be32_four (a b c d : Byte) :
    (be32 [a, b, c, d]).toNat = a.toNat * 2 ^ 24 + b.toNat * 2 ^ 16 + c.toNat * 2 ^ 8 + d.toNat := by
  have ha := a.isLt
  have hb := b.isLt
  have hc := c.isLt
  have hd := d.isLt
  simp only [be32, List.foldl, BitVec.toNat_add, BitVec.toNat_mul, BitVec.toNat_setWidth, BitVec.toNat_ofNat]
  omega

/-- `be32` undoes `BE32` (rule R21). -/
@[simp] theorem be32_toBe32 (x : Word) : be32 (toBe32 x) = x := by
  apply BitVec.eq_of_toNat_eq
  have hx := x.isLt
  rw [toBe32, toNat_be32_four]
  simp only [BitVec.extractLsb'_toNat, Nat.shiftRight_eq_div_pow]
  omega

/-- `BE32` undoes `be32` on four bytes (rule R21). -/
theorem toBe32_be32 (bs : List Byte) (h : bs.length = 4) : toBe32 (be32 bs) = bs := by
  match bs, h with
  | [a, b, c, d], _ =>
    have ha := a.isLt
    have hb := b.isLt
    have hc := c.isLt
    have hd := d.isLt
    simp only [toBe32, List.cons.injEq, and_true]
    refine ⟨?_, ?_, ?_, ?_⟩ <;> apply BitVec.eq_of_toNat_eq <;>
      rw [BitVec.extractLsb'_toNat, toNat_be32_four, Nat.shiftRight_eq_div_pow] <;> omega

theorem fits_iff (size a n : Nat) : fits size a n = true ↔ a + n ≤ size := by simp [fits]

theorem not_fits_iff (size a n : Nat) : fits size a n = false ↔ size < a + n := by simp [fits]

theorem overlap_iff (a n b m : Nat) :
    overlap a n b m = true ↔ 0 < n ∧ 0 < m ∧ a < b + m ∧ b < a + n := by
  simp [overlap, and_assoc]

theorem srcFits_iff (s : State) : s.srcFits = true ↔ s.srcBase + s.srcSize ≤ s.cfg.bufSize := fits_iff _ _ _

theorem dstFits_iff (s : State) : s.dstFits = true ↔ s.dstBase + s.dstSize ≤ s.cfg.bufSize := fits_iff _ _ _

theorem dataFits_iff (s : State) : s.dataFits = true ↔ s.dataBase + s.dataSize ≤ s.cfg.bufSize := fits_iff _ _ _

theorem cfg_wf_iff (c : Config) : c.wf = true ↔ 16 ≤ c.bufSize ∧ c.bufSize ≤ 2 ^ 31 := by simp [Config.wf]

/-- Every raised error's code is one of the codes of rule R601. -/
theorem errCode_legal (e : Raised) : errCode e ∈ legalErrs := by
  cases e with
  | block k => cases k <;> decide
  | chunk k => cases k <;> decide
  | cont k =>
    cases k with
    | badHeader => decide
    | missingRequiredChunks => decide
    | chunkError k => cases k <;> decide

/-- A raised error is never 0 (rule R330). -/
theorem errCode_ne_zero (e : Raised) : errCode e ≠ 0#32 := by
  cases e with
  | block k => cases k <;> decide
  | chunk k => cases k <;> decide
  | cont k =>
    cases k with
    | badHeader => decide
    | missingRequiredChunks => decide
    | chunkError k => cases k <;> decide

theorem getLsbD_flagBit (b : Bool) (i j : Nat) (hi : i < 32) : (flagBit b i).getLsbD j = (b && j == i) := by
  unfold flagBit
  cases b with
  | false => simp
  | true =>
    rw [if_pos rfl, Bool.true_and, BitVec.getLsbD_shiftLeft, BitVec.getLsbD_one, Bool.eq_iff_iff]
    simp only [Bool.and_eq_true, decide_eq_true_eq, Bool.not_eq_true', decide_eq_false_iff_not, beq_iff_eq]
    omega

/-- The reserved bits of TYPEFLAGS are 0 (rule R124). -/
theorem typeFlagsOf_reserved (t : Word) : typeFlagsOf t >>> 7 = 0#32 := by
  unfold typeFlagsOf
  generalize letters t = p0
  generalize (!t.getLsbD 29) = p1
  generalize (!t.getLsbD 21) = p2
  generalize (!t.getLsbD 13) = p3
  generalize t.getLsbD 5 = p4
  generalize (t == iendType) = p5
  generalize (t == hdrType) = p6
  revert p0 p1 p2 p3 p4 p5 p6
  decide

end Sys2Proof.Machine
end

