-- ==== Sys2Proof/Laws/Memory.lean ====
section
/-! SUPPORT. What the memory operations do: reads after writes, the canonical form, and what a byte-sequence read or write says
about each byte. -/

namespace Sys2Proof.Machine

@[simp] theorem readByte_nil (a : Nat) : readByte [] a = none := rfl

/-- A byte reads back as it was written. -/
@[simp] theorem readByte_writeByte_same (m : Memory) (a : Nat) (b : Byte) :
    readByte (writeByte m a b) a = some b := by
  induction m with
  | nil => simp [writeByte, readByte]
  | cons cell rest ih =>
    obtain ⟨k, v⟩ := cell
    simp only [writeByte]
    split
    · simp [readByte]
    · split
      · simp [readByte]
      · rename_i h1 h2
        have : k ≠ a := fun h => h2 h.symm
        simp [readByte, this, ih]

/-- A write leaves every other address as it was. -/
theorem readByte_writeByte_other (m : Memory) (a x : Nat) (b : Byte) (h : x ≠ a) :
    readByte (writeByte m a b) x = readByte m x := by
  induction m with
  | nil => simp [writeByte, readByte, Ne.symm h]
  | cons cell rest ih =>
    obtain ⟨k, v⟩ := cell
    simp only [writeByte]
    split
    · simp [readByte, Ne.symm h]
    · split
      · rename_i h2
        subst h2
        simp [readByte, Ne.symm h]
      · simp only [readByte, ih]

theorem readByte_writeByte (m : Memory) (a x : Nat) (b : Byte) :
    readByte (writeByte m a b) x = if x = a then some b else readByte m x := by
  split
  · rename_i h
    rw [h, readByte_writeByte_same]
  · exact readByte_writeByte_other m a x b ‹_›

/-- The head of a canonical memory lies below every other address. -/
theorem wf_cons_iff (x : Host.Cell) (m : Memory) :
    Memory.wf (x :: m) = true ↔ (∀ y ∈ m.head?, x.1 < y.1) ∧ Memory.wf m = true := by
  cases m with
  | nil => simp [Memory.wf]
  | cons y rest => simp [Memory.wf]

theorem head_writeByte (m : Memory) (a : Nat) (b : Byte) :
    ∀ y ∈ (writeByte m a b).head?, y.1 = a ∨ ∃ z ∈ m.head?, y.1 = z.1 := by
  cases m with
  | nil => simp [writeByte]
  | cons cell rest =>
    obtain ⟨k, v⟩ := cell
    simp only [writeByte]
    split
    · simp
    · split <;> simp

/-- A write keeps the canonical form. -/
theorem writeByte_wf (m : Memory) (a : Nat) (b : Byte) (h : m.wf = true) : (writeByte m a b).wf = true := by
  induction m with
  | nil => rfl
  | cons cell rest ih =>
    obtain ⟨k, v⟩ := cell
    have hk := (wf_cons_iff (k, v) rest).1 h
    simp only [writeByte]
    split
    · rename_i hlt
      exact (wf_cons_iff _ _).2 ⟨by simpa using hlt, h⟩
    · split
      · rename_i heq
        subst heq
        exact (wf_cons_iff _ _).2 hk
      · rename_i h1 h2
        refine (wf_cons_iff _ _).2 ⟨fun y hy => ?_, ih hk.2⟩
        rcases head_writeByte rest a b y hy with he | ⟨z, hz, he⟩
        · simp only [he]; omega
        · rw [he]; exact hk.1 z hz

/-- Writing a byte sequence keeps the canonical form. -/
theorem writeBytes_wf (bs : List Byte) : ∀ (m : Memory) (a : Nat), m.wf = true → (writeBytes m a bs).wf = true := by
  induction bs with
  | nil => intro m a h; exact h
  | cons b bs ih => intro m a h; exact ih _ _ (writeByte_wf m a b h)

theorem addressesBelow_iff (m : Memory) (size : Nat) :
    addressesBelow m size = true ↔ ∀ cell ∈ m, cell.1 < size := by
  simp [addressesBelow]

theorem mem_writeByte (m : Memory) (a : Nat) (b : Byte) :
    ∀ c ∈ writeByte m a b, c.1 = a ∨ c ∈ m := by
  induction m with
  | nil => intro c hc; left; simpa [writeByte] using congrArg Prod.fst (List.mem_singleton.1 hc)
  | cons cell rest ih =>
    obtain ⟨k, v⟩ := cell
    intro c
    simp only [writeByte]
    split
    · intro hc
      rcases List.mem_cons.1 hc with h | h
      · exact .inl (by rw [h])
      · exact .inr h
    · split
      · intro hc
        rcases List.mem_cons.1 hc with h | h
        · exact .inl (by rw [h])
        · exact .inr (List.mem_cons_of_mem _ h)
      · intro hc
        rcases List.mem_cons.1 hc with h | h
        · exact .inr (by rw [h]; exact List.mem_cons_self)
        · rcases ih c h with h' | h'
          · exact .inl h'
          · exact .inr (List.mem_cons_of_mem _ h')

/-- A write below the buffer's size keeps every listed address below it. -/
theorem writeByte_below (m : Memory) (a size : Nat) (b : Byte) (h : addressesBelow m size = true) (ha : a < size) :
    addressesBelow (writeByte m a b) size = true := by
  rw [addressesBelow_iff] at *
  intro c hc
  rcases mem_writeByte m a b c hc with h' | h'
  · omega
  · exact h c h'

theorem writeBytes_below (bs : List Byte) :
    ∀ (m : Memory) (a size : Nat), addressesBelow m size = true → a + bs.length ≤ size →
      addressesBelow (writeBytes m a bs) size = true := by
  induction bs with
  | nil => intro m a size h _; exact h
  | cons b bs ih =>
    intro m a size h hs
    simp only [List.length_cons] at hs
    exact ih _ _ _ (writeByte_below m a size b h (by omega)) (by omega)

/-- A byte-sequence write leaves every byte outside its region as it was. -/
theorem readByte_writeBytes_outside (bs : List Byte) :
    ∀ (m : Memory) (a x : Nat), x < a ∨ a + bs.length ≤ x → readByte (writeBytes m a bs) x = readByte m x := by
  induction bs with
  | nil => intro m a x _; rfl
  | cons b bs ih =>
    intro m a x h
    simp only [List.length_cons] at h
    rw [writeBytes, ih _ _ _ (by omega), readByte_writeByte_other _ _ _ _ (by omega)]

/-- After a byte-sequence write the region holds exactly those bytes. -/
theorem holds_writeBytes (bs : List Byte) : ∀ (m : Memory) (a : Nat), Holds (writeBytes m a bs) a bs := by
  induction bs with
  | nil => intro m a i hi; simp at hi
  | cons b bs ih =>
    intro m a i hi
    rw [writeBytes]
    cases i with
    | zero =>
      rw [readByte_writeBytes_outside _ _ _ _ (by omega)]
      simp
    | succ j =>
      have := ih (writeByte m a b) (a + 1) j (by simpa using hi)
      simpa [Nat.add_assoc, Nat.add_comm 1 j] using this

theorem holds_nil (m : Memory) (a : Nat) : Holds m a [] := by
  intro i hi; simp at hi

theorem holds_cons (m : Memory) (a : Nat) (b : Byte) (bs : List Byte) :
    Holds m a (b :: bs) ↔ readByte m a = some b ∧ Holds m (a + 1) bs := by
  constructor
  · intro h
    refine ⟨by simpa using h 0 (by simp), fun i hi => ?_⟩
    have := h (i + 1) (by simpa using hi)
    simpa [Nat.add_assoc, Nat.add_comm 1 i] using this
  · rintro ⟨h0, h⟩ i hi
    cases i with
    | zero => simpa using h0
    | succ j =>
      have := h j (by simpa using hi)
      simpa [Nat.add_assoc, Nat.add_comm 1 j] using this

theorem holds_append (m : Memory) (xs : List Byte) :
    ∀ (a : Nat) (ys : List Byte), Holds m a (xs ++ ys) ↔ Holds m a xs ∧ Holds m (a + xs.length) ys := by
  induction xs with
  | nil => intro a ys; simp [holds_nil]
  | cons x xs ih =>
    intro a ys
    rw [List.cons_append, holds_cons, holds_cons, ih, List.length_cons, and_assoc]
    simp [Nat.add_assoc, Nat.add_comm 1]

/-- Bytes held in a region stay held when no byte of the region changes. -/
theorem holds_congr (m m' : Memory) (a : Nat) (bs : List Byte)
    (h : ∀ i : Nat, i < bs.length → readByte m' (a + i) = readByte m (a + i)) (hh : Holds m a bs) : Holds m' a bs := by
  intro i hi
  rw [h i hi, hh i hi]

/-- `MemRead` answers exactly the bytes the region holds. -/
theorem readBytes_ok_iff (m : Memory) (n : Nat) :
    ∀ (a : Nat) (bs : List Byte), readBytes m a n = .ok bs ↔ bs.length = n ∧ Holds m a bs := by
  induction n with
  | zero =>
    intro a bs
    simp only [readBytes, Except.ok.injEq, List.length_eq_zero_iff]
    constructor
    · intro h; subst h; exact ⟨rfl, holds_nil m a⟩
    · rintro ⟨h, -⟩; exact h.symm
  | succ n ih =>
    intro a bs
    rw [readBytes]
    cases hb : readByte m a with
    | none =>
      simp only [reduceCtorEq, false_iff, not_and]
      intro hl hh
      cases bs with
      | nil => simp at hl
      | cons c cs => rw [holds_cons, hb] at hh; simp at hh
    | some b =>
      cases hr : readBytes m (a + 1) n with
      | error f =>
        simp only [reduceCtorEq, false_iff, not_and]
        intro hl hh
        cases bs with
        | nil => simp at hl
        | cons c cs =>
          rw [holds_cons] at hh
          have := (ih (a + 1) cs).2 ⟨by simpa using hl, hh.2⟩
          rw [hr] at this
          cases this
      | ok tail =>
        have ht := (ih (a + 1) tail).1 hr
        simp only [Except.ok.injEq]
        constructor
        · intro h
          subst h
          exact ⟨by simp [ht.1], (holds_cons _ _ _ _).2 ⟨hb, ht.2⟩⟩
        · rintro ⟨hl, hh⟩
          cases bs with
          | nil => simp at hl
          | cons c cs =>
            rw [holds_cons, hb] at hh
            have hc := (ih (a + 1) cs).2 ⟨by simpa using hl, hh.2⟩
            rw [hr] at hc
            simp only [Option.some.injEq] at hh
            simp only [Except.ok.injEq] at hc
            rw [hh.1, hc]

theorem readBytes_of_holds (m : Memory) (a : Nat) (bs : List Byte) (h : Holds m a bs) :
    readBytes m a bs.length = .ok bs := (readBytes_ok_iff m bs.length a bs).2 ⟨rfl, h⟩

/-- `MemRead` stops exactly at an unwritten byte of its region. -/
theorem readBytes_error (m : Memory) (n : Nat) :
    ∀ (a : Nat) (f : Fault), readBytes m a n = .error f →
      ∃ i : Nat, i < n ∧ f = .unwrittenByte (a + i) ∧ readByte m (a + i) = none := by
  induction n with
  | zero => intro a f h; simp [readBytes] at h
  | succ n ih =>
    intro a f h
    rw [readBytes] at h
    cases hb : readByte m a with
    | none =>
      rw [hb] at h
      simp only [Except.error.injEq] at h
      exact ⟨0, by omega, by rw [← h, Nat.add_zero], by simpa using hb⟩
    | some b =>
      rw [hb] at h
      cases hr : readBytes m (a + 1) n with
      | ok tail => rw [hr] at h; cases h
      | error g =>
        rw [hr] at h
        simp only [Except.error.injEq] at h
        obtain ⟨i, hi, hf, hn⟩ := ih (a + 1) g hr
        refine ⟨i + 1, by omega, ?_, ?_⟩
        · rw [← h, hf]; congr 1; omega
        · rw [← hn]; congr 1; omega

/-- A written region has its bytes. -/
theorem readBytes_of_written (m : Memory) (a n : Nat) (h : Written m a n) : ∃ bs, readBytes m a n = .ok bs := by
  cases hr : readBytes m a n with
  | ok bs => exact ⟨bs, rfl⟩
  | error f =>
    obtain ⟨i, hi, -, hn⟩ := readBytes_error m n a f hr
    have := h i hi
    rw [hn] at this
    cases this

end Sys2Proof.Machine
end

