-- ==== Sys2Proof/Laws/State.lean ====
section
/-! SUPPORT. One lemma per field per named update of State, so that no proof unfolds an update. -/

namespace Sys2Proof.Machine

/-! The completion effects (rule R610). -/

section

variable (s : State) (code : Word)

@[simp] theorem State.finish_cfg : (s.finish code).cfg = s.cfg := rfl
@[simp] theorem State.finish_irqEn : (s.finish code).irqEn = s.irqEn := rfl
@[simp] theorem State.finish_structEn : (s.finish code).structEn = s.structEn := rfl
@[simp] theorem State.finish_busy : (s.finish code).busy = false := rfl
@[simp] theorem State.finish_done : (s.finish code).done = true := rfl
@[simp] theorem State.finish_overrun : (s.finish code).overrun = s.overrun := rfl
@[simp] theorem State.finish_err : (s.finish code).err = code := rfl
@[simp] theorem State.finish_srcAddr : (s.finish code).srcAddr = s.srcAddr := rfl
@[simp] theorem State.finish_srcLen : (s.finish code).srcLen = s.srcLen := rfl
@[simp] theorem State.finish_dstAddr : (s.finish code).dstAddr = s.dstAddr := rfl
@[simp] theorem State.finish_dstLen : (s.finish code).dstLen = s.dstLen := rfl
@[simp] theorem State.finish_dataAddr : (s.finish code).dataAddr = s.dataAddr := rfl
@[simp] theorem State.finish_chunkLen : (s.finish code).chunkLen = s.chunkLen := rfl
@[simp] theorem State.finish_chunkType : (s.finish code).chunkType = s.chunkType := rfl
@[simp] theorem State.finish_chunkCrc : (s.finish code).chunkCrc = s.chunkCrc := rfl
@[simp] theorem State.finish_crcState : (s.finish code).crcState = s.crcState := rfl
@[simp] theorem State.finish_calcCrc : (s.finish code).calcCrc = s.calcCrc := rfl
@[simp] theorem State.finish_typeflags : (s.finish code).typeflags = s.typeflags := rfl
@[simp] theorem State.finish_consumed : (s.finish code).consumed = s.consumed := rfl
@[simp] theorem State.finish_chunkCount : (s.finish code).chunkCount = s.chunkCount := rfl
@[simp] theorem State.finish_faultOffset : (s.finish code).faultOffset = s.faultOffset := rfl
@[simp] theorem State.finish_curCmd : (s.finish code).curCmd = none := rfl
@[simp] theorem State.finish_buf : (s.finish code).buf = s.buf := rfl
@[simp] theorem State.finish_agenda : (s.finish code).agenda = s.agenda := rfl
@[simp] theorem State.finish_reads : (s.finish code).reads = s.reads := rfl

end

/-! A CMD write while idle (rule R113). -/

section

variable (s : State) (w : Word)

@[simp] theorem State.startCommand_cfg : (s.startCommand w).cfg = s.cfg := rfl
@[simp] theorem State.startCommand_irqEn : (s.startCommand w).irqEn = s.irqEn := rfl
@[simp] theorem State.startCommand_structEn : (s.startCommand w).structEn = s.structEn := rfl
@[simp] theorem State.startCommand_busy : (s.startCommand w).busy = true := rfl
@[simp] theorem State.startCommand_done : (s.startCommand w).done = false := rfl
@[simp] theorem State.startCommand_overrun : (s.startCommand w).overrun = s.overrun := rfl
@[simp] theorem State.startCommand_err : (s.startCommand w).err = 0#32 := rfl
@[simp] theorem State.startCommand_srcAddr : (s.startCommand w).srcAddr = s.srcAddr := rfl
@[simp] theorem State.startCommand_srcLen : (s.startCommand w).srcLen = s.srcLen := rfl
@[simp] theorem State.startCommand_dstAddr : (s.startCommand w).dstAddr = s.dstAddr := rfl
@[simp] theorem State.startCommand_dstLen : (s.startCommand w).dstLen = s.dstLen := rfl
@[simp] theorem State.startCommand_dataAddr : (s.startCommand w).dataAddr = s.dataAddr := rfl
@[simp] theorem State.startCommand_chunkLen : (s.startCommand w).chunkLen = s.chunkLen := rfl
@[simp] theorem State.startCommand_chunkType : (s.startCommand w).chunkType = s.chunkType := rfl
@[simp] theorem State.startCommand_chunkCrc : (s.startCommand w).chunkCrc = s.chunkCrc := rfl
@[simp] theorem State.startCommand_crcState : (s.startCommand w).crcState = s.crcState := rfl
@[simp] theorem State.startCommand_calcCrc : (s.startCommand w).calcCrc = s.calcCrc := rfl
@[simp] theorem State.startCommand_typeflags : (s.startCommand w).typeflags = s.typeflags := rfl
@[simp] theorem State.startCommand_consumed : (s.startCommand w).consumed = s.consumed := rfl
@[simp] theorem State.startCommand_chunkCount : (s.startCommand w).chunkCount = s.chunkCount := rfl
@[simp] theorem State.startCommand_faultOffset : (s.startCommand w).faultOffset = s.faultOffset := rfl
@[simp] theorem State.startCommand_curCmd : (s.startCommand w).curCmd = some w := rfl
@[simp] theorem State.startCommand_buf : (s.startCommand w).buf = s.buf := rfl
@[simp] theorem State.startCommand_agenda : (s.startCommand w).agenda = s.agenda := rfl
@[simp] theorem State.startCommand_reads : (s.startCommand w).reads = s.reads := rfl

end

/-! A protocol violation (rule R710). -/

section

variable (s : State)

@[simp] theorem State.noteOverrun_cfg : (s.noteOverrun).cfg = s.cfg := rfl
@[simp] theorem State.noteOverrun_irqEn : (s.noteOverrun).irqEn = s.irqEn := rfl
@[simp] theorem State.noteOverrun_structEn : (s.noteOverrun).structEn = s.structEn := rfl
@[simp] theorem State.noteOverrun_busy : (s.noteOverrun).busy = s.busy := rfl
@[simp] theorem State.noteOverrun_done : (s.noteOverrun).done = s.done := rfl
@[simp] theorem State.noteOverrun_overrun : (s.noteOverrun).overrun = true := rfl
@[simp] theorem State.noteOverrun_err : (s.noteOverrun).err = s.err := rfl
@[simp] theorem State.noteOverrun_srcAddr : (s.noteOverrun).srcAddr = s.srcAddr := rfl
@[simp] theorem State.noteOverrun_srcLen : (s.noteOverrun).srcLen = s.srcLen := rfl
@[simp] theorem State.noteOverrun_dstAddr : (s.noteOverrun).dstAddr = s.dstAddr := rfl
@[simp] theorem State.noteOverrun_dstLen : (s.noteOverrun).dstLen = s.dstLen := rfl
@[simp] theorem State.noteOverrun_dataAddr : (s.noteOverrun).dataAddr = s.dataAddr := rfl
@[simp] theorem State.noteOverrun_chunkLen : (s.noteOverrun).chunkLen = s.chunkLen := rfl
@[simp] theorem State.noteOverrun_chunkType : (s.noteOverrun).chunkType = s.chunkType := rfl
@[simp] theorem State.noteOverrun_chunkCrc : (s.noteOverrun).chunkCrc = s.chunkCrc := rfl
@[simp] theorem State.noteOverrun_crcState : (s.noteOverrun).crcState = s.crcState := rfl
@[simp] theorem State.noteOverrun_calcCrc : (s.noteOverrun).calcCrc = s.calcCrc := rfl
@[simp] theorem State.noteOverrun_typeflags : (s.noteOverrun).typeflags = s.typeflags := rfl
@[simp] theorem State.noteOverrun_consumed : (s.noteOverrun).consumed = s.consumed := rfl
@[simp] theorem State.noteOverrun_chunkCount : (s.noteOverrun).chunkCount = s.chunkCount := rfl
@[simp] theorem State.noteOverrun_faultOffset : (s.noteOverrun).faultOffset = s.faultOffset := rfl
@[simp] theorem State.noteOverrun_curCmd : (s.noteOverrun).curCmd = s.curCmd := rfl
@[simp] theorem State.noteOverrun_buf : (s.noteOverrun).buf = s.buf := rfl
@[simp] theorem State.noteOverrun_agenda : (s.noteOverrun).agenda = s.agenda := rfl
@[simp] theorem State.noteOverrun_reads : (s.noteOverrun).reads = s.reads := rfl

end

/-! A host read (rule R640). -/

section

variable (s : State) (r : Readback)

@[simp] theorem State.pushRead_cfg : (s.pushRead r).cfg = s.cfg := rfl
@[simp] theorem State.pushRead_irqEn : (s.pushRead r).irqEn = s.irqEn := rfl
@[simp] theorem State.pushRead_structEn : (s.pushRead r).structEn = s.structEn := rfl
@[simp] theorem State.pushRead_busy : (s.pushRead r).busy = s.busy := rfl
@[simp] theorem State.pushRead_done : (s.pushRead r).done = s.done := rfl
@[simp] theorem State.pushRead_overrun : (s.pushRead r).overrun = s.overrun := rfl
@[simp] theorem State.pushRead_err : (s.pushRead r).err = s.err := rfl
@[simp] theorem State.pushRead_srcAddr : (s.pushRead r).srcAddr = s.srcAddr := rfl
@[simp] theorem State.pushRead_srcLen : (s.pushRead r).srcLen = s.srcLen := rfl
@[simp] theorem State.pushRead_dstAddr : (s.pushRead r).dstAddr = s.dstAddr := rfl
@[simp] theorem State.pushRead_dstLen : (s.pushRead r).dstLen = s.dstLen := rfl
@[simp] theorem State.pushRead_dataAddr : (s.pushRead r).dataAddr = s.dataAddr := rfl
@[simp] theorem State.pushRead_chunkLen : (s.pushRead r).chunkLen = s.chunkLen := rfl
@[simp] theorem State.pushRead_chunkType : (s.pushRead r).chunkType = s.chunkType := rfl
@[simp] theorem State.pushRead_chunkCrc : (s.pushRead r).chunkCrc = s.chunkCrc := rfl
@[simp] theorem State.pushRead_crcState : (s.pushRead r).crcState = s.crcState := rfl
@[simp] theorem State.pushRead_calcCrc : (s.pushRead r).calcCrc = s.calcCrc := rfl
@[simp] theorem State.pushRead_typeflags : (s.pushRead r).typeflags = s.typeflags := rfl
@[simp] theorem State.pushRead_consumed : (s.pushRead r).consumed = s.consumed := rfl
@[simp] theorem State.pushRead_chunkCount : (s.pushRead r).chunkCount = s.chunkCount := rfl
@[simp] theorem State.pushRead_faultOffset : (s.pushRead r).faultOffset = s.faultOffset := rfl
@[simp] theorem State.pushRead_curCmd : (s.pushRead r).curCmd = s.curCmd := rfl
@[simp] theorem State.pushRead_buf : (s.pushRead r).buf = s.buf := rfl
@[simp] theorem State.pushRead_agenda : (s.pushRead r).agenda = s.agenda := rfl
@[simp] theorem State.pushRead_reads : (s.pushRead r).reads = r :: s.reads := rfl

end

/-! The W1C write of STATUS (rule R112). -/

section

variable (s : State) (v : Word)

@[simp] theorem State.writeStatus_cfg : (s.writeStatus v).cfg = s.cfg := rfl
@[simp] theorem State.writeStatus_irqEn : (s.writeStatus v).irqEn = s.irqEn := rfl
@[simp] theorem State.writeStatus_structEn : (s.writeStatus v).structEn = s.structEn := rfl
@[simp] theorem State.writeStatus_busy : (s.writeStatus v).busy = s.busy := rfl
@[simp] theorem State.writeStatus_done : (s.writeStatus v).done = (s.done && !v.getLsbD 1) := rfl
@[simp] theorem State.writeStatus_overrun : (s.writeStatus v).overrun = (s.overrun && !v.getLsbD 3) := rfl
@[simp] theorem State.writeStatus_err : (s.writeStatus v).err = s.err := rfl
@[simp] theorem State.writeStatus_srcAddr : (s.writeStatus v).srcAddr = s.srcAddr := rfl
@[simp] theorem State.writeStatus_srcLen : (s.writeStatus v).srcLen = s.srcLen := rfl
@[simp] theorem State.writeStatus_dstAddr : (s.writeStatus v).dstAddr = s.dstAddr := rfl
@[simp] theorem State.writeStatus_dstLen : (s.writeStatus v).dstLen = s.dstLen := rfl
@[simp] theorem State.writeStatus_dataAddr : (s.writeStatus v).dataAddr = s.dataAddr := rfl
@[simp] theorem State.writeStatus_chunkLen : (s.writeStatus v).chunkLen = s.chunkLen := rfl
@[simp] theorem State.writeStatus_chunkType : (s.writeStatus v).chunkType = s.chunkType := rfl
@[simp] theorem State.writeStatus_chunkCrc : (s.writeStatus v).chunkCrc = s.chunkCrc := rfl
@[simp] theorem State.writeStatus_crcState : (s.writeStatus v).crcState = s.crcState := rfl
@[simp] theorem State.writeStatus_calcCrc : (s.writeStatus v).calcCrc = s.calcCrc := rfl
@[simp] theorem State.writeStatus_typeflags : (s.writeStatus v).typeflags = s.typeflags := rfl
@[simp] theorem State.writeStatus_consumed : (s.writeStatus v).consumed = s.consumed := rfl
@[simp] theorem State.writeStatus_chunkCount : (s.writeStatus v).chunkCount = s.chunkCount := rfl
@[simp] theorem State.writeStatus_faultOffset : (s.writeStatus v).faultOffset = s.faultOffset := rfl
@[simp] theorem State.writeStatus_curCmd : (s.writeStatus v).curCmd = s.curCmd := rfl
@[simp] theorem State.writeStatus_buf : (s.writeStatus v).buf = s.buf := rfl
@[simp] theorem State.writeStatus_agenda : (s.writeStatus v).agenda = s.agenda := rfl
@[simp] theorem State.writeStatus_reads : (s.writeStatus v).reads = s.reads := rfl

end

/-! A command word latched, the engine next. -/

section

variable (s : State) (w : Word)

@[simp] theorem State.latch_cfg : (s.latch w).cfg = s.cfg := rfl
@[simp] theorem State.latch_irqEn : (s.latch w).irqEn = s.irqEn := rfl
@[simp] theorem State.latch_structEn : (s.latch w).structEn = s.structEn := rfl
@[simp] theorem State.latch_busy : (s.latch w).busy = true := rfl
@[simp] theorem State.latch_done : (s.latch w).done = false := rfl
@[simp] theorem State.latch_overrun : (s.latch w).overrun = s.overrun := rfl
@[simp] theorem State.latch_err : (s.latch w).err = 0#32 := rfl
@[simp] theorem State.latch_srcAddr : (s.latch w).srcAddr = s.srcAddr := rfl
@[simp] theorem State.latch_srcLen : (s.latch w).srcLen = s.srcLen := rfl
@[simp] theorem State.latch_dstAddr : (s.latch w).dstAddr = s.dstAddr := rfl
@[simp] theorem State.latch_dstLen : (s.latch w).dstLen = s.dstLen := rfl
@[simp] theorem State.latch_dataAddr : (s.latch w).dataAddr = s.dataAddr := rfl
@[simp] theorem State.latch_chunkLen : (s.latch w).chunkLen = s.chunkLen := rfl
@[simp] theorem State.latch_chunkType : (s.latch w).chunkType = s.chunkType := rfl
@[simp] theorem State.latch_chunkCrc : (s.latch w).chunkCrc = s.chunkCrc := rfl
@[simp] theorem State.latch_crcState : (s.latch w).crcState = s.crcState := rfl
@[simp] theorem State.latch_calcCrc : (s.latch w).calcCrc = s.calcCrc := rfl
@[simp] theorem State.latch_typeflags : (s.latch w).typeflags = s.typeflags := rfl
@[simp] theorem State.latch_consumed : (s.latch w).consumed = s.consumed := rfl
@[simp] theorem State.latch_chunkCount : (s.latch w).chunkCount = s.chunkCount := rfl
@[simp] theorem State.latch_faultOffset : (s.latch w).faultOffset = s.faultOffset := rfl
@[simp] theorem State.latch_curCmd : (s.latch w).curCmd = some w := rfl
@[simp] theorem State.latch_buf : (s.latch w).buf = s.buf := rfl
@[simp] theorem State.latch_agenda : (s.latch w).agenda = .engine :: s.agenda := rfl
@[simp] theorem State.latch_reads : (s.latch w).reads = s.reads := rfl

end

/-! Reset with power held: the buffer, the parameters and the host's own fields stay (rule R700). -/

section

variable (s : State)

@[simp] theorem State.resetHeld_cfg : s.resetHeld.cfg = s.cfg := rfl
@[simp] theorem State.resetHeld_irqEn : s.resetHeld.irqEn = (State.resetWith s.cfg).irqEn := rfl
@[simp] theorem State.resetHeld_structEn : s.resetHeld.structEn = (State.resetWith s.cfg).structEn := rfl
@[simp] theorem State.resetHeld_busy : s.resetHeld.busy = (State.resetWith s.cfg).busy := rfl
@[simp] theorem State.resetHeld_done : s.resetHeld.done = (State.resetWith s.cfg).done := rfl
@[simp] theorem State.resetHeld_overrun : s.resetHeld.overrun = (State.resetWith s.cfg).overrun := rfl
@[simp] theorem State.resetHeld_err : s.resetHeld.err = (State.resetWith s.cfg).err := rfl
@[simp] theorem State.resetHeld_srcAddr : s.resetHeld.srcAddr = (State.resetWith s.cfg).srcAddr := rfl
@[simp] theorem State.resetHeld_srcLen : s.resetHeld.srcLen = (State.resetWith s.cfg).srcLen := rfl
@[simp] theorem State.resetHeld_dstAddr : s.resetHeld.dstAddr = (State.resetWith s.cfg).dstAddr := rfl
@[simp] theorem State.resetHeld_dstLen : s.resetHeld.dstLen = (State.resetWith s.cfg).dstLen := rfl
@[simp] theorem State.resetHeld_dataAddr : s.resetHeld.dataAddr = (State.resetWith s.cfg).dataAddr := rfl
@[simp] theorem State.resetHeld_chunkLen : s.resetHeld.chunkLen = (State.resetWith s.cfg).chunkLen := rfl
@[simp] theorem State.resetHeld_chunkType : s.resetHeld.chunkType = (State.resetWith s.cfg).chunkType := rfl
@[simp] theorem State.resetHeld_chunkCrc : s.resetHeld.chunkCrc = (State.resetWith s.cfg).chunkCrc := rfl
@[simp] theorem State.resetHeld_crcState : s.resetHeld.crcState = (State.resetWith s.cfg).crcState := rfl
@[simp] theorem State.resetHeld_calcCrc : s.resetHeld.calcCrc = (State.resetWith s.cfg).calcCrc := rfl
@[simp] theorem State.resetHeld_typeflags : s.resetHeld.typeflags = (State.resetWith s.cfg).typeflags := rfl
@[simp] theorem State.resetHeld_consumed : s.resetHeld.consumed = (State.resetWith s.cfg).consumed := rfl
@[simp] theorem State.resetHeld_chunkCount : s.resetHeld.chunkCount = (State.resetWith s.cfg).chunkCount := rfl
@[simp] theorem State.resetHeld_faultOffset : s.resetHeld.faultOffset = (State.resetWith s.cfg).faultOffset := rfl
@[simp] theorem State.resetHeld_curCmd : s.resetHeld.curCmd = (State.resetWith s.cfg).curCmd := rfl
@[simp] theorem State.resetHeld_buf : s.resetHeld.buf = s.buf := rfl
@[simp] theorem State.resetHeld_agenda : s.resetHeld.agenda = s.agenda := rfl
@[simp] theorem State.resetHeld_reads : s.resetHeld.reads = s.reads := rfl

end

end Sys2Proof.Machine
end

