-- ==== Sys2Proof/Laws/Ops.lean ====
section
/-! SUPPORT. What each shared operation can do: completing, raising, going on with a memory read, and decoding a record. -/

namespace Sys2Proof.Machine

@[simp] theorem complete_eq (s : State) : s.complete = .next (s.finish 0#32) := rfl

@[simp] theorem raise_eq (s : State) (e : Raised) : s.raise e = .next (s.finish (errCode e)) := rfl

@[simp] theorem resume_ok {α : Type} (v : α) (k : α → Result) : resume (.ok v) k = k v := rfl

@[simp] theorem resume_error {α : Type} (f : Fault) (k : α → Result) : resume (.error f) k = .fault f := rfl

/-- Going on after a memory computation answers a next state only where the computation answers. -/
theorem resume_next {α : Type} (r : Except Fault α) (k : α → Result) (t : State) :
    resume r k = .next t ↔ ∃ v, r = .ok v ∧ k v = .next t := by
  cases r with
  | ok v => simp
  | error f => simp

/-- Going on after a memory computation faults where the computation does, or later. -/
theorem resume_fault {α : Type} (r : Except Fault α) (k : α → Result) (f : Fault) :
    resume r k = .fault f ↔ r = .error f ∨ ∃ v, r = .ok v ∧ k v = .fault f := by
  cases r with
  | ok v => simp
  | error g => simp

theorem resume_refused {α : Type} (r : Except Fault α) (k : α → Result) (q : Refusal) :
    resume r k = .refused q ↔ ∃ v, r = .ok v ∧ k v = .refused q := by
  cases r with
  | ok v => simp
  | error g => simp

/-! Decoding a record (rule R470). -/

theorem decodeChunk_short (m : Memory) (a n : Nat) (h : n < 12) :
    decodeChunk m a n = .ok (.failed .tooShort none) := if_pos h

theorem decodeChunk_long (m : Memory) (a n : Nat) (len : Word) (h : 12 ≤ n) (hl : Holds m a (toBe32 len))
    (hb : n - 12 < len.toNat) : decodeChunk m a n = .ok (.failed .tooLong none) := by
  have hr : readBytes m a 4 = .ok (toBe32 len) := readBytes_of_holds m a _ hl
  have : ¬ n < 12 := by omega
  simp [decodeChunk, this, hr, bind, Except.bind, hb]

/-- A record that fits is checked on its own fields. -/
theorem decodeChunk_record (m : Memory) (a n : Nat) (t stored : Word) (d : List Byte) (h32 : d.length < 2 ^ 32)
    (hn : 12 + d.length ≤ n) (hh : Holds m a (recordBytes t d stored)) :
    decodeChunk m a n = .ok (checkRecord d.length t d stored) := by
  unfold recordBytes at hh
  rw [holds_append, holds_append, holds_append] at hh
  obtain ⟨⟨⟨hl, ht⟩, hd⟩, hs⟩ := hh
  simp only [List.length_append, length_toBe32] at ht hd hs
  have rl : readBytes m a 4 = .ok _ := readBytes_of_holds m a _ hl
  have rt : readBytes m (a + 4) 4 = .ok _ := readBytes_of_holds m _ _ ht
  have rd : readBytes m (a + 8) d.length = .ok _ := readBytes_of_holds m _ _ (by simpa using hd)
  have rs : readBytes m (a + 8 + d.length) 4 = .ok _ :=
    readBytes_of_holds m _ (toBe32 stored) (by simpa [Nat.add_assoc] using hs)
  have h1 : ¬ n < 12 := by omega
  have hlen : d.length % 4294967296 = d.length := Nat.mod_eq_of_lt (by simpa using h32)
  have h2 : ¬ n - 12 < d.length := by omega
  simp [decodeChunk, h1, rl, bind, Except.bind, hlen, h2, decodeBody, rt, rd, rs, pure, Except.pure]

/-- What an accepted record says: its length field fits, its letters are letters, and its CRC field is the CRC computed. -/
theorem checkRecord_accepted (len l : Nat) (t t' stored st crc : Word) (d : List Byte)
    (h : checkRecord len t d stored = .accepted l t' st crc) :
    l = len ∧ t' = t ∧ st = stored ∧ crc = stored ∧ chunkCrcOf t d = stored ∧ letters t = true := by
  unfold checkRecord at h
  split at h
  · split at h
    · rename_i h1 h2
      simp only [Decoded.accepted.injEq] at h
      obtain ⟨a, b, c, e⟩ := h
      exact ⟨a.symm, b.symm, c.symm, by rw [← e, h1], h1, h2⟩
    · cases h
  · cases h

/-- Everything an accepting `decode_chunk` says about the bytes it read (rule R470). -/
theorem decodeChunk_accepted (m : Memory) (a n len : Nat) (t stored crc : Word)
    (h : decodeChunk m a n = .ok (.accepted len t stored crc)) :
    ∃ d : List Byte, d.length = len ∧ 12 + len ≤ n ∧ len < 2 ^ 32 ∧ Holds m a (recordBytes t d stored)
      ∧ chunkCrcOf t d = stored ∧ crc = stored ∧ letters t = true := by
  unfold decodeChunk at h
  split at h
  · cases h
  · rename_i hn
    cases hl : readBytes m a 4 with
    | error f => simp [hl, bind, Except.bind] at h
    | ok lb =>
      simp only [hl, bind, Except.bind] at h
      split at h
      · cases h
      · rename_i hb
        unfold decodeBody at h
        simp only [bind, Except.bind, pure, Except.pure] at h
        cases ht : readBytes m (a + 4) 4 with
        | error f => simp [ht] at h
        | ok tb =>
          cases hd : readBytes m (a + 8) (be32 lb).toNat with
          | error f => simp [ht, hd] at h
          | ok db =>
            cases hs : readBytes m (a + 8 + (be32 lb).toNat) 4 with
            | error f => simp [ht, hd, hs] at h
            | ok sb =>
              simp only [ht, hd, hs, Except.ok.injEq] at h
              obtain ⟨h1, h2, h3, h4, h5, h6⟩ := checkRecord_accepted _ _ _ _ _ _ _ _ h
              obtain ⟨ll, hhl⟩ := (readBytes_ok_iff _ _ _ _).1 hl
              obtain ⟨lt, hht⟩ := (readBytes_ok_iff _ _ _ _).1 ht
              obtain ⟨ld, hhd⟩ := (readBytes_ok_iff _ _ _ _).1 hd
              obtain ⟨ls, hhs⟩ := (readBytes_ok_iff _ _ _ _).1 hs
              subst h2 h3
              refine ⟨db, by omega, by omega, ?_, ?_, h5, h4, h6⟩
              · rw [h1]; exact (be32 lb).isLt
              · unfold recordBytes
                have e1 : toBe32 (BitVec.ofNat 32 db.length) = lb := by
                  rw [ld, BitVec.ofNat_toNat, BitVec.setWidth_eq, toBe32_be32 _ ll]
                rw [e1, toBe32_be32 _ lt, toBe32_be32 _ ls, holds_append, holds_append, holds_append]
                simp only [List.length_append, ll, lt, ld]
                exact ⟨⟨⟨hhl, hht⟩, hhd⟩, by simpa [Nat.add_assoc] using hhs⟩

/-- `decode_chunk` stops only at an unwritten byte of its region (rule R470, "Bytes read"). -/
theorem decodeChunk_error (m : Memory) (a n : Nat) (f : Fault) (h : decodeChunk m a n = .error f) :
    ∃ i : Nat, i < n ∧ f = .unwrittenByte (a + i) ∧ readByte m (a + i) = none := by
  unfold decodeChunk at h
  split at h
  · cases h
  · rename_i hn
    cases hl : readBytes m a 4 with
    | error g =>
      simp only [hl, bind, Except.bind, Except.error.injEq] at h
      obtain ⟨i, hi, hf, hb⟩ := readBytes_error _ _ _ _ hl
      exact ⟨i, by omega, by rw [← h, hf], hb⟩
    | ok lb =>
      simp only [hl, bind, Except.bind] at h
      split at h
      · cases h
      · rename_i hb
        unfold decodeBody at h
        simp only [bind, Except.bind, pure, Except.pure] at h
        cases ht : readBytes m (a + 4) 4 with
        | error g =>
          simp only [ht, Except.error.injEq] at h
          obtain ⟨i, hi, hf, hr⟩ := readBytes_error _ _ _ _ ht
          exact ⟨4 + i, by omega, by rw [← h, hf, Nat.add_assoc], by rw [← Nat.add_assoc]; exact hr⟩
        | ok tb =>
          cases hd : readBytes m (a + 8) (be32 lb).toNat with
          | error g =>
            simp only [ht, hd, Except.error.injEq] at h
            obtain ⟨i, hi, hf, hr⟩ := readBytes_error _ _ _ _ hd
            exact ⟨8 + i, by omega, by rw [← h, hf, Nat.add_assoc], by rw [← Nat.add_assoc]; exact hr⟩
          | ok db =>
            cases hs : readBytes m (a + 8 + (be32 lb).toNat) 4 with
            | error g =>
              simp only [ht, hd, hs, Except.error.injEq] at h
              obtain ⟨i, hi, hf, hr⟩ := readBytes_error _ _ _ _ hs
              exact ⟨8 + (be32 lb).toNat + i, by omega, by rw [← h, hf]; congr 1; omega, by rw [← hr]; congr 1; omega⟩
            | ok sb => simp [ht, hd, hs] at h

theorem signatureMatches_short (m : Memory) (a n : Nat) (h : n < 8) : signatureMatches m a n = .ok false := if_pos h

/-- With its eight bytes written, the signature check compares them. -/
theorem signatureMatches_holds (m : Memory) (a n : Nat) (bs : List Byte) (h : 8 ≤ n) (hb : bs.length = 8) (hh : Holds m a bs) :
    signatureMatches m a n = .ok (bs == pngSig) := by
  have hr : readBytes m a 8 = .ok bs := (readBytes_ok_iff _ _ _ _).2 ⟨hb, hh⟩
  have : ¬ n < 8 := by omega
  simp [signatureMatches, this, hr, bind, Except.bind, pure, Except.pure]

theorem signatureMatches_error (m : Memory) (a n : Nat) (f : Fault) (h : signatureMatches m a n = .error f) :
    ∃ i : Nat, i < n ∧ f = .unwrittenByte (a + i) ∧ readByte m (a + i) = none := by
  unfold signatureMatches at h
  split at h
  · cases h
  · cases hr : readBytes m a 8 with
    | ok bs => simp [hr, bind, Except.bind, pure, Except.pure] at h
    | error g =>
      simp only [hr, bind, Except.bind, Except.error.injEq] at h
      obtain ⟨i, hi, hf, hn⟩ := readBytes_error _ _ _ _ hr
      exact ⟨i, by omega, by rw [← h, hf], hn⟩

/-- A signature that matches is there. -/
theorem signatureMatches_true (m : Memory) (a n : Nat) (h : signatureMatches m a n = .ok true) :
    8 ≤ n ∧ Holds m a pngSig := by
  unfold signatureMatches at h
  split at h
  · simp at h
  · rename_i hn
    cases hr : readBytes m a 8 with
    | error g => simp [hr, bind, Except.bind] at h
    | ok bs =>
      simp only [hr, bind, Except.bind, pure, Except.pure, Except.ok.injEq, beq_iff_eq] at h
      subst h
      exact ⟨by omega, ((readBytes_ok_iff _ _ _ _).1 hr).2⟩

end Sys2Proof.Machine
end

