-- ==== Sys2Proof/Laws/Walk.lean ====
section
/-! SUPPORT. The loop of PNG_PARSE: its induction principle, where it ends, and what it does over one accepted record. -/

namespace Sys2Proof.Machine

/-- The walk that a loop end carries. -/
def WalkEnd.walk : WalkEnd → Walk
  | .finished w => w
  | .stopped _ w => w

@[simp] theorem WalkEnd.walk_finished (w : Walk) : (WalkEnd.finished w).walk = w := rfl
@[simp] theorem WalkEnd.walk_stopped (e : Raised) (w : Walk) : (WalkEnd.stopped e w).walk = w := rfl
@[simp] theorem Walk.advance_off (w : Walk) (dst len : Nat) (t st : Word) : (w.advance dst len t st).off = w.off + 12 + len := rfl
@[simp] theorem Walk.advance_count (w : Walk) (dst len : Nat) (t st : Word) : (w.advance dst len t st).count = w.count + 1 := rfl
@[simp] theorem Walk.advance_last (w : Walk) (dst len : Nat) (t st : Word) : (w.advance dst len t st).last = some t := rfl
@[simp] theorem Walk.advance_buf (w : Walk) (dst len : Nat) (t st : Word) :
    (w.advance dst len t st).buf = writeBytes w.buf (dst + 16 * w.count) (descriptorBytes w.off len t st) := rfl
@[simp] theorem Walk.advance_first (w : Walk) (dst len : Nat) (t st : Word) :
    (w.advance dst len t st).first = if w.count = 0 then some t else w.first := rfl

variable (src size dst cap : Nat)

/-- An invariant of one accepted record is an invariant of the whole walk. -/
theorem walkStream_induct (P : Walk → Prop)
    (hstep : ∀ (w : Walk) (len : Nat) (t st crc : Word), P w → w.off < size →
      decodeChunk w.buf (src + w.off) (size - w.off) = .ok (.accepted len t st crc) → 16 * (w.count + 1) ≤ cap →
      P (w.advance dst len t st)) :
    ∀ (fuel : Nat) (w : Walk) (r : WalkEnd), walkStream src size dst cap fuel w = .ok r → P w → P r.walk := by
  intro fuel
  induction fuel with
  | zero =>
    intro w r h hw
    simp only [walkStream, Except.ok.injEq] at h
    subst h
    exact hw
  | succ fuel ih =>
    intro w r h hw
    rw [walkStream] at h
    split at h
    · rename_i hlt
      split at h
      · cases h
      · simp only [Except.ok.injEq] at h
        subst h
        exact hw
      · rename_i len t st crc hd
        split at h
        · simp only [Except.ok.injEq] at h
          subst h
          exact hw
        · exact ih _ _ h (hstep w len t st crc hw hlt hd (by omega))
    · simp only [Except.ok.injEq] at h
      subst h
      exact hw

/-- Enough iterations: a finished walk stands at or beyond the end of the stream (rule R523). -/
theorem walkStream_finished : ∀ (fuel : Nat) (w w' : Walk),
    walkStream src size dst cap fuel w = .ok (.finished w') → size ≤ w.off + fuel → size ≤ w'.off := by
  intro fuel
  induction fuel with
  | zero =>
    intro w w' h hf
    simp only [walkStream, Except.ok.injEq, WalkEnd.finished.injEq] at h
    subst h
    omega
  | succ fuel ih =>
    intro w w' h hf
    rw [walkStream] at h
    split at h
    · split at h
      · cases h
      · simp at h
      · split at h
        · simp at h
        · refine ih _ _ h ?_
          rw [Walk.advance_off]
          omega
    · simp only [Except.ok.injEq, WalkEnd.finished.injEq] at h
      subst h
      omega

/-- Why a walk stops: a record that fails, or a full table (rule R520). -/
theorem walkStream_stopped : ∀ (fuel : Nat) (w w' : Walk) (e : Raised),
    walkStream src size dst cap fuel w = .ok (.stopped e w') →
      (∃ k, e = .cont (.chunkError k)) ∨ e = .block .dstTooSmall := by
  intro fuel
  induction fuel with
  | zero => intro w w' e h; simp [walkStream] at h
  | succ fuel ih =>
    intro w w' e h
    rw [walkStream] at h
    split at h
    · split at h
      · cases h
      · rename_i k _ _
        simp only [Except.ok.injEq, WalkEnd.stopped.injEq] at h
        exact .inl ⟨k, h.1.symm⟩
      · split at h
        · simp only [Except.ok.injEq, WalkEnd.stopped.injEq] at h
          exact .inr h.1.symm
        · exact ih _ _ _ h
    · simp at h

/-- A walk inside the stream stays inside it (rule R523). -/
theorem walkStream_off_le (fuel : Nat) (w : Walk) (r : WalkEnd) (h : walkStream src size dst cap fuel w = .ok r)
    (hw : w.off ≤ size) : r.walk.off ≤ size := by
  refine walkStream_induct src size dst cap (fun w => w.off ≤ size) ?_ fuel w r h hw
  intro w len t st crc _ hlt hd _
  obtain ⟨d, hd1, hd2, -⟩ := decodeChunk_accepted _ _ _ _ _ _ _ hd
  simp only [Walk.advance_off]
  omega

/-- The number of chunks described is bounded by the table and grows by one a record. -/
theorem walkStream_count_le (fuel : Nat) (w : Walk) (r : WalkEnd) (h : walkStream src size dst cap fuel w = .ok r)
    (hw : 16 * w.count ≤ cap) : 16 * r.walk.count ≤ cap := by
  refine walkStream_induct src size dst cap (fun w => 16 * w.count ≤ cap) ?_ fuel w r h hw
  intro w len t st crc _ _ _ hc
  simpa using hc

/-- Only descriptor bytes change: from a walk that has changed nothing outside its first descriptors. -/
theorem walkStream_outside (m : Memory) (fuel : Nat) (w : Walk) (r : WalkEnd)
    (h : walkStream src size dst cap fuel w = .ok r)
    (hw : SameBytesOutside m w.buf dst (16 * w.count)) : SameBytesOutside m r.walk.buf dst (16 * r.walk.count) := by
  refine walkStream_induct src size dst cap (fun w => SameBytesOutside m w.buf dst (16 * w.count)) ?_ fuel w r h hw
  intro w len t st crc hw _ _ _ a ha
  simp only [Walk.advance_count] at ha
  rw [Walk.advance_buf, readByte_writeBytes_outside _ _ _ _ (by rw [length_descriptorBytes]; omega)]
  exact hw a (by omega)

/-- The walk keeps the canonical form. -/
theorem walkStream_wf (fuel : Nat) (w : Walk) (r : WalkEnd) (h : walkStream src size dst cap fuel w = .ok r)
    (hw : w.buf.wf = true) : r.walk.buf.wf = true := by
  refine walkStream_induct src size dst cap (fun w => w.buf.wf = true) ?_ fuel w r h hw
  intro w len t st crc hw _ _ _
  exact writeBytes_wf _ _ _ hw

/-- The walk writes below the end of the table. -/
theorem walkStream_below (limit fuel : Nat) (w : Walk) (r : WalkEnd) (h : walkStream src size dst cap fuel w = .ok r)
    (hl : dst + cap ≤ limit) (hw : addressesBelow w.buf limit = true) : addressesBelow r.walk.buf limit = true := by
  refine walkStream_induct src size dst cap (fun w => addressesBelow w.buf limit = true) ?_ fuel w r h hw
  intro w len t st crc hw _ _ hc
  exact writeBytes_below _ _ _ _ hw (by rw [length_descriptorBytes]; omega)

/-- A walk stops with a fault only at an unwritten byte of the stream it has not passed yet. Every invariant of the walk
holds where it stops. -/
theorem walkStream_error (P : Walk → Prop)
    (hstep : ∀ (w : Walk) (len : Nat) (t st crc : Word), P w → w.off < size →
      decodeChunk w.buf (src + w.off) (size - w.off) = .ok (.accepted len t st crc) → 16 * (w.count + 1) ≤ cap →
      P (w.advance dst len t st)) :
    ∀ (fuel : Nat) (w : Walk) (f : Fault), walkStream src size dst cap fuel w = .error f → P w →
      ∃ (w' : Walk) (i : Nat), P w' ∧ w'.off ≤ i ∧ i < size ∧ f = .unwrittenByte (src + i)
        ∧ readByte w'.buf (src + i) = none := by
  intro fuel
  induction fuel with
  | zero => intro w f h; simp [walkStream] at h
  | succ fuel ih =>
    intro w f h hw
    rw [walkStream] at h
    split at h
    · rename_i hlt
      split at h
      · rename_i g hg
        simp only [Except.error.injEq] at h
        obtain ⟨i, hi, hf, hn⟩ := decodeChunk_error _ _ _ _ hg
        exact ⟨w, w.off + i, hw, by omega, by omega, by rw [← h, hf, Nat.add_assoc], by rw [← Nat.add_assoc]; exact hn⟩
      · simp at h
      · rename_i len t st crc hd
        split at h
        · simp at h
        · exact ih _ _ h (hstep w len t st crc hw hlt hd (by omega))
    · simp at h

/-- One accepted record of a walk. -/
theorem walkStream_record (fuel : Nat) (w : Walk) (len : Nat) (t st crc : Word) (hlt : w.off < size)
    (hd : decodeChunk w.buf (src + w.off) (size - w.off) = .ok (.accepted len t st crc)) (hc : 16 * (w.count + 1) ≤ cap) :
    walkStream src size dst cap (fuel + 1) w = walkStream src size dst cap fuel (w.advance dst len t st) := by
  rw [walkStream, if_pos hlt, hd]
  simp only
  rw [if_neg (by omega)]

/-- A record that fails ends the walk. -/
theorem walkStream_failed (fuel : Nat) (w : Walk) (k : ChunkKind) (crc : Option Word) (hlt : w.off < size)
    (hd : decodeChunk w.buf (src + w.off) (size - w.off) = .ok (.failed k crc)) :
    walkStream src size dst cap (fuel + 1) w = .ok (.stopped (.cont (.chunkError k)) w) := by
  rw [walkStream, if_pos hlt, hd]

/-- A full table ends the walk after the record decodes. -/
theorem walkStream_full (fuel : Nat) (w : Walk) (len : Nat) (t st crc : Word) (hlt : w.off < size)
    (hd : decodeChunk w.buf (src + w.off) (size - w.off) = .ok (.accepted len t st crc)) (hc : cap < 16 * (w.count + 1)) :
    walkStream src size dst cap (fuel + 1) w = .ok (.stopped (.block .dstTooSmall) w) := by
  rw [walkStream, if_pos hlt, hd]
  simp only
  rw [if_pos hc]

/-- At the end of the stream the walk is finished. -/
theorem walkStream_end (fuel : Nat) (w : Walk) (h : size ≤ w.off) :
    walkStream src size dst cap fuel w = .ok (.finished w) := by
  cases fuel with
  | zero => rfl
  | succ fuel => rw [walkStream, if_neg (by omega)]

end Sys2Proof.Machine
end

