-- ==== Sys2Proof/Laws/Commands.lean ====
section
/-! SUPPORT. What each command can do: if it answers a next state, one of these cases holds. -/

namespace Sys2Proof.Machine

variable {s t : State}

theorem execCrcInit_next (h : execCrcInit s = .next t) :
    t = { s with crcState := crcInitValue }.finish 0#32 := by
  simpa [execCrcInit] using h.symm

theorem execCrcUpdate_next (h : execCrcUpdate s = .next t) :
    (s.srcFits = false ∧ t = s.finish (errCode (.block .rangeFault))) ∨
      (s.srcFits = true ∧ ∃ bs, readBytes s.buf s.srcBase s.srcSize = .ok bs
        ∧ t = { s with crcState := crcUpdate s.crcState bs, consumed := s.srcLen }.finish 0#32) := by
  unfold execCrcUpdate at h
  split at h
  · rename_i hf
    obtain ⟨bs, hb, hk⟩ := (resume_next _ _ _).1 h
    exact .inr ⟨hf, bs, hb, by simpa using hk.symm⟩
  · rename_i hf
    exact .inl ⟨by simpa using hf, by simpa using h.symm⟩

theorem execCrcCompute_next (h : execCrcCompute s = .next t) :
    (s.srcFits = false ∧ t = s.finish (errCode (.block .rangeFault))) ∨
      (s.srcFits = true ∧ ∃ bs, readBytes s.buf s.srcBase s.srcSize = .ok bs
        ∧ t = { s with crcState := crcUpdate crcInitValue bs, consumed := s.srcLen }.finish 0#32) := by
  unfold execCrcCompute at h
  split at h
  · rename_i hf
    obtain ⟨bs, hb, hk⟩ := (resume_next _ _ _).1 h
    exact .inr ⟨hf, bs, hb, by simpa using hk.symm⟩
  · rename_i hf
    exact .inl ⟨by simpa using hf, by simpa using h.symm⟩

theorem execCrcVerify_next (h : execCrcVerify s = .next t) :
    (s.srcFits = false ∧ t = s.finish (errCode (.block .rangeFault))) ∨
      (s.srcFits = true ∧ ∃ bs, readBytes s.buf s.srcBase s.srcSize = .ok bs
        ∧ ((crc32 bs = s.chunkCrc ∧ t = { s with calcCrc := crc32 bs, consumed := s.srcLen }.finish 0#32)
          ∨ (crc32 bs ≠ s.chunkCrc ∧ t = { s with calcCrc := crc32 bs }.finish (errCode (.chunk .badCrc))))) := by
  unfold execCrcVerify at h
  split at h
  · rename_i hf
    obtain ⟨bs, hb, hk⟩ := (resume_next _ _ _).1 h
    refine .inr ⟨hf, bs, hb, ?_⟩
    split at hk
    · rename_i he
      exact .inl ⟨he, by simpa using hk.symm⟩
    · rename_i he
      exact .inr ⟨he, by simpa using hk.symm⟩
  · rename_i hf
    exact .inl ⟨by simpa using hf, by simpa using h.symm⟩

theorem execTypeCheck_next (h : execTypeCheck s = .next t) :
    t = { s with typeflags := typeFlagsOf s.chunkType }.finish 0#32 := by
  simpa [execTypeCheck] using h.symm

theorem execChunkCrcGen_next (h : execChunkCrcGen s = .next t) :
    (s.dataFits = false ∧ t = s.finish (errCode (.block .rangeFault))) ∨
      (s.dataFits = true ∧ letters s.chunkType = false ∧ t = s.finish (errCode (.chunk .generic))) ∨
      (s.dataFits = true ∧ letters s.chunkType = true ∧ ∃ d, readBytes s.buf s.dataBase s.dataSize = .ok d
        ∧ t = { s with
            chunkCrc := chunkCrcOf s.chunkType d
            calcCrc := chunkCrcOf s.chunkType d }.finish 0#32) := by
  unfold execChunkCrcGen at h
  split at h
  · rename_i hf
    split at h
    · rename_i hl
      obtain ⟨d, hb, hk⟩ := (resume_next _ _ _).1 h
      exact .inr (.inr ⟨hf, hl, d, hb, by simpa using hk.symm⟩)
    · rename_i hl
      exact .inr (.inl ⟨hf, by simpa using hl, by simpa using h.symm⟩)
  · rename_i hf
    exact .inl ⟨by simpa using hf, by simpa using h.symm⟩

theorem execChunkDecode_next (h : execChunkDecode s = .next t) :
    (s.srcFits = false ∧ t = s.finish (errCode (.block .rangeFault))) ∨
      (s.srcFits = true ∧ ∃ r, decodeChunk s.buf s.srcBase s.srcSize = .ok r
        ∧ ((∃ len ty st crc, r = .accepted len ty st crc ∧ t = (s.storeDecoded len ty st crc).finish 0#32)
          ∨ (∃ k, r = .failed k none ∧ t = s.finish (errCode (.chunk k)))
          ∨ (∃ k crc, r = .failed k (some crc) ∧ t = { s with calcCrc := crc }.finish (errCode (.chunk k))))) := by
  unfold execChunkDecode at h
  split at h
  · rename_i hf
    obtain ⟨r, hb, hk⟩ := (resume_next _ _ _).1 h
    refine .inr ⟨hf, r, hb, ?_⟩
    split at hk
    · rename_i len ty st crc
      exact .inl ⟨len, ty, st, crc, rfl, by simpa using hk.symm⟩
    · rename_i k
      exact .inr (.inl ⟨k, rfl, by simpa using hk.symm⟩)
    · rename_i k crc
      exact .inr (.inr ⟨k, crc, rfl, by simpa using hk.symm⟩)
  · rename_i hf
    exact .inl ⟨by simpa using hf, by simpa using h.symm⟩

/-- The checks of CHUNK_ENCODE, in their order (rule R480). -/
def State.encodeCheck (s : State) : Option Raised :=
  if !s.dataFits then some (.block .rangeFault)
  else if !s.dstFits then some (.block .rangeFault)
  else if s.dstSize < s.recordSize then some (.block .dstTooSmall)
  else if s.encodeOverlaps then some (.block .overlap)
  else if !letters s.chunkType then some (.chunk .generic)
  else none

theorem execChunkEncode_eq (s : State) : execChunkEncode s =
    match s.encodeCheck with
    | some e => s.raise e
    | none => resume (readBytes s.buf s.dataBase s.dataSize) fun d => State.complete (s.storeEncoded d) := by
  unfold execChunkEncode State.encodeCheck
  repeat (split; · rfl)
  rfl

theorem encodeCheck_none (h : s.encodeCheck = none) :
    s.dataFits = true ∧ s.dstFits = true ∧ s.recordSize ≤ s.dstSize ∧ s.encodeOverlaps = false
      ∧ letters s.chunkType = true := by
  unfold State.encodeCheck at h
  repeat (split at h; · cases h)
  simp_all

theorem execChunkEncode_next (h : execChunkEncode s = .next t) :
    (∃ e, s.encodeCheck = some e ∧ t = s.finish (errCode e)) ∨
      (s.encodeCheck = none ∧ ∃ d, readBytes s.buf s.dataBase s.dataSize = .ok d ∧ t = (s.storeEncoded d).finish 0#32) := by
  rw [execChunkEncode_eq] at h
  cases hc : s.encodeCheck with
  | some e =>
    rw [hc] at h
    exact .inl ⟨e, rfl, by simpa using h.symm⟩
  | none =>
    rw [hc] at h
    obtain ⟨d, hd, hk⟩ := (resume_next _ _ _).1 h
    exact .inr ⟨rfl, d, hd, by simpa using hk.symm⟩

theorem execSigCheck_next (h : execSigCheck s = .next t) :
    (s.srcFits = false ∧ t = s.finish (errCode (.block .rangeFault))) ∨
      (s.srcFits = true ∧ ∃ ok, signatureMatches s.buf s.srcBase s.srcSize = .ok ok
        ∧ ((ok = true ∧ t = { s with consumed := 8#32 }.finish 0#32)
          ∨ (ok = false ∧ t = s.finish (errCode (.cont .badHeader))))) := by
  unfold execSigCheck at h
  split at h
  · rename_i hf
    obtain ⟨ok, hb, hk⟩ := (resume_next _ _ _).1 h
    refine .inr ⟨hf, ok, hb, ?_⟩
    split at hk
    · rename_i he
      exact .inl ⟨he, by simpa using hk.symm⟩
    · rename_i he
      exact .inr ⟨by simpa using he, by simpa using hk.symm⟩
  · rename_i hf
    exact .inl ⟨by simpa using hf, by simpa using h.symm⟩

theorem execSigEmit_next (h : execSigEmit s = .next t) :
    (s.dstFits = false ∧ t = s.finish (errCode (.block .rangeFault))) ∨
      (s.dstFits = true ∧ s.dstSize < 8 ∧ t = s.finish (errCode (.block .dstTooSmall))) ∨
      (s.dstFits = true ∧ 8 ≤ s.dstSize
        ∧ t = { s with buf := writeBytes s.buf s.dstBase pngSig, consumed := 8#32 }.finish 0#32) := by
  unfold execSigEmit at h
  split at h
  · rename_i hf
    split at h
    · rename_i hl
      exact .inr (.inl ⟨hf, hl, by simpa using h.symm⟩)
    · rename_i hl
      exact .inr (.inr ⟨hf, by omega, by simpa using h.symm⟩)
  · rename_i hf
    exact .inl ⟨by simpa using hf, by simpa using h.symm⟩

/-- The block-level checks of PNG_PARSE, in their order (rule R520). -/
def State.parseCheck (s : State) : Option Raised :=
  if !s.srcFits then some (.block .rangeFault)
  else if !s.dstFits then some (.block .rangeFault)
  else if overlap s.srcBase s.srcSize s.dstBase s.dstSize then some (.block .overlap)
  else none

theorem parseCheck_none (h : s.parseCheck = none) :
    s.srcFits = true ∧ s.dstFits = true ∧ overlap s.srcBase s.srcSize s.dstBase s.dstSize = false := by
  unfold State.parseCheck at h
  repeat (split at h; · cases h)
  simp_all

theorem execPngParse_eq (s : State) : execPngParse s =
    match s.parseCheck with
    | some e => s.raise e
    | none => resume (signatureMatches s.buf s.srcBase s.srcSize) fun ok =>
        if ok then
          resume s.walk fun r =>
            match r with
            | .finished w => s.endParse w
            | .stopped e w => s.failParse e w.count w.off w.buf
        else s.failParse (.cont .badHeader) 0 0 s.buf := by
  unfold execPngParse State.parseCheck
  repeat (split; · rfl)
  rfl

/-- The state a PNG_PARSE that fails after its block checks leaves (rule R522). -/
def State.parseFailed (s : State) (e : Raised) (count offset : Nat) (m : Memory) : State :=
  { s with
    chunkCount := BitVec.ofNat 32 count
    faultOffset := BitVec.ofNat 32 offset
    buf := m }.finish (errCode e)

/-- The state a PNG_PARSE that succeeds leaves (rule R520). -/
def State.parseSucceeded (s : State) (w : Walk) : State :=
  { s with
    chunkCount := BitVec.ofNat 32 w.count
    consumed := s.srcLen
    buf := w.buf }.finish 0#32

@[simp] theorem failParse_eq (s : State) (e : Raised) (count offset : Nat) (m : Memory) :
    s.failParse e count offset m = .next (s.parseFailed e count offset m) := rfl

theorem endParse_eq (s : State) (w : Walk) : s.endParse w =
    if s.structEn && !requiredOk w then
      .next (s.parseFailed (.cont .missingRequiredChunks) w.count s.srcSize w.buf)
    else .next (s.parseSucceeded w) := rfl

theorem execPngParse_next (h : execPngParse s = .next t) :
    (∃ e, s.parseCheck = some e ∧ t = s.finish (errCode e)) ∨
      (s.parseCheck = none ∧
        ((signatureMatches s.buf s.srcBase s.srcSize = .ok false ∧ t = s.parseFailed (.cont .badHeader) 0 0 s.buf)
          ∨ (signatureMatches s.buf s.srcBase s.srcSize = .ok true ∧
            ((∃ e w, s.walk = .ok (.stopped e w) ∧ t = s.parseFailed e w.count w.off w.buf)
              ∨ (∃ w, s.walk = .ok (.finished w) ∧
                ((s.structEn = true ∧ requiredOk w = false
                    ∧ t = s.parseFailed (.cont .missingRequiredChunks) w.count s.srcSize w.buf)
                  ∨ ((s.structEn = false ∨ requiredOk w = true) ∧ t = s.parseSucceeded w))))))) := by
  rw [execPngParse_eq] at h
  cases hc : s.parseCheck with
  | some e =>
    rw [hc] at h
    exact .inl ⟨e, rfl, by simpa using h.symm⟩
  | none =>
    rw [hc] at h
    obtain ⟨ok, hb, hk⟩ := (resume_next _ _ _).1 h
    refine .inr ⟨rfl, ?_⟩
    cases ok with
    | false => exact .inl ⟨hb, by simpa using hk.symm⟩
    | true =>
      refine .inr ⟨hb, ?_⟩
      simp only [if_true] at hk
      obtain ⟨r, hw, hk⟩ := (resume_next _ _ _).1 hk
      cases r with
      | stopped e w => exact .inl ⟨e, w, hw, by simpa using hk.symm⟩
      | finished w =>
        refine .inr ⟨w, hw, ?_⟩
        simp only [endParse_eq] at hk
        split at hk
        · rename_i hs
          simp only [Bool.and_eq_true, Bool.not_eq_true'] at hs
          exact .inl ⟨hs.1, hs.2, by simpa using hk.symm⟩
        · rename_i hs
          refine .inr ⟨?_, by simpa using hk.symm⟩
          cases h1 : s.structEn <;> cases h2 : requiredOk w <;> simp_all

end Sys2Proof.Machine
end

