-- ==== Sys2Proof/Laws/Congruence.lean ====
section
/-! SUPPORT. What a command computes depends on the bytes it reads and no others (rule R240). -/

namespace Sys2Proof.Machine

theorem readBytes_congr (m m' : Memory) (a n) (h : ∀ k, k < n →
    readByte m' (a+k) = readByte m (a+k)) (bs) (hr : readBytes m a n = .ok bs) : readBytes m' a n = .ok bs := by
  rw [readBytes_ok_iff] at *
  exact ⟨hr.1, holds_congr _ _ _ _ (by rw [hr.1]; exact h) hr.2⟩

/-- `decode_chunk` over two memories that agree on its input. -/
theorem decodeChunk_congr (m m' a n r) (h : ∀ k, k < n →
    readByte m' (a+k) = readByte m (a+k)) (hr : decodeChunk m a n = .ok r) : decodeChunk m' a n = .ok r := by
  unfold decodeChunk at *
  split
  · rename_i hn; rwa [if_pos hn] at hr
  · rename_i hn; rw [if_neg hn] at hr
    cases hl : readBytes m a 4 with
    | error f => simp [hl, bind, Except.bind] at hr
    | ok lb =>
      rw [readBytes_congr m m' a 4 (fun k hk => h k (by omega)) _ hl]
      simp only [hl, bind, Except.bind] at hr ⊢
      split
      · rename_i hb; rwa [if_pos hb] at hr
      · rename_i hb; rw [if_neg hb] at hr
        unfold decodeBody at *
        simp only [bind, Except.bind, pure, Except.pure] at *
        cases ht : readBytes m (a + 4) 4 with
        | error f => simp [ht] at hr
        | ok tb =>
          rw [readBytes_congr m m' _ 4 (fun k hk => by rw [Nat.add_assoc]; exact h _ (by omega)) _ ht]
          cases hd : readBytes m (a + 8) (be32 lb).toNat with
          | error f => simp [ht, hd] at hr
          | ok db =>
            rw [readBytes_congr m m' _ _ (fun k hk => by rw [Nat.add_assoc]; exact h _ (by omega)) _ hd]
            cases hs : readBytes m (a + 8 + (be32 lb).toNat) 4 with
            | error f => simp [ht, hd, hs] at hr
            | ok sb =>
              rw [readBytes_congr m m' _ _ (fun k hk => by rw [Nat.add_assoc, Nat.add_assoc]; exact h _ (by omega)) _ hs]
              simpa [ht, hd, hs] using hr

theorem signatureMatches_congr (m m' a n r) (h : ∀ k, k < n →
    readByte m' (a+k) = readByte m (a+k)) (hr : signatureMatches m a n = .ok r) : signatureMatches m' a n = .ok r := by
  unfold signatureMatches at *
  split
  · rename_i hn; rwa [if_pos hn] at hr
  · rename_i hn; rw [if_neg hn] at hr
    cases hl : readBytes m a 8 with
    | error f => simp [hl, bind, Except.bind] at hr
    | ok lb =>
      rw [readBytes_congr m m' a 8 (fun k hk => h k (by omega)) _ hl]
      simpa [hl] using hr

/-- Two walks that stand at the same place of their streams. -/
def sameWalk (w w' : Walk) : Prop := w'.off = w.off ∧ w'.count = w.count ∧ w'.first = w.first ∧ w'.last = w.last

/-- Two walks have written the same bytes into their table at `dst`. -/
def sameTable (dst : Nat) (w w' : Walk) : Prop :=
  ∀ k : Nat, k < 16 * w.count → readByte w'.buf (dst + k) = readByte w.buf (dst + k)

theorem sameTable_advance {dst : Nat} {w w' : Walk} (hs : sameWalk w w') (ht : sameTable dst w w') (len : Nat) (t st : Word) :
    sameTable dst (w.advance dst len t st) (w'.advance dst len t st) := by
  obtain ⟨s1, s2, -, -⟩ := hs
  intro k hk
  rw [Walk.advance_count] at hk
  rw [Walk.advance_buf, Walk.advance_buf, s1, s2]
  by_cases h : k < 16 * w.count
  · rw [readByte_writeBytes_outside _ _ _ _ (by omega), readByte_writeBytes_outside _ _ _ _ (by omega)]
    exact ht k h
  · have e : dst + k = dst + 16 * w.count + (k - 16 * w.count) := by omega
    have hl : k - 16 * w.count < (descriptorBytes w.off len t st).length := by rw [length_descriptorBytes]; omega
    rw [e, holds_writeBytes _ _ _ _ hl, holds_writeBytes _ _ _ _ hl]

/-- Two walks over memories that agree on the stream end alike, with the same table written. -/
theorem walkStream_congr (src size dst cap : Nat) (hd : ¬ RegionsOverlap src size dst cap) (fuel : Nat) :
  ∀ (w w' : Walk) (r : WalkEnd), sameWalk w w' → sameTable dst w w' → 16 * w.count ≤ cap →
  (∀ k, k < size → readByte w'.buf (src + k) = readByte w.buf (src + k)) → walkStream src size dst cap fuel w = .ok r →
  ∃ r', walkStream src size dst cap fuel w' = .ok r' ∧ sameWalk r.walk r'.walk ∧ sameTable dst r.walk r'.walk ∧ ((∃ a b, r = .finished a
      ∧ r' = .finished b) ∨ ∃ e a b, r = .stopped e a ∧ r' = .stopped e b) := by
  induction fuel with
  | zero =>
    intro w w' r hs ht _ _ h
    simp only [walkStream, Except.ok.injEq] at h ⊢
    subst h
    exact ⟨_, rfl, hs, ht, .inl ⟨_, _, rfl, rfl⟩⟩
  | succ fuel ih =>
    intro w w' r hs ht hc0 hk h
    have hs' := hs
    obtain ⟨s1, s2, s3, s4⟩ := hs
    by_cases ho : w.off < size
    · cases hdec : decodeChunk w.buf (src + w.off) (size - w.off) with
      | error f => simp [walkStream, ho, hdec] at h
      | ok d =>
        have hdec' : decodeChunk w'.buf (src + w'.off) (size - w'.off) = .ok d := by
          rw [s1]
          refine decodeChunk_congr _ _ _ _ _ ?_ hdec
          intro k hk'; rw [Nat.add_assoc]; exact hk _ (by omega)
        cases d with
        | failed k c =>
          rw [walkStream_failed _ _ _ _ _ _ _ _ ho hdec] at h
          simp only [Except.ok.injEq] at h; subst h
          exact ⟨_, walkStream_failed _ _ _ _ _ _ _ _ (by omega) hdec', hs', ht, .inr ⟨_, _, _, rfl, rfl⟩⟩
        | accepted len t st crc =>
          by_cases hc : cap < 16 * (w.count + 1)
          · rw [walkStream_full _ _ _ _ _ _ _ _ _ _ ho hdec hc] at h
            simp only [Except.ok.injEq] at h; subst h
            exact ⟨_, walkStream_full _ _ _ _ _ _ _ _ _ _ (by omega) hdec' (by omega), hs', ht,
              .inr ⟨_, _, _, rfl, rfl⟩⟩
          · rw [walkStream_record _ _ _ _ _ _ _ _ _ _ ho hdec (by omega)] at h
            rw [walkStream_record _ _ _ _ _ _ _ _ _ _ (by omega) hdec' (by omega)]
            refine ih (w.advance dst len t st) (w'.advance dst len t st) r ⟨by simp [s1], by simp [s2], by simp [s2, s3],
                by simp⟩ (sameTable_advance hs' ht len t st) (by simp only [Walk.advance_count]; omega) ?_ h
            intro k hk'
            have hout : src + k < dst + 16 * w.count ∨ dst + 16 * w.count + 16 ≤ src + k := by
              by_contra hcon
              apply hd
              refine ⟨by omega, by omega, by omega, by omega⟩
            rw [Walk.advance_buf, Walk.advance_buf,
              readByte_writeBytes_outside _ _ _ _ (by rw [length_descriptorBytes, s2]; exact hout),
              readByte_writeBytes_outside _ _ _ _ (by rw [length_descriptorBytes]; exact hout)]
            exact hk k hk'
    · rw [walkStream_end _ _ _ _ _ _ (by omega)] at h
      simp only [Except.ok.injEq] at h; subst h
      exact ⟨_, walkStream_end _ _ _ _ _ _ (by omega), hs', ht, .inl ⟨_, _, rfl, rfl⟩⟩

end Sys2Proof.Machine
end

