-- ==== Sys2Proof/Laws/Crc.lean ====
section
/-! SUPPORT. The CRC function: feeding a sequence in two parts, and the bit-level facts that make a changed byte visible. -/

namespace Sys2Proof.Machine

@[simp] theorem crcUpdate_nil (c : Word) : crcUpdate c [] = c := rfl

@[simp] theorem crcUpdate_cons (c : Word) (b : Byte) (t : List Byte) :
    crcUpdate c (b :: t) = crcUpdate (crcStepByte c b) t := rfl

/-- Feeding x and then y is feeding x ++ y. -/
theorem crcUpdate_append (x : List Byte) : ∀ (c : Word) (y : List Byte),
    crcUpdate c (x ++ y) = crcUpdate (crcUpdate c x) y := by
  induction x with
  | nil => intro c y; rfl
  | cons b x ih => intro c y; exact ih _ _

/-- The bit that `step_bit` shifts out comes back as the top bit of its result. -/
theorem crcStepBit_msb (c : Word) : (crcStepBit c).getLsbD 31 = c.getLsbD 0 := by
  unfold crcStepBit
  split
  · rename_i h
    simp [crcPoly, h]
  · rename_i h
    simpa using h

/-- `step_bit` loses nothing: the shifted-out bit can be read off the top bit. -/
theorem crcStepBit_injective (x y : Word) (h : crcStepBit x = crcStepBit y) : x = y := by
  have h0 : x.getLsbD 0 = y.getLsbD 0 := by rw [← crcStepBit_msb, ← crcStepBit_msb, h]
  have hs : x >>> 1 = y >>> 1 := by
    unfold crcStepBit at h
    rw [h0] at h
    split at h
    · have := congrArg (fun z => z ^^^ crcPoly) h
      simpa [BitVec.xor_assoc] using this
    · exact h
  apply BitVec.eq_of_getLsbD_eq
  intro i hi
  cases i with
  | zero => exact h0
  | succ j =>
    have := congrArg (fun z : Word => z.getLsbD j) hs
    simpa [BitVec.getLsbD_ushiftRight, Nat.add_comm] using this

theorem crcStepBits_injective (n : Nat) : ∀ (x y : Word), crcStepBits n x = crcStepBits n y → x = y := by
  induction n with
  | zero => intro x y h; exact h
  | succ n ih => intro x y h; exact crcStepBit_injective _ _ (ih _ _ h)

theorem crcStepByte_injective_left (x y : Word) (b : Byte) (h : crcStepByte x b = crcStepByte y b) : x = y := by
  have := congrArg (fun z => z ^^^ b.setWidth 32) (crcStepBits_injective 8 _ _ h)
  simpa [BitVec.xor_assoc] using this

theorem crcStepByte_injective_right (c : Word) (b b' : Byte) (h : crcStepByte c b = crcStepByte c b') : b = b' := by
  have h1 := crcStepBits_injective 8 _ _ h
  have h2 : b.setWidth 32 = b'.setWidth 32 := by
    have := congrArg (fun z => c ^^^ z) h1
    simpa [← BitVec.xor_assoc] using this
  apply BitVec.eq_of_toNat_eq
  have := congrArg BitVec.toNat h2
  simp only [BitVec.toNat_setWidth] at this
  have hb := b.isLt
  have hb' := b'.isLt
  omega

theorem crcUpdate_injective_left (s : List Byte) : ∀ (x y : Word), crcUpdate x s = crcUpdate y s → x = y := by
  induction s with
  | nil => intro x y h; exact h
  | cons b s ih => intro x y h; exact crcStepByte_injective_left _ _ _ (ih _ _ h)

/-- `step_bit` is linear over GF(2) (rule R405). -/
theorem crcStepBit_xor (x y : Word) : crcStepBit (x ^^^ y) = crcStepBit x ^^^ crcStepBit y := by
  unfold crcStepBit
  rw [BitVec.getLsbD_xor, BitVec.ushiftRight_xor_distrib]
  cases x.getLsbD 0 <;> cases y.getLsbD 0 <;> simp [BitVec.xor_assoc, BitVec.xor_comm crcPoly]

theorem crcStepBits_xor (n : Nat) : ∀ (x y : Word),
    crcStepBits n (x ^^^ y) = crcStepBits n x ^^^ crcStepBits n y := by
  induction n with
  | zero => intro x y; rfl
  | succ n ih => intro x y; rw [crcStepBits, crcStepBit_xor, ih]; rfl

end Sys2Proof.Machine
end

