-- ==== Sys2Proof/Laws/Frames.lean ====
section
/-! SUPPORT. What the commands may do to buffer memory, and which errors their operand checks raise. -/

namespace Sys2Proof.Machine

/-- The errors of CHUNK_ENCODE (rule R480). -/
theorem encodeCheck_cases (s : State) (e) (h : s.encodeCheck = some e) :
    e = .block .rangeFault ∨ e = .block .dstTooSmall ∨ e = .block .overlap ∨ e = .chunk .generic := by
  unfold State.encodeCheck at h
  repeat' split at h
  all_goals simp_all

/-- The block-level errors of PNG_PARSE (rule R520). -/
theorem parseCheck_cases (s : State) (e) (h : s.parseCheck = some e) : e = .block .rangeFault ∨ e = .block .overlap := by
  unfold State.parseCheck at h
  repeat' split at h
  all_goals simp_all

/-- The walk of PNG_PARSE stays in its table and writes descriptors alone. -/
theorem walk_outside {s : State} {r} (h : s.walk = .ok r) : 16 * r.walk.count ≤ s.dstSize
    ∧ SameBytesOutside s.buf r.walk.buf s.dstBase (16 * r.walk.count) := by
  constructor
  · exact walkStream_count_le _ _ _ _ _ _ _ h (by simp [State.walkStart])
  · exact walkStream_outside _ _ _ _ _ _ _ _ h (fun a _ => rfl)

/-- A walk that got past the block checks has its stream as it was. -/
theorem walk_source {s : State} (hp : s.parseCheck = none) (w : Walk) (h1 : 16 * w.count ≤ s.dstSize)
    (h2 : SameBytesOutside s.buf w.buf s.dstBase (16 * w.count)) (i : Nat) (hi : i < s.srcSize) :
   readByte w.buf (s.srcBase + i) = readByte s.buf (s.srcBase + i) := by
  obtain ⟨-, -, h3⟩ := parseCheck_none hp
  rw [← Bool.not_eq_true, overlap_iff] at h3
  apply h2
  omega

/-- The walk stops with a fault only at an unwritten byte of the stream. -/
theorem walk_error {s : State} (hp : s.parseCheck = none) (f) (h : s.walk = .error f) : ∃ i, i < s.srcSize
    ∧ f = .unwrittenByte (s.srcBase + i) ∧ readByte s.buf (s.srcBase + i) = none := by
  obtain ⟨w', i, ⟨p1, p2⟩, -, h1, h2, h3⟩ := walkStream_error _ _ _ _ (fun w => 16 * w.count ≤ s.dstSize
      ∧ SameBytesOutside s.buf w.buf s.dstBase (16 * w.count)) (by
    rintro w len t st crc ⟨q1, q2⟩ _ _ hc
    refine ⟨by simpa using hc, ?_⟩
    intro a ha
    simp only [Walk.advance_count] at ha
    rw [Walk.advance_buf, readByte_writeBytes_outside _ _ _ _ (by rw [length_descriptorBytes]; omega)]
    exact q2 a (by omega)) _ _ _ h (by simp [State.walkStart]; exact fun a _ => rfl)
  exact ⟨i, h1, h2, by rw [← walk_source hp w' p1 p2 i h1]; exact h3⟩

/-- The buffer after a PNG_PARSE is as before or as its walk left it. -/
theorem execPngParse_buf {s t : State} (h : execPngParse s = .next t) : t.buf = s.buf ∨ ∃ r, s.walk = .ok r
    ∧ t.buf = r.walk.buf ∧ t.chunkCount = BitVec.ofNat 32 r.walk.count := by
  rcases execPngParse_next h with ⟨e, he, rfl⟩ | ⟨-, ⟨-, rfl⟩ | ⟨-, ⟨e, w, hw, rfl⟩ | ⟨w, hw, ⟨-, -, rfl⟩ | ⟨-, rfl⟩⟩⟩⟩
  · exact .inl rfl
  · exact .inl rfl
  · exact .inr ⟨_, hw, rfl, rfl⟩
  · exact .inr ⟨_, hw, rfl, rfl⟩
  · exact .inr ⟨_, hw, rfl, rfl⟩

/-- Every command keeps the canonical form of memory and stays inside the buffer (rule R133). -/
theorem exec_memory {i s t} (h : exec i s = .next t) (hw : s.buf.wf = true) (hb : addressesBelow s.buf s.cfg.bufSize = true) :
   t.buf.wf = true ∧ addressesBelow t.buf s.cfg.bufSize = true := by
  by_cases h1 : i = .chunkEncode
  · subst h1
    rcases execChunkEncode_next h with ⟨e, he, rfl⟩ | ⟨hc, d, hd, rfl⟩
    · exact ⟨hw, hb⟩
    · obtain ⟨_, h2, h3, -⟩ := encodeCheck_none hc
      rw [dstFits_iff] at h2
      have hl := ((readBytes_ok_iff _ _ _ _).1 hd).1
      exact ⟨writeBytes_wf _ _ _ hw, writeBytes_below _ _ _ _ hb (by
        rw [length_recordBytes, hl]; simp only [State.recordSize] at *; omega)⟩
  by_cases h2 : i = .sigEmit
  · subst h2
    rcases execSigEmit_next h with ⟨-, rfl⟩ | ⟨-, -, rfl⟩ | ⟨h2, h3, rfl⟩
    · exact ⟨hw, hb⟩
    · exact ⟨hw, hb⟩
    · rw [dstFits_iff] at h2
      exact ⟨writeBytes_wf _ _ _ hw, writeBytes_below _ _ _ _ hb (by rw [length_pngSig]; omega)⟩
  by_cases h3 : i = .pngParse
  · subst h3
    rcases execPngParse_next h with ⟨e, he, rfl⟩ | ⟨hc, ⟨-, rfl⟩ | ⟨-, ⟨e, w, hk, rfl⟩ | ⟨w, hk, ⟨-, -, rfl⟩ | ⟨-, rfl⟩⟩⟩⟩
    · exact ⟨hw, hb⟩
    · exact ⟨hw, hb⟩
    all_goals
      have hf := (parseCheck_none hc).2.1
      rw [dstFits_iff] at hf
      exact ⟨walkStream_wf _ _ _ _ _ _ _ hk hw, walkStream_below _ _ _ _ _ _ _ _ hk hf hb⟩
  · have hbuf : t.buf = s.buf := by
      cases i <;> simp only [exec] at h
      case crcInit => rw [execCrcInit_next h]; rfl
      case crcUpdate => rcases execCrcUpdate_next h with ⟨-, rfl⟩ | ⟨-, bs, -, rfl⟩ <;> rfl
      case crcCompute => rcases execCrcCompute_next h with ⟨-, rfl⟩ | ⟨-, bs, -, rfl⟩ <;> rfl
      case crcVerify => rcases execCrcVerify_next h with ⟨-, rfl⟩ | ⟨-, bs, -, ⟨-, rfl⟩ | ⟨-, rfl⟩⟩ <;> rfl
      case typeCheck => rw [execTypeCheck_next h]; rfl
      case chunkCrcGen => rcases execChunkCrcGen_next h with ⟨-, rfl⟩ | ⟨-, -, rfl⟩ | ⟨-, -, d, -, rfl⟩ <;> rfl
      case chunkDecode => rcases execChunkDecode_next h with ⟨-, rfl⟩ | ⟨-, x, -, ⟨_, _, _, _, -, rfl⟩ | ⟨k, -, rfl⟩ |
          ⟨k, _, -, rfl⟩⟩ <;> rfl
      case chunkEncode => exact absurd rfl h1
      case sigCheck => rcases execSigCheck_next h with ⟨-, rfl⟩ | ⟨-, ok, -, ⟨-, rfl⟩ | ⟨-, rfl⟩⟩ <;> rfl
      case sigEmit => exact absurd rfl h2
      case pngParse => exact absurd rfl h3
    rw [hbuf]; exact ⟨hw, hb⟩

end Sys2Proof.Machine
end

