-- ==== Sys2Proof/Laws/Host.lean ====
section
/-! SUPPORT. What the host's turns and the engine's turn can do: if a step answers a next state, one of these cases holds. -/

namespace Sys2Proof.Machine

/-- The register map is one register per offset (rule R101). -/
theorem regAt_eq_some (off : Nat) (r : Reg) : regAt off = some r ↔ off = regOffset r := by
  constructor
  · intro h
    have hp := List.find?_some (p := fun r => regOffset r == off) h
    exact (beq_iff_eq.1 hp).symm
  · rintro rfl
    cases r <;> rfl

/-- From 0x54 on every offset is reserved (rule R129). -/
theorem regAt_reserved (off : Nat) (h : 0x54 ≤ off) : regAt off = none := by
  cases hr : regAt off with
  | none => rfl
  | some r =>
    have := (regAt_eq_some off r).1 hr
    cases r <;> simp only [regOffset] at this <;> omega

@[simp] theorem registerPort_word (off : Nat) (k : Result) (h4 : off % 4 = 0) (hw : off < 0x100) :
    registerPort off 4 k = k := by
  simp [registerPort, h4, hw]

theorem registerPort_next (off width : Nat) (k : Result) (t : State) :
    registerPort off width k = .next t ↔ width = 4 ∧ off % 4 = 0 ∧ off < 0x100 ∧ k = .next t := by
  unfold registerPort
  split
  · split <;> simp_all
  · simp_all

theorem bufferPort_next (s : State) (a width : Nat) (k : Result) (t : State) :
    bufferPort s a width k = .next t ↔ width = 1 ∧ a < s.cfg.bufSize ∧ k = .next t := by
  unfold bufferPort
  split
  · split <;> simp_all
  · simp_all

/-- Everything one host access can do (rule R640). -/
theorem hostStep_next {a : HostAccess} {s t : State} (h : hostStep a s = .next t) :
    (∃ off, a = .regRead off 4 ∧ off % 4 = 0 ∧ off < 0x100 ∧ t = s.pushRead (.word (readOffset s off)))
    ∨ (∃ off v, a = .regWrite off 4 v ∧ off % 4 = 0 ∧ off < 0x100 ∧ t = s.writeOffset off v)
    ∨ (∃ x, a = .bufRead x 1 ∧ x < s.cfg.bufSize ∧
      ((s.busy = true ∧ t = s.noteOverrun.pushRead (.byte 0x00#8))
        ∨ (s.busy = false ∧ ∃ b, readByte s.buf x = some b ∧ t = s.pushRead (.byte b))))
    ∨ (∃ x b, a = .bufWrite x 1 b ∧ x < s.cfg.bufSize ∧
      ((s.busy = true ∧ t = s.noteOverrun) ∨ (s.busy = false ∧ t = { s with buf := writeByte s.buf x b })))
    ∨ (a = .reset ∧ t = s.resetHeld) ∨ (a = .powerOn ∧ t = s.powerOn) := by
  cases a with
  | regRead off w =>
    obtain ⟨rfl, h4, hl, hk⟩ := (registerPort_next _ _ _ _).1 h
    exact .inl ⟨off, rfl, h4, hl, by simpa using hk.symm⟩
  | regWrite off w v =>
    obtain ⟨rfl, h4, hl, hk⟩ := (registerPort_next _ _ _ _).1 h
    exact .inr (.inl ⟨off, v, rfl, h4, hl, by simpa using hk.symm⟩)
  | bufRead x w =>
    obtain ⟨rfl, hx, hk⟩ := (bufferPort_next _ _ _ _ _).1 h
    refine .inr (.inr (.inl ⟨x, rfl, hx, ?_⟩))
    unfold readBuffer at hk
    split at hk
    · rename_i hb
      exact .inl ⟨hb, by simpa using hk.symm⟩
    · rename_i hb
      split at hk
      · rename_i b hr
        exact .inr ⟨by simpa using hb, b, hr, by simpa using hk.symm⟩
      · cases hk
  | bufWrite x w b =>
    obtain ⟨rfl, hx, hk⟩ := (bufferPort_next _ _ _ _ _).1 h
    refine .inr (.inr (.inr (.inl ⟨x, b, rfl, hx, ?_⟩)))
    simp only [Host.Outcome.next.injEq, writeBuffer] at hk
    split at hk
    · rename_i hb
      exact .inl ⟨hb, hk.symm⟩
    · rename_i hb
      exact .inr ⟨by simpa using hb, hk.symm⟩
  | reset => exact .inr (.inr (.inr (.inr (.inl ⟨rfl, by simpa [hostStep] using h.symm⟩))))
  | powerOn => exact .inr (.inr (.inr (.inr (.inr ⟨rfl, by simpa [hostStep] using h.symm⟩))))

/-- A bus access that goes on is a register or buffer access of the host (rule R200). -/
theorem busStep_next {b : BusAccess} {s t : State} (h : busStep b s = .next t) :
    ∃ a, hostStep a s = .next t ∧ a ≠ .reset ∧ a ≠ .powerOn
      ∧ (∀ off w v, a = .regWrite off w v → b = .write (s.cfg.baseAddr + off) w v)
      ∧ (∀ x w, a = .bufRead x w → b = .read (s.cfg.bufBase + x) w)
      ∧ ∀ x w c, a = .bufWrite x w c → ∃ v, b = .write (s.cfg.bufBase + x) w v := by
  cases b with
  | read x w =>
    unfold busStep at h
    simp only at h
    split at h
    · cases h
    · split at h
      · exact ⟨_, h, by simp, by simp, by simp, by simp, by simp⟩
      · split at h
        · rename_i hw
          refine ⟨_, h, by simp, by simp, by simp, ?_, by simp⟩
          simp only [HostAccess.bufRead.injEq, BusAccess.read.injEq]
          rintro x' w' ⟨rfl, rfl⟩
          simp only [inBufferWindow, Bool.and_eq_true, decide_eq_true_eq] at hw
          exact ⟨by omega, rfl⟩
        · cases h
  | write x w v =>
    unfold busStep at h
    simp only at h
    split at h
    · cases h
    · split at h
      · rename_i hw
        refine ⟨_, h, by simp, by simp, ?_, by simp, by simp⟩
        simp only [HostAccess.regWrite.injEq, BusAccess.write.injEq]
        rintro off w' v' ⟨rfl, rfl, rfl⟩
        simp only [inRegisterWindow, Bool.and_eq_true, decide_eq_true_eq] at hw
        exact ⟨by omega, rfl, rfl⟩
      · split at h
        · rename_i hw
          refine ⟨_, h, by simp, by simp, by simp, by simp, ?_⟩
          simp only [HostAccess.bufWrite.injEq, BusAccess.write.injEq]
          rintro x' w' c ⟨rfl, rfl, -⟩
          simp only [inBufferWindow, Bool.and_eq_true, decide_eq_true_eq] at hw
          exact ⟨v, by omega, rfl, rfl⟩
        · cases h

/-- Everything running a command word can do (rules R303 and R610). -/
theorem runWord_next {w : Word} {s t : State} (h : runWord w s = .next t) :
    (∃ i, decode w = .ok i ∧ exec i s = .next t) ∨ t = s.finish (errCode (.block .illegalCommand)) := by
  unfold runWord at h
  split at h
  · rename_i i hd
    exact .inl ⟨i, hd, h⟩
  · exact .inr (by simpa using h.symm)

/-- Everything the engine's turn can do (rule R103). -/
theorem engineStep_next {s t : State} (h : engineStep s = .next t) :
    (s.busy = false ∧ t = s) ∨ (s.busy = true ∧ ∃ w, s.curCmd = some w ∧ runWord w s = .next t) := by
  unfold engineStep at h
  split at h
  · rename_i hb
    split at h
    · rename_i w hc
      exact .inr ⟨hb, w, hc, h⟩
    · cases h
  · rename_i hb
    exact .inl ⟨by simpa using hb, by simpa using h.symm⟩

/-- A read of STATUS in a WAIT changes only the agenda and what the host has read (rule R341). -/
theorem waitStep_next {k : Nat} {rest : List Turn} {s t : State} (h : waitStep k rest s = .next t) :
    ∃ ag, t = { s.pushRead (.word (statusWord s)) with agenda := ag } := by
  unfold waitStep at h
  split at h
  · split at h <;> exact ⟨_, by simpa using h.symm⟩
  · exact ⟨_, by simpa using h.symm⟩

/-- At the engine's turn a step is the engine's. -/
theorem step_engine (s : State) (rest : List Turn) (h : s.engineTurn rest) :
    step s = engineStep { s with agenda := rest } := by
  rcases h with h | ⟨h, rfl⟩
  · simp [step, takeTurn, h]
  · simp only [step, takeTurn, h]
    congr 1
    cases s
    simp_all

/-- Whose turn a step is (rule R230): the engine's, the host's at its ports or through the bus, or a WAIT's. -/
theorem step_next {s t : State} (h : step s = .next t) :
    (∃ rest, s.engineTurn rest ∧ engineStep { s with agenda := rest } = .next t)
    ∨ (∃ a rest, s.agenda = .host a :: rest ∧ hostStep a { s with agenda := rest } = .next t)
    ∨ (∃ b rest, s.agenda = .bus b :: rest ∧ busStep b { s with agenda := rest } = .next t)
    ∨ (∃ k rest, s.agenda = .wait k :: rest ∧ waitStep k rest s = .next t) := by
  cases ha : s.agenda with
  | nil => exact .inl ⟨[], .inr ⟨ha, rfl⟩, by rw [← step_engine s [] (.inr ⟨ha, rfl⟩)]; exact h⟩
  | cons x rest =>
    simp only [step, takeTurn, ha] at h
    cases x with
    | engine => exact .inl ⟨rest, .inl ha, h⟩
    | host a => exact .inr (.inl ⟨a, rest, rfl, h⟩)
    | bus b => exact .inr (.inr (.inl ⟨b, rest, rfl, h⟩))
    | wait k => exact .inr (.inr (.inr ⟨k, rest, rfl, h⟩))

/-- Everything a host write at an offset can do (rules R102 and R710). -/
theorem writeOffset_cases (s : State) (off : Nat) (v : Word) :
    (off = 0x08 ∧ s.writeOffset off v = s.writeStatus v)
    ∨ (off ≠ 0x08 ∧ s.busy = true ∧ s.writeOffset off v = s.noteOverrun)
    ∨ (off ≠ 0x08 ∧ s.busy = false ∧ ∃ r, regAt off = some r ∧ s.writeOffset off v = s.writeIdle r v)
    ∨ (off ≠ 0x08 ∧ s.busy = false ∧ regAt off = none ∧ s.writeOffset off v = s) := by
  by_cases ho : off = 0x08
  · exact .inl ⟨ho, if_pos ho⟩
  · have he : s.writeOffset off v =
        if s.busy then s.noteOverrun else match regAt off with | some r => s.writeIdle r v | none => s := if_neg ho
    cases hb : s.busy with
    | true => exact .inr (.inl ⟨ho, rfl, by rw [he, hb]; rfl⟩)
    | false =>
      cases hr : regAt off with
      | some r => exact .inr (.inr (.inl ⟨ho, rfl, r, rfl, by rw [he, hb, hr]; rfl⟩))
      | none => exact .inr (.inr (.inr ⟨ho, rfl, rfl, by rw [he, hb, hr]; rfl⟩))

/-- A host write touches no parameter, no buffer byte, no agenda and no read, and, but for a CMD write, no result. -/
theorem writeIdle_frame (s : State) (r : Reg) (v : Word) :
    (s.writeIdle r v).cfg = s.cfg ∧ (s.writeIdle r v).buf = s.buf ∧ (s.writeIdle r v).agenda = s.agenda
      ∧ (s.writeIdle r v).reads = s.reads ∧ (s.writeIdle r v).typeflags = s.typeflags
      ∧ (s.writeIdle r v).overrun = s.overrun
      ∧ (r ≠ .cmd → (s.writeIdle r v).busy = s.busy ∧ (s.writeIdle r v).done = s.done ∧ (s.writeIdle r v).err = s.err
        ∧ (s.writeIdle r v).curCmd = s.curCmd) := by
  cases r <;> exact ⟨rfl, rfl, rfl, rfl, rfl, rfl, fun h => by first | exact absurd rfl h | exact ⟨rfl, rfl, rfl, rfl⟩⟩

/-- OVERRUN rises only where the BUSY filter turns an access away (rules R102, R112, R203 and R710). -/
theorem hostStep_overrun {a : HostAccess} {s t : State} (h : hostStep a s = .next t) (h0 : s.overrun = false)
    (h1 : t.overrun = true) :
    s.busy = true ∧ ((∃ off v, a = .regWrite off 4 v ∧ off ≠ 0x08 ∧ off % 4 = 0 ∧ off < 0x100)
      ∨ ∃ x, x < s.cfg.bufSize ∧ (a = .bufRead x 1 ∨ ∃ b, a = .bufWrite x 1 b)) := by
  rcases hostStep_next h with ⟨off, -, -, -, rfl⟩ | ⟨off, v, rfl, h4, hl, rfl⟩ | ⟨x, rfl, hx, ⟨hb, rfl⟩ | ⟨-, b, -, rfl⟩⟩
    | ⟨x, b, rfl, hx, ⟨hb, rfl⟩ | ⟨-, rfl⟩⟩ | ⟨-, rfl⟩ | ⟨-, rfl⟩
  · simp [h0] at h1
  · rcases writeOffset_cases s off v with ⟨-, e⟩ | ⟨hne, hb, -⟩ | ⟨-, -, r, -, e⟩ | ⟨-, -, -, e⟩
    · rw [e] at h1
      simp [State.writeStatus, h0] at h1
    · exact ⟨hb, .inl ⟨off, v, rfl, hne, h4, hl⟩⟩
    · rw [e, (writeIdle_frame s r v).2.2.2.2.2.1, h0] at h1
      cases h1
    · rw [e, h0] at h1
      cases h1
  · exact ⟨hb, .inr ⟨x, hx, .inl rfl⟩⟩
  · simp [h0] at h1
  · exact ⟨hb, .inr ⟨x, hx, .inr ⟨b, rfl⟩⟩⟩
  · simp [h0] at h1
  · simp [State.resetHeld, State.resetWith] at h1
  · simp [State.powerOn, State.resetWith] at h1

end Sys2Proof.Machine
end

