-- ==== Sys2Proof/Laws/PerInstr.lean ====
section
/-! SUPPORT. The statements made of every instruction, one lemma per constructor. -/

namespace Sys2Proof.Laws

/-- The word of a command (rules R300 and R302): MBZ is zero, the OPCODE is the command's, and the word is well formed. -/
def EncodedWord.Statement (i : Instr) : Prop :=
  mbzField (encode i) = 0#24 ∧ opcodeField (encode i) = opcodeOf i ∧ commandWordWellFormed (encode i) = true

theorem EncodedWord.crcInit : EncodedWord.Statement .crcInit := by unfold EncodedWord.Statement; decide
theorem EncodedWord.crcUpdate : EncodedWord.Statement .crcUpdate := by unfold EncodedWord.Statement; decide
theorem EncodedWord.crcCompute : EncodedWord.Statement .crcCompute := by unfold EncodedWord.Statement; decide
theorem EncodedWord.crcVerify : EncodedWord.Statement .crcVerify := by unfold EncodedWord.Statement; decide
theorem EncodedWord.typeCheck : EncodedWord.Statement .typeCheck := by unfold EncodedWord.Statement; decide
theorem EncodedWord.chunkCrcGen : EncodedWord.Statement .chunkCrcGen := by unfold EncodedWord.Statement; decide
theorem EncodedWord.chunkDecode : EncodedWord.Statement .chunkDecode := by unfold EncodedWord.Statement; decide
theorem EncodedWord.chunkEncode : EncodedWord.Statement .chunkEncode := by unfold EncodedWord.Statement; decide
theorem EncodedWord.sigCheck : EncodedWord.Statement .sigCheck := by unfold EncodedWord.Statement; decide
theorem EncodedWord.sigEmit : EncodedWord.Statement .sigEmit := by unfold EncodedWord.Statement; decide
theorem EncodedWord.pngParse : EncodedWord.Statement .pngParse := by unfold EncodedWord.Statement; decide

end Sys2Proof.Laws
end

