-- ==== Sys2Proof/Laws/Records.lean ====
section
/-! SUPPORT. The terms of Safety.lean and the checks of the model say the same: letters, regions,
    and the records of rule R320. -/

namespace Sys2Proof.Machine

theorem isLetter_iff (b : Byte) : isLetter b = true ↔ LetterByte b := by simp [isLetter, LetterByte]

/-- The letter check is the letter constraint (rule R450). -/
theorem letters_iff (t : Word) : letters t = true ↔ LetterCode t := by
  simp [letters, LetterCode, isLetter_iff]

theorem letters_false_iff (t : Word) : letters t = false ↔ ¬ LetterCode t := by
  rw [← letters_iff]; simp

/-- The region checks are the regions of Safety.lean (rule R220). -/
theorem srcFits_true {s : State} (h : s.SrcFits) : s.srcFits = true := (srcFits_iff s).2 h

theorem srcFits_false {s : State} (h : ¬ s.SrcFits) : s.srcFits = false := by
  rw [← Bool.not_eq_true, srcFits_iff]; exact h

theorem dstFits_true {s : State} (h : s.DstFits) : s.dstFits = true := (dstFits_iff s).2 h

theorem dstFits_false {s : State} (h : ¬ s.DstFits) : s.dstFits = false := by
  rw [← Bool.not_eq_true, dstFits_iff]; exact h

theorem dataFits_true {s : State} (h : s.DataFits) : s.dataFits = true := (dataFits_iff s).2 h

theorem dataFits_false {s : State} (h : ¬ s.DataFits) : s.dataFits = false := by
  rw [← Bool.not_eq_true, dataFits_iff]; exact h

/-- Reading the source region gives the bytes it holds. -/
theorem readBytes_source {s : State} (bs) (hl : bs.length = s.srcLen.toNat) (hh : Holds s.buf s.srcAddr.toNat bs) :
   readBytes s.buf s.srcBase s.srcSize = .ok bs := (readBytes_ok_iff _ _ _ _).2 ⟨hl, hh⟩

/-- A region holds one byte string of a given length. -/
theorem holds_unique (m : Memory) (xs : List Byte) : ∀ (a : Nat) (ys : List Byte), Holds m a xs → Holds m a ys →
    xs.length = ys.length → xs = ys := by
  intro a ys h1 h2 hl
  apply List.ext_getElem? 
  intro i
  by_cases hi : i < xs.length
  · rw [← h1 i hi, ← h2 i (by omega)]
  · rw [List.getElem?_eq_none (by omega), List.getElem?_eq_none (by omega)]

theorem fieldsBytes_eq_recordBytes (len t d crc) (h : d.length = len.toNat) : fieldsBytes len t d crc = recordBytes t d crc := by
  unfold fieldsBytes recordBytes
  rw [h, BitVec.ofNat_toNat, BitVec.setWidth_eq]

/-- A record that fits is checked on its own fields (rule R470). -/
theorem decodeChunk_fields (m : Memory) (a n) (len t : Word) (d) (crc) (h : d.length = len.toNat) (hn : 12 + len.toNat ≤ n)
   (hh : Holds m a (fieldsBytes len t d crc)) : decodeChunk m a n = .ok (checkRecord d.length t d crc) := by
  rw [fieldsBytes_eq_recordBytes _ _ _ _ h] at hh
  exact decodeChunk_record m a n t crc d (by rw [h]; exact len.isLt) (by omega) hh

/-- A record that fails, as Safety.lean says it, is a record that `decode_chunk` fails, and with which CRC (rule R470). -/
theorem decodeChunk_fails (m : Memory) (a n k) (h : RecordFails m a n k) : ∃ c, decodeChunk m a n = .ok (.failed k c)
   ∧ (k = .tooShort ∨ k = .tooLong → c = none)
   ∧ (k = .badCrc ∨ k = .generic → ∃ x, c = some x ∧
     ∀ (len ty : Word) (d : List Byte) (crc : Word), d.length = len.toNat →
          Holds m a (fieldsBytes len ty d crc) → x = crc32 (toBe32 ty ++ d)) := by
  have uniq : ∀ (len ty : Word) (d : List Byte) (crc : Word) (len' ty' : Word) (d' : List Byte) (crc' : Word),
      d.length = len.toNat → d'.length = len'.toNat → Holds m a (fieldsBytes len ty d crc) →
      Holds m a (fieldsBytes len' ty' d' crc') → ty = ty' ∧ d = d' := by
    intro len ty d crc len' ty' d' crc' h1 h2 h3 h4
    unfold fieldsBytes at h3 h4
    rw [holds_append, holds_append, holds_append] at h3 h4
    have e := holds_unique _ _ _ _ h3.1.1.1 h4.1.1.1 rfl
    have e := congrArg be32 e
    simp only [be32_toBe32] at e
    subst e
    have e := congrArg be32 (holds_unique _ _ _ _ h3.1.1.2 h4.1.1.2 rfl)
    simp only [be32_toBe32] at e
    refine ⟨e, holds_unique _ _ _ _ h3.1.2 h4.1.2 (by omega)⟩
  cases k with
  | tooShort => exact ⟨none, decodeChunk_short _ _ _ h, fun _ => rfl, by simp⟩
  | tooLong =>
    obtain ⟨hn, len, hh, hl⟩ := h
    exact ⟨none, decodeChunk_long _ _ _ _ hn hh (by omega), fun _ => rfl, by simp⟩
  | badCrc =>
    obtain ⟨len, t, d, crc, hd, hn, hh, hc⟩ := h
    refine ⟨_, by rw [decodeChunk_fields _ _ _ _ _ _ _ hd hn hh]; simp [checkRecord, chunkCrcOf, hc]; rfl, by simp,
        fun _ => ⟨_, rfl, ?_⟩⟩
    intro len' t' d' crc' h1 h2
    obtain ⟨rfl, rfl⟩ := uniq _ _ _ _ _ _ _ _ hd h1 hh h2
    rfl
  | generic =>
    obtain ⟨len, t, d, hd, hn, hh, hl⟩ := h
    refine ⟨_, by rw [decodeChunk_fields _ _ _ _ _ _ _ hd hn hh]; simp [checkRecord, chunkCrcOf,
        (letters_false_iff _).2 hl]; rfl, by simp, fun _ => ⟨_, rfl, ?_⟩⟩
    intro len' t' d' crc' h1 h2
    obtain ⟨rfl, rfl⟩ := uniq _ _ _ _ _ _ _ _ hd h1 hh h2
    rfl

/-- Whether a record fails depends on the bytes of its input alone. -/
theorem recordFails_congr (m m' : Memory) (a n k) (h : ∀ x, a ≤ x → x < a + n →
    readByte m' x = readByte m x) (hf : RecordFails m a n k) : RecordFails m' a n k := by
  have hc : ∀ bs : List Byte, bs.length ≤ n → Holds m a bs → Holds m' a bs := by
    intro bs hl hh
    refine holds_congr _ _ _ _ ?_ hh
    intro i hi; exact h _ (by omega) (by omega)
  cases k with
  | tooShort => exact hf
  | tooLong => obtain ⟨h1, len, h2, h3⟩ := hf; exact ⟨h1, len, hc _ (by simp; omega) h2, h3⟩
  | badCrc =>
    obtain ⟨len, t, d, crc, h1, h2, h3, h4⟩ := hf
    exact ⟨len, t, d, crc, h1, h2, hc _ (by simp [fieldsBytes]; omega) h3, h4⟩
  | generic =>
    obtain ⟨len, t, d, h1, h2, h3, h4⟩ := hf
    exact ⟨len, t, d, h1, h2, hc _ (by simp [fieldsBytes]; omega) h3, h4⟩

end Sys2Proof.Machine
end

