-- ==== Sys2Proof/Laws/Streams.lean ====
section
/-! SUPPORT. Walking a stream of valid chunks (rule R520). -/

namespace Sys2Proof.Machine

/-- The number of bytes of the records of these chunks. -/
def recordsLength (cs : List Chunk) : Nat := (cs.flatMap Chunk.record).length

theorem length_record (c : Chunk) : c.record.length = 12 + c.data.length := by
  simp [Chunk.record, fieldsBytes]; omega

theorem streamBytes_append (xs : List Chunk) (c) : streamBytes (xs ++ [c]) = streamBytes xs ++ c.record := by
  simp [streamBytes]

theorem length_streamBytes (cs) : (streamBytes cs).length = 8 + recordsLength cs := by simp [streamBytes, recordsLength]; omega

theorem recordsLength_cons (c cs) : recordsLength (c :: cs) = 12 + c.data.length + recordsLength cs := by
  simp [recordsLength, length_record]

/-- Every record has at least twelve bytes (rule R523). -/
theorem le_recordsLength (cs) : 12 * cs.length ≤ recordsLength cs := by
  induction cs with
  | nil => simp [recordsLength]
  | cons c cs ih => rw [recordsLength_cons]; simp; omega

/-- From where valid records stand, with room in the table, the walk describes every one of them and stands behind them. -/
theorem walkStream_good (src size dst cap : Nat) (hdis : ¬ RegionsOverlap src size dst cap) (cs : List Chunk) :
  ∀ (fuel : Nat) (w : Walk), cs.length ≤ fuel → (∀ c ∈ cs, c.Valid) → w.off + recordsLength cs ≤ size →
    Holds w.buf (src + w.off) (cs.flatMap Chunk.record) →
    16 * (w.count + cs.length) ≤ cap →
    ∃ w' : Walk, walkStream src size dst cap fuel w = walkStream src size dst cap (fuel - cs.length) w'
      ∧ w'.off = w.off + recordsLength cs ∧ w'.count = w.count + cs.length
      ∧ Holds w'.buf (dst + 16 * w.count) (tableBytes w.off cs)
      ∧ SameBytesOutside w.buf w'.buf (dst + 16 * w.count) (16 * cs.length)
      ∧ w'.first = (if w.count = 0 then (cs.head?.map Chunk.type).or w.first else w.first)
      ∧ w'.last = (cs.getLast?.map Chunk.type).or w.last := by
  induction cs with
  | nil =>
    intro fuel w _ _ _ _ _
    exact ⟨w, by simp, by simp [recordsLength], by simp, by simp [tableBytes, holds_nil], fun a _ => rfl, by simp, by simp⟩
  | cons c cs ih =>
    intro fuel w hfu hv hs hh hc
    obtain ⟨fuel, rfl⟩ : ∃ f, fuel = f + 1 := ⟨fuel - 1, by simp at hfu; omega⟩
    simp only [List.length_cons] at hfu hc
    rw [recordsLength_cons] at hs
    rw [List.flatMap_cons, holds_append] at hh
    obtain ⟨hv1, hv2⟩ := hv c (by simp)
    have hl32 : (BitVec.ofNat 32 c.data.length).toNat = c.data.length := by simp; omega
    have hd : decodeChunk w.buf (src + w.off) (size - w.off) = .ok (.accepted c.data.length c.type c.crc c.crc) := by
      rw [decodeChunk_fields w.buf _ _ _ _ c.data _ hl32.symm (by rw [hl32]; omega) hh.1]
      have : chunkCrcOf c.type c.data = c.crc := rfl
      simp [checkRecord, this, (letters_iff _).2 hv1]
    have hlt : w.off < size := by omega
    rw [walkStream_record _ _ _ _ _ _ _ _ _ _ hlt hd (by omega)]
    set w1 := w.advance dst c.data.length c.type c.crc with hw1
    have hsrc : Holds w1.buf (src + w1.off) (cs.flatMap Chunk.record) := by
      have h2 := hh.2
      rw [length_record] at h2
      have e : src + w.off + (12 + c.data.length) = src + w1.off := by simp [hw1]; omega
      rw [e] at h2
      refine holds_congr _ _ _ _ ?_ h2
      intro i hi
      rw [hw1, Walk.advance_buf]
      have hr : i < recordsLength cs := hi
      refine readByte_writeBytes_outside _ _ _ _ ?_
      simp only [length_descriptorBytes, Walk.advance_off]
      by_contra hcon
      apply hdis
      refine ⟨by omega, by omega, by omega, by omega⟩
    obtain ⟨w', e1, e2, e3, e4, e5, e6, e7⟩ := ih fuel w1 (by omega) (fun x hx => hv x (by simp [hx]))
      (by simp only [hw1, Walk.advance_off]; omega) hsrc (by simp only [hw1, Walk.advance_count]; omega)
    refine ⟨w', ?_, ?_, ?_, ?_, ?_, ?_, ?_⟩
    · rw [e1]; congr 1; simp
    · rw [e2, recordsLength_cons]; simp only [hw1, Walk.advance_off]; omega
    · rw [e3]; simp only [hw1, Walk.advance_count, List.length_cons]; omega
    · have tb : tableBytes w.off (c :: cs) = descriptorBytes w.off c.data.length c.type c.crc
          ++ tableBytes (w.off + 12 + c.data.length) cs := rfl
      rw [tb, holds_append, length_descriptorBytes]
      constructor
      · refine holds_congr w1.buf _ _ _ ?_ (by rw [hw1, Walk.advance_buf]; exact holds_writeBytes _ _ _)
        intro i hi
        rw [length_descriptorBytes] at hi
        apply e5
        simp only [hw1, Walk.advance_count]; omega
      · have : dst + 16 * w1.count = dst + 16 * w.count + 16 := by simp only [hw1, Walk.advance_count]; omega
        rw [this] at e4
        exact e4
    · intro a ha
      simp only [List.length_cons] at ha
      rw [e5 a (by simp only [hw1, Walk.advance_count]; omega), hw1, Walk.advance_buf]
      exact readByte_writeBytes_outside _ _ _ _ (by rw [length_descriptorBytes]; omega)
    · rw [e6]
      by_cases h0 : w.count = 0 <;> simp [hw1, h0]
    · rw [e7, List.getLast?_cons]
      cases hgl : cs.getLast? <;> simp [hw1]

theorem holds_streamBytes (s : State) (cs) (h : Holds s.buf s.srcAddr.toNat (streamBytes cs)) :
    Holds s.buf s.srcBase pngSig ∧ Holds s.buf (s.srcBase + 8) (cs.flatMap Chunk.record) := by
  unfold streamBytes at h
  rw [holds_append] at h
  exact h

/-- What PNG_PARSE has done after its checks and the valid chunks at the head of its stream. -/
theorem parse_good (s : State) (cs : List Chunk) (hp : s.ParseOperands) (hv : ∀ c ∈ cs, c.Valid)
    (hl : (streamBytes cs).length ≤ s.srcLen.toNat)
   (hh : Holds s.buf s.srcAddr.toNat (streamBytes cs)) (hc : 16 * cs.length ≤ s.dstLen.toNat) :
   s.parseCheck = none ∧ signatureMatches s.buf s.srcBase s.srcSize = .ok true ∧
   ∃ w', s.walk = walkStream s.srcBase s.srcSize s.dstBase s.dstSize (s.srcSize - cs.length) w'
      ∧ w'.off = (streamBytes cs).length ∧ w'.count = cs.length
      ∧ Holds w'.buf s.dstAddr.toNat (tableBytes 8 cs)
      ∧ SameBytesOutside s.buf w'.buf s.dstAddr.toNat (16 * cs.length)
      ∧ w'.first = cs.head?.map Chunk.type ∧ w'.last = cs.getLast?.map Chunk.type := by
  obtain ⟨h1, h2, h3⟩ := hp
  rw [length_streamBytes] at hl
  have h12 := le_recordsLength cs
  refine ⟨?_, ?_, ?_⟩
  · have : overlap s.srcBase s.srcSize s.dstBase s.dstSize = false := by rw [← Bool.not_eq_true, overlap_iff]; exact h3
    simp [State.parseCheck, srcFits_true h1, dstFits_true h2, this]
  · have := signatureMatches_holds s.buf s.srcBase s.srcSize pngSig (by simp only [State.srcSize]; omega) rfl (holds_streamBytes s cs hh).1
    simpa using this
  · obtain ⟨w', e1, e2, e3, e4, e5, e6, e7⟩ := walkStream_good s.srcBase s.srcSize s.dstBase s.dstSize h3 cs s.srcSize s.walkStart
      (by simp only [State.srcSize]; omega) hv
      (by simp only [State.walkStart, State.srcSize]; omega) (holds_streamBytes s cs hh).2
      (by simp only [State.walkStart, State.dstSize]; omega)
    refine ⟨w', e1, by rw [e2, length_streamBytes]; rfl, by rw [e3]; simp [State.walkStart],
      by simpa [State.walkStart, State.dstBase] using e4, by simpa [State.walkStart, State.dstBase] using e5,
      by rw [e6]; simp [State.walkStart], by rw [e7]; simp [State.walkStart]⟩

theorem recordsLength_append (cs c) : recordsLength (cs ++ [c]) = recordsLength cs + (12 + c.data.length) := by
  simp [recordsLength, length_record]

theorem tableBytes_append (cs : List Chunk) (c : Chunk) : ∀ off : Nat, tableBytes off (cs ++ [c])
    = tableBytes off cs ++ descriptorBytes (off + recordsLength cs) c.data.length c.type c.crc := by
  induction cs with
  | nil => intro off; simp [tableBytes, descriptorBytes, recordsLength]
  | cons x xs ih =>
    intro off
    rw [List.cons_append, tableBytes, ih, recordsLength_cons, tableBytes]
    simp only [List.append_assoc, Nat.add_assoc]

theorem length_tableBytes (cs : List Chunk) : ∀ off : Nat, (tableBytes off cs).length = 16 * cs.length := by
  induction cs with
  | nil => intro off; rfl
  | cons c cs ih => intro off; simp [tableBytes, ih]; omega

/-- The descriptor of each chunk in the table: its record's offset and its data's length come first (rule R324). -/
theorem holds_descriptor (m : Memory) (cs : List Chunk) : ∀ (a off k : Nat) (c : Chunk), Holds m a (tableBytes off cs) →
    cs[k]? = some c →
    Holds m (a + 16 * k) (toBe32 (BitVec.ofNat 32 (off + recordsLength (cs.take k))) ++ toBe32 (BitVec.ofNat 32 c.data.length)) := by
  induction cs with
  | nil => intro a off k c _ hk; simp at hk
  | cons x xs ih =>
    intro a off k c h hk
    rw [tableBytes, holds_append] at h
    cases k with
    | zero =>
      obtain rfl : x = c := by simpa using hk
      rw [List.append_assoc, holds_append] at h
      simpa [recordsLength] using h.1.1
    | succ k =>
      have := ih _ _ k c h.2 (by simpa using hk)
      rw [List.take_succ_cons, recordsLength_cons]
      have e1 : a + 16 * (k + 1) = a + 16 + 16 * k := by omega
      have e2 : off + (12 + x.data.length + recordsLength (xs.take k)) = off + 12 + x.data.length + recordsLength (xs.take k) := by
        omega
      rw [e1, e2]
      simpa using this

/-- Where a walk of PNG_PARSE stands: behind the records of valid chunks, one descriptor written for each. -/
def WalkedOver (s : State) (w : Walk) (cs : List Chunk) : Prop :=
  (∀ c ∈ cs, c.Valid) ∧ Holds s.buf (s.srcBase + 8) (cs.flatMap Chunk.record) ∧ w.off = 8 + recordsLength cs
    ∧ w.count = cs.length ∧ Holds w.buf s.dstBase (tableBytes 8 cs) ∧ SameBytesOutside s.buf w.buf s.dstBase (16 * w.count)
    ∧ w.off ≤ s.srcSize ∧ 16 * w.count ≤ s.dstSize

/-- Every walk of PNG_PARSE stands behind valid chunks that its stream holds (rule R520). -/
theorem walk_chunks {s : State} {r : WalkEnd} (hdis : ¬ RegionsOverlap s.srcBase s.srcSize s.dstBase s.dstSize)
    (h8 : 8 ≤ s.srcSize) (h : s.walk = .ok r) : ∃ cs, WalkedOver s r.walk cs := by
  refine walkStream_induct s.srcBase s.srcSize s.dstBase s.dstSize (fun w => ∃ cs, WalkedOver s w cs) ?_ _ _ _ h
    ⟨[], by simp, by simp [holds_nil], by simp [recordsLength, State.walkStart], rfl, holds_nil _ _, fun a _ => rfl, h8,
      Nat.zero_le _⟩
  rintro w len t st crc ⟨cs, hv, hh, ho, hn, ht, hout, -, hcap⟩ hlt hd hc
  obtain ⟨d, hl, hsz, h32, hrec, hcrc, -, hlet⟩ := decodeChunk_accepted _ _ _ _ _ _ _ hd
  have hc1 : ({ type := t, data := d } : Chunk).crc = st := hcrc
  have hr : ({ type := t, data := d } : Chunk).record = recordBytes t d st := by rw [Chunk.record, hc1]; rfl
  refine ⟨cs ++ [{ type := t, data := d }], ?_, ?_, ?_, ?_, ?_, ?_, ?_, ?_⟩
  · intro c hm
    rcases List.mem_append.1 hm with hm | hm
    · exact hv c hm
    · obtain rfl := List.mem_singleton.1 hm
      exact ⟨(letters_iff _).1 hlet, by rw [hl]; exact h32⟩
  · rw [List.flatMap_append, holds_append]
    refine ⟨hh, ?_⟩
    simp only [List.flatMap_cons, List.flatMap_nil, List.append_nil, hr]
    have e : s.srcBase + 8 + (cs.flatMap Chunk.record).length = s.srcBase + w.off := by
      have : (cs.flatMap Chunk.record).length = recordsLength cs := rfl
      omega
    rw [e]
    refine holds_congr w.buf _ _ _ ?_ hrec
    intro i hi
    rw [length_recordBytes] at hi
    refine (hout _ ?_).symm
    by_contra hcon
    exact hdis ⟨by omega, by omega, by omega, by omega⟩
  · rw [Walk.advance_off, recordsLength_append, ho, hl]
    omega
  · simp [hn]
  · rw [tableBytes_append, holds_append, length_tableBytes, Walk.advance_buf, ← hn, ← ho, hc1, hl]
    refine ⟨holds_congr w.buf _ _ _ ?_ ht, holds_writeBytes _ _ _⟩
    intro i hi
    rw [length_tableBytes] at hi
    exact readByte_writeBytes_outside _ _ _ _ (by omega)
  · intro a ha
    rw [Walk.advance_count] at ha
    rw [Walk.advance_buf, readByte_writeBytes_outside _ _ _ _ (by rw [length_descriptorBytes]; omega)]
    exact hout a (by omega)
  · rw [Walk.advance_off]
    omega
  · exact hc

/-- The required-chunk check of the walk is that of the chunks (rule R521). -/
theorem requiredOk_iff (cs : List Chunk) (w : Walk) (hn : w.count = cs.length) (hf : w.first = cs.head?.map Chunk.type)
    (hl : w.last = cs.getLast?.map Chunk.type) :
   requiredOk w = true ↔ RequiredChunks cs := by
  simp [requiredOk, hn, hf, hl, and_assoc, hdrType, iendType]

end Sys2Proof.Machine
end

