-- ==== Sys2Proof/Tests/Slice0.lean ====
section
/-! SUPPORT. The model's own tests. Every expected value is written in spec/95_test_vectors.md (the vector is named in each
comment) or is a command word written out from rules R300 and R302. -/

namespace Sys2Proof.Tests

set_option Elab.async false

open Sys2Proof.Machine

/-- The state a result carries, if it is a next state. -/
def nextOf : Result → Option State
  | .next s => some s
  | .fault _ => none
  | .refused _ => none

/-- A field of the next state. -/
def seen {α : Type} (r : Result) (f : State → α) : Option α := (nextOf r).map f

/-- The bytes of a region, if all are written. -/
def bytesAt (s : State) (a n : Nat) : Option (List Byte) := (readBytes s.buf a n).toOption

/-- From reset: bytes at an address, and the source region. -/
def withSrc (at_ : Nat) (bytes : List Byte) (srcAddr srcLen : Word) : State :=
  { State.reset with buf := writeBytes [] at_ bytes, srcAddr := srcAddr, srcLen := srcLen }

/-- "123456789". -/
def digits : List Byte := [0x31, 0x32, 0x33, 0x34, 0x35, 0x36, 0x37, 0x38, 0x39]

/-- MSG, 42 bytes. -/
def msg : List Byte :=
  [0x54, 0x68, 0x69, 0x73, 0x20, 0x69, 0x73, 0x20, 0x77, 0x68, 0x65, 0x72, 0x65, 0x20, 0x79, 0x6F, 0x75, 0x72, 0x20, 0x73, 0x65]
    ++ [0x63, 0x72, 0x65, 0x74, 0x20, 0x6D, 0x65, 0x73, 0x73, 0x61, 0x67, 0x65, 0x20, 0x77, 0x69, 0x6C, 0x6C, 0x20, 0x62, 0x65, 0x21]

/-- REC_RuSt, 54 bytes. -/
def recRuSt : List Byte := [0x00, 0x00, 0x00, 0x2A, 0x52, 0x75, 0x53, 0x74] ++ msg ++ [0xAB, 0xD1, 0xD8, 0x4E]

/-- REC_IEND, 12 bytes. -/
def recIend : List Byte := [0x00, 0x00, 0x00, 0x00, 0x49, 0x45, 0x4E, 0x44, 0xAE, 0x42, 0x60, 0x82]

/-- SIG. -/
def sig : List Byte := [0x89, 0x50, 0x4E, 0x47, 0x0D, 0x0A, 0x1A, 0x0A]

/-- STREAM_MIN, 45 bytes. -/
def streamMin : List Byte :=
  sig ++ [0x00, 0x00, 0x00, 0x0D, 0x49, 0x48, 0x44, 0x52, 0x00, 0x00, 0x00, 0x01, 0x00, 0x00, 0x00, 0x01, 0x08, 0x00, 0x00]
    ++ [0x00, 0x00, 0x3A, 0x7E, 0x9B, 0x55] ++ recIend

/-! Decoding: the words of rule R302, written out bit by bit. -/

theorem test_decode_crc_init : decode 0b00000000000000000000000000000001#32 = .ok .crcInit := by decide
theorem test_decode_crc_update : decode 0b00000000000000000000000000000010#32 = .ok .crcUpdate := by decide
theorem test_decode_crc_compute : decode 0b00000000000000000000000000000011#32 = .ok .crcCompute := by decide
theorem test_decode_crc_verify : decode 0b00000000000000000000000000000100#32 = .ok .crcVerify := by decide
theorem test_decode_type_check : decode 0b00000000000000000000000000010000#32 = .ok .typeCheck := by decide
theorem test_decode_chunk_crc_gen : decode 0b00000000000000000000000000010001#32 = .ok .chunkCrcGen := by decide
theorem test_decode_chunk_decode : decode 0b00000000000000000000000000010010#32 = .ok .chunkDecode := by decide
theorem test_decode_chunk_encode : decode 0b00000000000000000000000000010011#32 = .ok .chunkEncode := by decide
theorem test_decode_sig_check : decode 0b00000000000000000000000000100000#32 = .ok .sigCheck := by decide
theorem test_decode_sig_emit : decode 0b00000000000000000000000000100001#32 = .ok .sigEmit := by decide
theorem test_decode_png_parse : decode 0b00000000000000000000000000100010#32 = .ok .pngParse := by decide

/-- V-L2-ILL: the illegal words of the vector. -/
theorem test_decode_illegal :
    [0x00000000, 0x00000005, 0x0000000F, 0x00000014, 0x00000023, 0x000000FF].map (fun w => decode w)
        = List.replicate 6 (.error .reservedOpcode)
      ∧ [0x00000101, 0x80000003].map (fun w => decode w) = List.replicate 2 (.error .nonzeroMbz) := by decide

/-! The well-formedness checks refuse an ill-formed word each (rule R304). -/

theorem test_wellFormed_refuses_mbz : commandWordWellFormed 0x00000101#32 = false := by decide
theorem test_wellFormed_refuses_reserved : commandWordWellFormed 0x00000023#32 = false := by decide
theorem test_wellFormed_accepts : commandWordWellFormed 0x00000022#32 = true := by decide

/-! The CRC commands. -/

/-- V-L2-CRC CRC-1. -/
theorem test_crc_init :
    seen (exec .crcInit { State.reset with crcState := 0x12345678 }) (fun t => (t.err, t.crcState, crcResult t))
      = some (0, 0xFFFFFFFF, 0) := by decide

/-- V-L2-CRC CRC-11, its second update. -/
theorem test_crc_update :
    seen (exec .crcUpdate { withSrc 0 digits 4 5 with crcState := 0x641C1F5C }) (fun t => (t.err, t.crcState, t.consumed))
      = some (0, 0x340BC6D9, 5) := by decide +kernel

/-- V-L2-CRC CRC-7: the sum is exact. -/
theorem test_crc_update_range :
    seen (exec .crcUpdate (withSrc 0 digits 0xFFFFFFFF 2)) (fun t => (t.err, t.crcState)) = some (0x200, 0xFFFFFFFF) := by
  decide +kernel

/-- V-L2-CRC CRC-2. -/
theorem test_crc_compute :
    seen (exec .crcCompute (withSrc 0 digits 0 9)) (fun t => (t.crcState, crcResult t, t.consumed))
      = some (0x340BC6D9, 0xCBF43926, 9) := by decide +kernel

/-- V-L2-CRC CRC-5 and CRC-6: the edge of the buffer. -/
theorem test_crc_compute_edge :
    seen (exec .crcCompute (withSrc 0 [] 0x10000 0)) (fun t => t.err) = some 0
      ∧ seen (exec .crcCompute (withSrc 0 [] 0x10000 1)) (fun t => t.err) = some 0x200 := by decide +kernel

/-- V-L1-2: the source's own CRC, 2882656334, and the one below it. -/
theorem test_crc_verify :
    seen (exec .crcVerify { withSrc 0x10 ([0x52, 0x75, 0x53, 0x74] ++ msg) 0x10 46 with chunkCrc := 0xABD1D84E })
        (fun t => (t.err, t.calcCrc, t.consumed)) = some (0, 0xABD1D84E, 46)
      ∧ seen (exec .crcVerify { withSrc 0x10 ([0x52, 0x75, 0x53, 0x74] ++ msg) 0x10 46 with chunkCrc := 0xABD1D84D })
        (fun t => (t.err, t.calcCrc, t.consumed)) = some (3, 0xABD1D84E, 0) := by decide +kernel

/-! The chunk commands. -/

/-- V-L2-TYPE: every row of the table. -/
theorem test_type_check :
    ([0x52755374, 0x52757374, 0x49454E44, 0x49484452, 0x69484452, 0x49484472, 0x69656E64, 0x74655374, 0x74455874] : List Word).map
        (fun t => seen (exec .typeCheck { State.reset with chunkType := t }) (fun u => u.typeflags))
      = [0x1B, 0x13, 0x2F, 0x4F, 0x0D, 0x1F, 0x11, 0x19, 0x1D].map some := by decide +kernel

theorem test_type_check_ranges :
    ([0x624C4F62, 0x61626364, 0x7A7A7A7A, 0x41424344, 0x5A5A5A5A, 0x52753174, 0x405B607B, 0x00000000, 0xFFFFFFFF] : List Word).map
        (fun t => seen (exec .typeCheck { State.reset with chunkType := t }) (fun u => u.typeflags))
      = [0x1D, 0x11, 0x11, 0x0F, 0x0F, 0x12, 0x16, 0x0E, 0x10].map some := by decide +kernel

/-- V-L2-GEN GEN-1. -/
theorem test_chunk_crc_gen :
    seen (exec .chunkCrcGen
        { withSrc 0x20 [0x68, 0x65, 0x6C, 0x6C, 0x6F] 0 0 with chunkType := 0x74655374, dataAddr := 0x20, chunkLen := 5 })
      (fun t => (t.err, t.chunkCrc, t.calcCrc)) = some (0, 0xA1F1C5CE, 0xA1F1C5CE) := by decide +kernel

/-- V-L2-GEN GEN-3 and GEN-4: the range check comes before the letters. -/
theorem test_chunk_crc_gen_errors :
    seen (exec .chunkCrcGen { State.reset with chunkType := 0x52753174 }) (fun t => t.err) = some 4
      ∧ seen (exec .chunkCrcGen { State.reset with chunkType := 0x52753174, dataAddr := 0xFFFF, chunkLen := 2 })
        (fun t => t.err) = some 0x200 := by decide +kernel

/-- V-L1-1, the source's decode scenario. -/
theorem test_chunk_decode :
    seen (exec .chunkDecode (withSrc 0x100 recRuSt 0x100 54))
        (fun t => (t.err, t.chunkLen, t.chunkType, t.chunkCrc, t.calcCrc, t.dataAddr, t.typeflags, t.consumed))
      = some (0, 0x2A, 0x52755374, 0xABD1D84E, 0xABD1D84E, 0x108, 0x1B, 0x36) := by decide +kernel

/-- V-L1-4 and V-L2-DEC: 11 bytes, 12 bytes with L = 1, a non-letter type with a right CRC (DEC-8) and a wrong one (DEC-9). -/
theorem test_chunk_decode_errors :
    seen (exec .chunkDecode (withSrc 0 recRuSt 0 11)) (fun t => t.err) = some 1
      ∧ seen (exec .chunkDecode (withSrc 0 (0x00 :: 0x00 :: 0x00 :: 0x01 :: recIend.drop 4) 0 12)) (fun t => t.err) = some 2
      ∧ seen (exec .chunkDecode (withSrc 0 ([0x00, 0x00, 0x00, 0x05, 0x52, 0x75, 0x31, 0x74, 0x68, 0x65, 0x6C, 0x6C, 0x6F]
          ++ [0x30, 0x88, 0x52, 0x00]) 0 17)) (fun t => (t.err, t.calcCrc)) = some (4, 0x30885200)
      ∧ seen (exec .chunkDecode (withSrc 0 ([0x00, 0x00, 0x00, 0x05, 0x52, 0x75, 0x31, 0x74, 0x68, 0x65, 0x6C, 0x6C, 0x6F]
          ++ [0x30, 0x88, 0x52, 0x01]) 0 17)) (fun t => (t.err, t.calcCrc)) = some (3, 0x30885200) := by decide +kernel

/-- V-L2-ENC ENC-1: the record, byte for byte. -/
theorem test_chunk_encode :
    seen (exec .chunkEncode { withSrc 0x200 msg 0 0 with
          chunkType := 0x52755374, dataAddr := 0x200, chunkLen := 42, dstAddr := 0x100, dstLen := 64 })
        (fun t => ((t.err, t.chunkCrc, t.calcCrc, t.consumed), bytesAt t 0x100 54))
      = some ((0, 0xABD1D84E, 0xABD1D84E, 54), some recRuSt) := by decide +kernel

/-- V-L2-ENC ENC-2, ENC-3, ENC-4 and ENC-7: capacity, overlap, in place, and capacity before letters. -/
theorem test_chunk_encode_errors :
    seen (exec .chunkEncode { withSrc 0x200 msg 0 0 with
          chunkType := 0x52755374, dataAddr := 0x200, chunkLen := 42, dstAddr := 0x100, dstLen := 53 }) (fun t => t.err) = some 0x400
      ∧ seen (exec .chunkEncode { withSrc 0x200 msg 0 0 with
          chunkType := 0x52755374, dataAddr := 0x200, chunkLen := 42, dstAddr := 0x1F0, dstLen := 64 }) (fun t => t.err) = some 0x300
      ∧ seen (exec .chunkEncode { withSrc 0x108 msg 0 0 with
          chunkType := 0x52755374, dataAddr := 0x108, chunkLen := 42, dstAddr := 0x100, dstLen := 54 })
          (fun t => (t.err, bytesAt t 0x100 54)) = some (0, some recRuSt)
      ∧ seen (exec .chunkEncode { State.reset with chunkType := 0x52753174, dstAddr := 0x100, dstLen := 11 }) (fun t => t.err)
          = some 0x400 := by decide +kernel

/-! The stream commands. -/

/-- V-L2-SIG SIG-1 and SIG-2. -/
theorem test_sig_check :
    seen (exec .sigCheck (withSrc 0 sig 0 8)) (fun t => (t.err, t.consumed)) = some (0, 8)
      ∧ seen (exec .sigCheck (withSrc 0 sig 0 7)) (fun t => (t.err, t.consumed)) = some (0x10, 0) := by decide +kernel

/-- V-L2-SIG SIG-3: 0D 0A swapped. -/
theorem test_sig_check_swapped :
    seen (exec .sigCheck (withSrc 0 [0x89, 0x50, 0x4E, 0x47, 0x0A, 0x0D, 0x1A, 0x0A] 0 8)) (fun t => t.err) = some 0x10 := by
  decide +kernel

/-- V-L2-SIG SIG-4. -/
theorem test_sig_emit :
    seen (exec .sigEmit { State.reset with dstAddr := 0x400, dstLen := 8 })
        (fun t => (t.err, t.consumed, bytesAt t 0x400 8)) = some (0, 8, some sig) := by decide +kernel

/-- V-L2-SIG SIG-5 and SIG-6. -/
theorem test_sig_emit_errors :
    seen (exec .sigEmit { State.reset with dstAddr := 0x400, dstLen := 7 }) (fun t => (t.err, t.buf)) = some (0x400, [])
      ∧ seen (exec .sigEmit { State.reset with dstAddr := 0xFFF9, dstLen := 8 }) (fun t => (t.err, t.buf)) = some (0x200, []) := by
  decide +kernel

/-- V-L2-PNG PNG-1: both descriptors. -/
theorem test_png_parse :
    seen (exec .pngParse { withSrc 0 streamMin 0 45 with dstAddr := 0x100, dstLen := 32 })
        (fun t => ((t.err, t.chunkCount, t.faultOffset, t.consumed), bytesAt t 0x100 32))
      = some ((0, 2, 0, 45), some ([0x00, 0x00, 0x00, 0x08, 0x00, 0x00, 0x00, 0x0D, 0x49, 0x48, 0x44, 0x52, 0x3A, 0x7E, 0x9B, 0x55]
          ++ [0x00, 0x00, 0x00, 0x21, 0x00, 0x00, 0x00, 0x00, 0x49, 0x45, 0x4E, 0x44, 0xAE, 0x42, 0x60, 0x82])) := by decide +kernel

/-- V-L2-PNG PNG-2, PNG-4, PNG-6, PNG-10, PNG-12. -/
theorem test_png_parse_errors :
    seen (exec .pngParse { withSrc 0 sig 0 8 with dstAddr := 0x100, dstLen := 32 })
        (fun t => (t.err, t.chunkCount, t.faultOffset)) = some (0x20, 0, 8)
      ∧ seen (exec .pngParse { withSrc 0 (streamMin ++ [0x00, 0x00, 0x00]) 0 48 with dstAddr := 0x100, dstLen := 32 })
        (fun t => (t.err, t.chunkCount, t.faultOffset)) = some (0x51, 2, 45)
      ∧ seen (exec .pngParse { withSrc 0 streamMin 0 45 with dstAddr := 0x100, dstLen := 16 })
        (fun t => (t.err, t.chunkCount, t.faultOffset)) = some (0x400, 1, 33)
      ∧ seen (exec .pngParse { withSrc 0 (sig ++ recIend) 0 20 with dstAddr := 0x100, dstLen := 32 })
        (fun t => (t.err, t.chunkCount, t.faultOffset)) = some (0x20, 1, 20)
      ∧ seen (exec .pngParse { withSrc 0 streamMin 0 45 with dstAddr := 0x20, dstLen := 32 })
        (fun t => (t.err, t.chunkCount, t.faultOffset)) = some (0x300, 0, 0) := by decide +kernel

/-! The machine around the commands. -/

/-- Reset, and one command word latched: the next step runs it (rule R610). -/
theorem test_step_runs_latched :
    seen (step ((State.reset).withFetchWord 32 0x10)) (fun t => (t.busy, t.done, t.err, t.typeflags, t.curCmd))
      = some (false, true, 0, 0x0E, none) := by decide +kernel

/-- V-L2-ILL: 0x80000003 completes with IllegalCommand and changes nothing else. -/
theorem test_step_illegal :
    seen (step ((State.reset).withFetchWord 32 0x80000003)) (fun t => (t.err, statusWord t, t.crcState))
      = some (0x100, 0x6, 0xFFFFFFFF) := by decide +kernel

/-- V-L2-HOST HOST-6: a write while BUSY is discarded, and STATUS reads BUSY and OVERRUN. -/
theorem test_busy_write_filter :
    seen (hostStep (.regWrite 0x2C 4 1) (State.reset.startCommand 0x10)) (fun t => (t.chunkType, statusWord t))
      = some (0, 0x9) := by decide +kernel

/-- V-L2-HOST HOST-5: the reserved bits of CTRL read 0. -/
theorem test_ctrl_reserved_bits :
    seen (hostStep (.regWrite 0x04 4 0xFFFFFFFF) State.reset) (fun t => regValue t .ctrl) = some 3 := by decide +kernel

/-- V-L2-HOST HOST-9: reset abandons the command in flight. -/
theorem test_reset_abandons :
    seen (hostStep .reset ({ State.reset with crcState := 0x12345678 }.startCommand 0x01))
        (fun t => (t.crcState, t.err, statusWord t, t.curCmd)) = some (0xFFFFFFFF, 0, 0, none) := by decide +kernel

/-- Entry U1: a host read of a byte nothing has written faults. -/
theorem test_unwritten_read_faults :
    hostStep (.bufRead 5 1) State.reset = .fault (.unwrittenByte 5) := by rfl

/-- Program P6: a program says with an `engine` line that the complete step falls between lines 6 and 7 (log entry 24). -/
theorem test_program_places_the_engine :
    (State.reset.withProgram [.rd .status, .engine, .rd .status]).agenda
      = [.host (.regRead 0x08 4), .engine, .host (.regRead 0x08 4)] := by decide

/-! Witnesses: for every statement of Certificates/Slice0/Obligations.lean that has hypotheses, states and operands that meet
them, at least one for each clause, at the edges where clauses meet. Each is named after its statement. -/

/-- A command word in flight, the engine's turn next. -/
def inFlight (w : Word) : State := State.reset.latch w

/-- From reset, with one turn to take. -/
def withTurn (t : Turn) : State := { State.reset with agenda := [t] }

/-- A command in flight and one turn to take. -/
def busyWithTurn (t : Turn) : State := { State.reset.startCommand 0x01 with agenda := [t] }

/-- "hello". -/
def hello : List Byte := [0x68, 0x65, 0x6C, 0x6C, 0x6F]

/-- A chunk of type `t` with the data "hello" at 0x20, to be encoded at `dst` in `cap` bytes. -/
def encodeHello (t dst cap : Word) : State :=
  { withSrc 0x20 hello 0 0 with chunkType := t, dataAddr := 0x20, chunkLen := 5, dstAddr := dst, dstLen := cap }

/-- The record of "Ru1t" and "hello", its CRC right (V-L2-DEC DEC-8). -/
def recRu1t : List Byte := [0x00, 0x00, 0x00, 0x05, 0x52, 0x75, 0x31, 0x74] ++ hello ++ [0x30, 0x88, 0x52, 0x00]

/-- The chunks of STREAM_MIN. -/
def ihdr : Chunk := { type := 0x49484452, data := [0x00, 0x00, 0x00, 0x01, 0x00, 0x00, 0x00, 0x01, 0x08, 0x00, 0x00, 0x00, 0x00] }
def iend : Chunk := { type := 0x49454E44, data := [] }

/-- A stream at 0 with a table of `cap` bytes at 0x100. -/
def parsing (stream : List Byte) (cap : Word) : State :=
  { withSrc 0 stream 0 (BitVec.ofNat 32 stream.length) with dstAddr := 0x100, dstLen := cap }

/-- The next state that a test has seen is there. -/
theorem exists_of_seen {α : Type} {r : Result} {f : State → α} {v : α} (h : seen r f = some v) :
    ∃ t, r = .next t ∧ f t = v := by
  cases r with
  | next t => exact ⟨t, rfl, by simpa [seen, nextOf] using h⟩
  | fault _ => simp [seen, nextOf] at h
  | refused _ => simp [seen, nextOf] at h

theorem test_stream_bytes : streamBytes [ihdr, iend] = streamMin := by decide +kernel

theorem witness_DecodeAndEncodeAgree :
    (∀ i ∈ [Instr.crcInit, .pngParse], i.wellFormed = true) ∧ decode 0x22 = .ok .pngParse := by decide

theorem witness_StepRunsTheDecodedCommand :
    (inFlight 0x22).busy = true ∧ (inFlight 0x22).curCmd = some 0x22 ∧ (inFlight 0x22).engineTurn []
      ∧ (State.reset.startCommand 0x22).engineTurn [] ∧ decode 0x22 = .ok .pngParse ∧ Instr.pngParse.wellFormed = true :=
  ⟨rfl, rfl, .inl rfl, .inr ⟨rfl, rfl⟩, by decide, rfl⟩

theorem witness_IllegalWordCompletesWithIllegalCommand :
    0x100 ≤ (0x100#32).toNat
      ∧ [0x00, 0x05, 0x0F, 0x14, 0x1F, 0x23, 0xFF].map reservedOpcode = List.replicate 7 true
      ∧ (inFlight 0x100).busy = true ∧ (inFlight 0x100).curCmd = some 0x100 ∧ (inFlight 0x100).engineTurn []
      ∧ (inFlight 0x23).curCmd = some 0x23 ∧ reservedOpcode ((0x23#32).toNat % 256) = true :=
  ⟨by decide, by decide, rfl, rfl, .inl rfl, rfl, by decide⟩

theorem witness_EngineIsIdleUnlessBusy :
    State.reset.busy = false ∧ State.reset.engineTurn [] ∧ (withTurn .engine).busy = false ∧ (withTurn .engine).engineTurn [] :=
  ⟨rfl, .inr ⟨rfl, rfl⟩, rfl, .inl rfl⟩

theorem witness_StepKeepsInvariant : (inFlight 0x10).Inv ∧ ∃ t, step (inFlight 0x10) = .next t ∧ t.done = true :=
  ⟨⟨by decide, by decide, by decide, by decide, by decide, by decide, by decide⟩, exists_of_seen (by decide +kernel)⟩

theorem witness_ResetMeetsInvariant :
    ({ Config.default with bufSize := 16 } : Config).wf = true ∧ ({ Config.default with bufSize := 2 ^ 31 } : Config).wf = true
      ∧ ({ Config.default with bufSize := 15 } : Config).wf = false := by decide

theorem witness_ParametersNeverChange : ∃ t, step (inFlight 0x10) = .next t ∧ t.busy = false :=
  exists_of_seen (by decide +kernel)

/-- Each bit rises and falls: BUSY and DONE. -/
theorem witness_StatusBitsChangeOnlyAsListed :
    seen (step (withTurn (.host (.regWrite 0x0C 4 0x01)))) (fun t => t.busy) = some true
      ∧ seen (step (busyWithTurn .engine)) (fun t => (t.busy, t.done)) = some (false, true)
      ∧ seen (step (busyWithTurn (.host .reset))) (fun t => t.busy) = some false
      ∧ seen (step { withTurn (.host (.regWrite 0x08 4 0x02)) with done := true }) (fun t => t.done) = some false
      ∧ seen (step { withTurn (.bus (.write 0x0C 4 0x01)) with done := true }) (fun t => t.done) = some false := by
  decide +kernel

/-- OVERRUN rises by each kind of filtered access, at the ports and through the bus (registers at 0, buffer at 0x100), and
falls. -/
theorem witness_StatusBitsChangeOnlyAsListed_overrun :
    [Turn.host (.regWrite 0x14 4 1), .host (.bufRead 0 1), .host (.bufWrite 0xFFFF 1 1), .bus (.write 0x0C 4 1),
        .bus (.read 0x100 1), .bus (.write 0x100 1 1)].map (fun x => seen (step (busyWithTurn x)) (fun t => t.overrun))
        = List.replicate 6 (some true)
      ∧ seen (step (busyWithTurn (.host (.regRead 0x14 4)))) (fun t => t.overrun) = some false
      ∧ seen (step { busyWithTurn (.host (.regWrite 0x08 4 0x08)) with overrun := true }) (fun t => t.overrun) = some false := by
  decide +kernel

theorem witness_ResetRestoresTheResetState :
    (busyWithTurn (.host .reset)).agenda = [.host .reset] ∧ (busyWithTurn (.host .reset)).busy = true
      ∧ (busyWithTurn (.host .powerOn)).agenda = [.host .powerOn] := by decide

/-- An empty region fits at BUF_SIZE and one byte there does not (V-L2-CRC CRC-5 and CRC-6). -/
theorem witness_CrcUpdateFeedsTheSourceRegion :
    (withSrc 0 digits 0 9).SrcFits ∧ digits.length = (withSrc 0 digits 0 9).srcLen.toNat ∧ Holds (withSrc 0 digits 0 9).buf 0 digits
      ∧ (withSrc 0 [] 0x10000 0).SrcFits ∧ ¬ (withSrc 0 [] 0x10000 1).SrcFits :=
  ⟨by decide, by decide, holds_writeBytes digits [] 0, by decide, by decide⟩

theorem witness_CrcComputeStartsAfresh :
    (withSrc 0xFFF7 digits 0xFFF7 9).SrcFits ∧ digits.length = (withSrc 0xFFF7 digits 0xFFF7 9).srcLen.toNat
      ∧ Holds (withSrc 0xFFF7 digits 0xFFF7 9).buf 0xFFF7 digits ∧ ¬ (withSrc 0xFFF8 digits 0xFFF8 9).SrcFits :=
  ⟨by decide, by decide, holds_writeBytes digits [] 0xFFF7, by decide⟩

theorem witness_CrcVerifyComparesWithChunkCrc :
    (withSrc 0 digits 0 9).SrcFits ∧ digits.length = (withSrc 0 digits 0 9).srcLen.toNat ∧ Holds (withSrc 0 digits 0 9).buf 0 digits
      ∧ crc32 digits = ({ withSrc 0 digits 0 9 with chunkCrc := 0xCBF43926 } : State).chunkCrc
      ∧ crc32 digits ≠ (withSrc 0 digits 0 9).chunkCrc ∧ ¬ (withSrc 0 digits 0xFFF8 9).SrcFits :=
  ⟨by decide, by decide, holds_writeBytes digits [] 0, by decide +kernel, by decide +kernel, by decide⟩

/-- V-L2-CRC CRC-11: "1234" and then "56789". -/
theorem witness_SegmentedCrcIsTheWholeCrc :
    Holds (withSrc 0 digits 0 9).buf 0 (digits.take 4 ++ digits.drop 4)
      ∧ seen (exec .crcInit (withSrc 0 digits 0 9)) (fun t => seen (exec .crcUpdate { t with srcLen := 4 }) (fun u =>
        seen (exec .crcUpdate { u with srcAddr := 4, srcLen := 5 }) (fun v => crcResult v))) = some (some (some 0xCBF43926)) :=
  ⟨holds_writeBytes digits [] 0, by decide +kernel⟩

theorem witness_SingleBitFlipChangesTheCrc : (7 : Nat) < 8 := by decide

theorem witness_CrcStateIsTheGeneratorsAlone :
    (∃ t, exec .typeCheck State.reset = .next t ∧ t.err = 0) ∧ ∃ t, exec .crcCompute (withSrc 0 digits 0 9) = .next t ∧ t.err = 0 :=
  ⟨exists_of_seen (by decide +kernel), exists_of_seen (by decide +kernel)⟩

theorem witness_TypeCheckReportsEveryProperty :
    toBe32 ({ State.reset with chunkType := 0x49454E44 } : State).chunkType = [0x49#8, 0x45#8, 0x4E#8, 0x44#8] := by decide

/-- "teSt" and "te1t"; a data region that ends at BUF_SIZE and one that ends a byte later. -/
theorem witness_ChunkCrcGenComputesTheChunkCrc :
    (encodeHello 0x74655374 0 0).DataFits ∧ LetterCode (encodeHello 0x74655374 0 0).chunkType
      ∧ hello.length = (encodeHello 0x74655374 0 0).chunkLen.toNat ∧ Holds (encodeHello 0x74655374 0 0).buf 0x20 hello
      ∧ ¬ LetterCode (encodeHello 0x74653174 0 0).chunkType
      ∧ ({ encodeHello 0x74655374 0 0 with dataAddr := 0xFFFB } : State).DataFits
      ∧ ¬ ({ encodeHello 0x74655374 0 0 with dataAddr := 0xFFFC } : State).DataFits :=
  ⟨by decide, by decide, by decide, holds_writeBytes hello [] 0x20, by decide, by decide, by decide⟩

/-- The smallest record, in an input of exactly 12 bytes. -/
theorem witness_ChunkDecodeAcceptsAGoodRecord :
    (withSrc 0 recIend 0 12).SrcFits ∧ ([] : List Byte).length = (0#32).toNat ∧ 12 + (0#32).toNat ≤ (withSrc 0 recIend 0 12).srcLen.toNat
      ∧ LetterCode 0x49454E44#32
      ∧ Holds (withSrc 0 recIend 0 12).buf 0 (fieldsBytes 0 0x49454E44 [] (crc32 (toBe32 0x49454E44 ++ []))) := by
  unfold Holds
  decide +kernel

/-- 11 bytes are too short; 12 bytes with L = 1 are too long. -/
theorem witness_ChunkDecodeFailsAtTheFirstCheck_length :
    ¬ (withSrc 0 recIend 0xFFF5 12).SrcFits
      ∧ (withSrc 0 recIend 0 11).SrcFits ∧ RecordFails (withSrc 0 recIend 0 11).buf 0 11 .tooShort
      ∧ RecordFails (withSrc 0 [0x00, 0x00, 0x00, 0x01] 0 12).buf 0 12 .tooLong :=
  ⟨by decide, by decide, show 11 < 12 by decide, by decide, 1, by unfold Holds; decide +kernel, by decide⟩

/-- A CRC field off by one, and a type byte "1" under a right CRC. -/
theorem witness_ChunkDecodeFailsAtTheFirstCheck_content :
    RecordFails (withSrc 0 [0x00, 0x00, 0x00, 0x00, 0x49, 0x45, 0x4E, 0x44, 0xAE, 0x42, 0x60, 0x83] 0 12).buf 0 12 .badCrc
      ∧ RecordFails (withSrc 0 recRu1t 0 17).buf 0 17 .generic
      ∧ (ChunkKind.generic, 0x004#32) ∈ [(ChunkKind.tooShort, 0x001#32), (.tooLong, 0x002#32), (.badCrc, 0x003#32), (.generic, 0x004#32)] :=
  ⟨⟨0, 0x49454E44, [], 0xAE426083, by decide, by decide, by unfold Holds; decide +kernel, by decide +kernel⟩,
    ⟨5, 0x52753174, hello, by decide, by decide, by unfold Holds; decide +kernel, by decide⟩, by decide⟩

/-- A record of exactly DST_LEN bytes, its data just behind it (at 0x0F), just before it (at 0x25), and in place (at 0x18). -/
theorem witness_ChunkEncodeWritesTheRecord :
    (encodeHello 0x74655374 0x0F 17).DataFits ∧ (encodeHello 0x74655374 0x0F 17).DstFits
      ∧ 12 + (encodeHello 0x74655374 0x0F 17).chunkLen.toNat ≤ (encodeHello 0x74655374 0x0F 17).dstLen.toNat
      ∧ ¬ RegionsOverlap 0x20 5 (0x0F#32).toNat 17 ∧ ¬ RegionsOverlap 0x20 5 (0x25#32).toNat 17 ∧ 0x20 = (0x18#32).toNat + 8
      ∧ LetterCode 0x74655374#32 ∧ hello.length = (encodeHello 0x74655374 0x0F 17).chunkLen.toNat
      ∧ Holds (encodeHello 0x74655374 0x0F 17).buf 0x20 hello :=
  ⟨by decide, by decide, by decide, by decide, by decide, by decide, by decide, by decide, holds_writeBytes hello [] 0x20⟩

/-- Each check of CHUNK_ENCODE one byte past its edge. -/
theorem witness_ChunkEncodeFailsAtTheFirstCheck :
    ¬ ({ encodeHello 0x74655374 0 17 with dataAddr := 0xFFFC } : State).DataFits ∧ ¬ (encodeHello 0x74655374 0xFFF0 17).DstFits
      ∧ (encodeHello 0x74655374 0x100 16).dstLen.toNat < 12 + (encodeHello 0x74655374 0x100 16).chunkLen.toNat
      ∧ RegionsOverlap 0x20 5 0x10 17 ∧ 0x20 ≠ 0x10 + 8 ∧ RegionsOverlap 0x20 5 0x24 17 ∧ 0x20 ≠ 0x24 + 8
      ∧ ¬ LetterCode (encodeHello 0x74653174 0x100 17).chunkType ∧ ¬ RegionsOverlap 0x20 5 0x100 17 := by decide

theorem witness_DecodeOfEncodedChunkGivesItBack :
    ∃ t u : State, exec .chunkEncode (encodeHello 0x74655374 0x100 17) = .next t ∧ t.err = 0 ∧ u.buf = t.buf ∧ u.cfg = t.cfg
      ∧ u.srcAddr = (encodeHello 0x74655374 0x100 17).dstAddr
      ∧ u.srcLen.toNat = 12 + (encodeHello 0x74655374 0x100 17).chunkLen.toNat := by
  obtain ⟨t, h, he⟩ := exists_of_seen (show seen (exec .chunkEncode (encodeHello 0x74655374 0x100 17)) (fun t => t.err) = some 0 by
    decide +kernel)
  exact ⟨t, { t with srcAddr := 0x100, srcLen := 17 }, h, he, rfl, rfl, rfl, rfl⟩

/-- The first byte of the type and the last of the CRC field. -/
theorem witness_FlippedRecordFailsWithBadCrc :
    (∃ t, exec .chunkDecode (withSrc 0 recIend 0 12) = .next t ∧ (t.err, t.chunkLen) = (0, 0)) ∧ 4 ≤ 11 ∧ 11 < 12 + (0#32).toNat
      ∧ readByte (withSrc 0 recIend 0 12).buf 4 = some 0x49 ∧ readByte (withSrc 0 recIend 0 12).buf 11 = some 0x82 :=
  ⟨exists_of_seen (by decide +kernel), by decide, by decide, by decide, by decide⟩

theorem witness_SigCheckComparesEightBytes :
    ¬ (withSrc 0 sig 0xFFF9 8).SrcFits ∧ (withSrc 0 sig 0 7).srcLen.toNat < 8 ∧ (withSrc 0 sig 0 8).SrcFits
      ∧ 8 ≤ (withSrc 0 sig 0 8).srcLen.toNat ∧ sig.length = 8 ∧ Holds (withSrc 0 sig 0 8).buf 0 sig
      ∧ sig = [0x89#8, 0x50#8, 0x4E#8, 0x47#8, 0x0D#8, 0x0A#8, 0x1A#8, 0x0A#8]
      ∧ Holds (withSrc 0 (sig.reverse) 0 8).buf 0 sig.reverse
      ∧ sig.reverse ≠ [0x89#8, 0x50#8, 0x4E#8, 0x47#8, 0x0D#8, 0x0A#8, 0x1A#8, 0x0A#8] :=
  ⟨by decide, by decide, by decide, by decide, by decide, holds_writeBytes sig [] 0, by decide, holds_writeBytes _ [] 0, by decide⟩

theorem witness_SigEmitWritesTheSignature :
    ¬ ({ State.reset with dstAddr := 0xFFF9, dstLen := 8 } : State).DstFits
      ∧ ({ State.reset with dstAddr := 0xFFF9, dstLen := 7 } : State).DstFits
      ∧ ({ State.reset with dstAddr := 0xFFF8, dstLen := 8 } : State).DstFits := by decide

/-- STREAM_MIN with a table of exactly two descriptors, and a stream of no chunks with the check off. -/
theorem witness_PngParseDescribesEveryChunk :
    (parsing streamMin 32).ParseOperands ∧ (∀ c ∈ [ihdr, iend], c.Valid)
      ∧ (streamBytes [ihdr, iend]).length = (parsing streamMin 32).srcLen.toNat
      ∧ Holds (parsing streamMin 32).buf 0 (streamBytes [ihdr, iend]) ∧ 16 * [ihdr, iend].length ≤ (parsing streamMin 32).dstLen.toNat
      ∧ RequiredChunks [ihdr, iend]
      ∧ ({ parsing sig 0 with structEn := false } : State).ParseOperands ∧ (streamBytes []).length = (parsing sig 0).srcLen.toNat
      ∧ Holds (parsing sig 0).buf 0 (streamBytes []) := by
  unfold Holds
  decide +kernel

/-- No chunk; one chunk; IEND not last (V-L2-PNG PNG-2 and PNG-10). -/
theorem witness_PngParseRequiresHeaderAndEnd :
    (parsing sig 32).ParseOperands ∧ (parsing sig 32).structEn = true ∧ (streamBytes []).length = (parsing sig 32).srcLen.toNat
      ∧ Holds (parsing sig 32).buf 0 (streamBytes []) ∧ ¬ RequiredChunks [] ∧ ¬ RequiredChunks [iend]
      ∧ ¬ RequiredChunks [ihdr, iend, ihdr] := by
  unfold Holds
  decide +kernel

/-- STREAM_MIN and three trailing bytes (V-L2-PNG PNG-4). -/
theorem witness_PngParseStopsAtTheFirstBadRecord :
    (parsing (streamMin ++ [0x00, 0x00, 0x00]) 32).ParseOperands ∧ (∀ c ∈ [ihdr, iend], c.Valid)
      ∧ (streamBytes [ihdr, iend]).length < (parsing (streamMin ++ [0x00, 0x00, 0x00]) 32).srcLen.toNat
      ∧ Holds (parsing (streamMin ++ [0x00, 0x00, 0x00]) 32).buf 0 (streamBytes [ihdr, iend])
      ∧ 16 * [ihdr, iend].length ≤ (parsing (streamMin ++ [0x00, 0x00, 0x00]) 32).dstLen.toNat
      ∧ RecordFails (parsing (streamMin ++ [0x00, 0x00, 0x00]) 32).buf 45 (48 - 45) .tooShort := by
  unfold Holds RecordFails
  decide +kernel

/-- The signature and then a record that is too long, one with a bad CRC, and one of type "Ru1t". -/
theorem witness_PngParseStopsAtTheFirstBadRecord_kinds :
    (parsing (sig ++ recRu1t) 0).ParseOperands ∧ (streamBytes []).length < (parsing (sig ++ recRu1t) 0).srcLen.toNat
      ∧ Holds (parsing (sig ++ recRu1t) 0).buf 0 (streamBytes [])
      ∧ RecordFails (parsing (sig ++ recRu1t) 0).buf 8 16 .tooLong
      ∧ RecordFails (parsing (sig ++ recIend.take 11 ++ [0x83]) 0).buf 8 12 .badCrc
      ∧ RecordFails (parsing (sig ++ recRu1t) 0).buf 8 17 .generic
      ∧ (ChunkKind.badCrc, 0x053#32) ∈ [(ChunkKind.tooShort, 0x051#32), (.tooLong, 0x052#32), (.badCrc, 0x053#32), (.generic, 0x054#32)] :=
  ⟨by decide +kernel, by decide +kernel, by unfold Holds; decide +kernel,
    ⟨by decide, 5, by unfold Holds; decide +kernel, by decide⟩,
    ⟨0, 0x49454E44, [], 0xAE426083, by decide, by decide, by unfold Holds; decide +kernel, by decide +kernel⟩,
    ⟨5, 0x52753174, hello, by decide, by decide, by unfold Holds; decide +kernel, by decide⟩, by decide⟩

/-- Room for one descriptor and fifteen bytes more. -/
theorem witness_PngParseStopsWhenTheTableIsFull :
    (parsing streamMin 31).ParseOperands ∧ (∀ c ∈ [ihdr] ++ [iend], c.Valid)
      ∧ (streamBytes ([ihdr] ++ [iend])).length ≤ (parsing streamMin 31).srcLen.toNat
      ∧ Holds (parsing streamMin 31).buf 0 (streamBytes ([ihdr] ++ [iend])) ∧ 16 * [ihdr].length ≤ (parsing streamMin 31).dstLen.toNat
      ∧ (parsing streamMin 31).dstLen.toNat < 16 * ([ihdr].length + 1) := by
  unfold Holds
  decide +kernel

theorem witness_PngParseChecksOperandsThenSignature :
    ¬ ({ parsing sig 32 with srcAddr := 0xFFF9 } : State).SrcFits ∧ ¬ ({ parsing sig 32 with dstAddr := 0xFFE1 } : State).DstFits
      ∧ RegionsOverlap 0 8 7 32 ∧ ¬ RegionsOverlap 0 8 8 32 ∧ ({ parsing sig 32 with dstAddr := 8 } : State).ParseOperands
      ∧ (parsing (sig.take 7) 32).ParseOperands ∧ (parsing (sig.take 7) 32).srcLen.toNat < 8
      ∧ sig.reverse.length = 8 ∧ Holds (parsing sig.reverse 32).buf 0 sig.reverse
      ∧ sig.reverse ≠ [0x89#8, 0x50#8, 0x4E#8, 0x47#8, 0x0D#8, 0x0A#8, 0x1A#8, 0x0A#8] := by
  unfold Holds
  decide +kernel

/-- The walk of STREAM_MIN finishes. -/
theorem witness_FinishedWalkStandsAtTheStreamEnd :
    8 ≤ (parsing streamMin 32).srcLen.toNat ∧ ∃ w, (parsing streamMin 32).walk = .ok (.finished w) := by
  have h : (match (parsing streamMin 32).walk with
    | .ok (.finished _) => true
    | _ => false) = true := by decide +kernel
  refine ⟨by decide +kernel, ?_⟩
  split at h
  · rename_i w hw
    exact ⟨w, hw⟩
  · cases h

theorem witness_SerializingCommandsBuildTheStream :
    (∃ t, exec .sigEmit { State.reset with dstAddr := 0x400, dstLen := 8 } = .next t ∧ t.err = 0)
      ∧ Holds ({ encodeHello 0x74655374 0x408 17 with buf := writeBytes (writeBytes [] 0x20 hello) 0x400 sig } : State).buf 0x400
        (streamBytes [])
      ∧ ∃ t, exec .chunkEncode { encodeHello 0x74655374 0x408 17 with buf := writeBytes (writeBytes [] 0x20 hello) 0x400 sig } = .next t
        ∧ t.err = 0 :=
  ⟨exists_of_seen (by decide +kernel), holds_writeBytes sig _ 0x400, exists_of_seen (by decide +kernel)⟩

theorem witness_CommandsWriteOnlyTheirResultRegisters :
    (∃ t, exec .typeCheck State.reset = .next t ∧ t.err = 0) ∧ Reg.srcAddr ≠ .status ∧ Reg.srcAddr ≠ .err
      ∧ Reg.srcAddr ∉ resultRegs .typeCheck :=
  ⟨exists_of_seen (by decide +kernel), by decide, by decide, by decide⟩

theorem witness_FailedCommandsAreAtomic :
    (∃ t, exec .crcUpdate (withSrc 0 [] 0x10000 1) = .next t ∧ t.err = 0x200) ∧ (0x200#32 ≠ 0#32)
      ∧ Reg.crcState ∉ failureRegs .crcUpdate ∧ Instr.crcUpdate ≠ .pngParse :=
  ⟨exists_of_seen (by decide +kernel), by decide, by decide, by decide⟩

theorem witness_CommandsLeaveTheCompletionEffects : ∃ t, exec .pngParse (parsing streamMin 32) = .next t ∧ t.err = 0 :=
  exists_of_seen (by decide +kernel)

/-- One witness for each kind: block, chunk, container alone, container with a chunk kind. -/
theorem witness_ErrHoldsOneKind :
    (∃ t, runWord 0x100 State.reset = .next t ∧ t.err = 0x100) ∧ (∃ t, runWord 0x12 State.reset = .next t ∧ t.err = 0x001)
      ∧ (∃ t, runWord 0x20 State.reset = .next t ∧ t.err = 0x010)
      ∧ ∃ t, runWord 0x22 (parsing (streamMin ++ [0x00]) 32) = .next t ∧ t.err = 0x051 :=
  ⟨exists_of_seen (by decide +kernel), exists_of_seen (by decide +kernel), exists_of_seen (by decide +kernel),
    exists_of_seen (by decide +kernel)⟩

theorem witness_ReadingCommandsKeepEveryByte : ∃ t, exec .chunkDecode (withSrc 0 recIend 0 12) = .next t ∧ t.err = 0 :=
  exists_of_seen (by decide +kernel)

theorem witness_StoringCommandsKeepEveryOtherByte :
    (∃ t, exec .chunkEncode (encodeHello 0x74655374 0x100 17) = .next t ∧ t.err = 0)
      ∧ (∃ t, exec .sigEmit { State.reset with dstAddr := 0x400, dstLen := 8 } = .next t ∧ t.err = 0)
      ∧ ∃ t, exec .pngParse (parsing streamMin 32) = .next t ∧ t.err = 0 :=
  ⟨exists_of_seen (by decide +kernel), exists_of_seen (by decide +kernel), exists_of_seen (by decide +kernel)⟩

/-- An unwritten source byte, and a written source region. -/
theorem witness_CommandsStopOnlyAtUnwrittenOperandBytes :
    exec .crcUpdate (withSrc 0 [0x31] 0 2) = .fault (.unwrittenByte 1)
      ∧ ∀ k : Nat, k < (readRegion .crcUpdate (withSrc 0 digits 0 9)).2 →
        (readByte (withSrc 0 digits 0 9).buf ((readRegion .crcUpdate (withSrc 0 digits 0 9)).1 + k)).isSome = true :=
  ⟨by rfl, by decide +kernel⟩

/-- A record encoded over two memories, one of which has a byte where the record goes; and a table written after a failed walk. -/
theorem witness_CommandsReadOnlyTheirOperandBytes_written :
    (∀ k : Nat, k < (readRegion .chunkEncode (encodeHello 0x74655374 0x100 17)).2 →
      readByte (writeBytes [(0x100, 0xFF)] 0x20 hello) (0x20 + k) = readByte (encodeHello 0x74655374 0x100 17).buf (0x20 + k))
      ∧ (∃ t, exec .chunkEncode (encodeHello 0x74655374 0x100 17) = .next t
        ∧ writtenRegion .chunkEncode (encodeHello 0x74655374 0x100 17) t = (0x100, 17))
      ∧ ∃ t, exec .pngParse (parsing streamMin 16) = .next t ∧ writtenRegion .pngParse (parsing streamMin 16) t = (0x100, 16) :=
  ⟨by decide +kernel, exists_of_seen (by decide +kernel), exists_of_seen (by decide +kernel)⟩

/-- Two memories that differ in the byte behind the source region. -/
theorem witness_CommandsReadOnlyTheirOperandBytes :
    (∀ k : Nat, k < (readRegion .crcUpdate (withSrc 0 digits 0 9)).2 →
      readByte (writeBytes [] 0 (digits ++ [0xFF])) ((readRegion .crcUpdate (withSrc 0 digits 0 9)).1 + k)
        = readByte (withSrc 0 digits 0 9).buf ((readRegion .crcUpdate (withSrc 0 digits 0 9)).1 + k))
      ∧ ∃ t, exec .crcUpdate (withSrc 0 digits 0 9) = .next t ∧ t.err = 0 :=
  ⟨by decide +kernel, exists_of_seen (by decide +kernel)⟩

theorem witness_LengthsNeverWrap :
    State.reset.cfg.wf = true ∧ (∃ t, exec .chunkDecode (withSrc 0 recIend 0 12) = .next t ∧ t.err = 0)
      ∧ (∃ t, exec .chunkEncode (encodeHello 0x74655374 0x100 17) = .next t ∧ t.err = 0)
      ∧ (parsing streamMin 32).ParseOperands ∧ (∃ t, exec .pngParse (parsing streamMin 32) = .next t ∧ t.err = 0)
      ∧ (∃ t, exec .pngParse (parsing streamMin 16) = .next t ∧ t.err = 0x400)
      ∧ ∃ t, exec .pngParse (parsing (sig.take 7) 32) = .next t ∧ t.err = 0x010 :=
  ⟨by decide, exists_of_seen (by decide +kernel), exists_of_seen (by decide +kernel), by decide +kernel,
    exists_of_seen (by decide +kernel), exists_of_seen (by decide +kernel), exists_of_seen (by decide +kernel)⟩

theorem witness_RegisterReadsFollowTheMap :
    ∀ off ∈ [0x00, 0x04, 0x38, 0x50, 0x54, 0xFC], (withTurn (.host (.regRead off 4))).agenda = [.host (.regRead off 4)]
      ∧ off % 4 = 0 ∧ off < 0x100 := by decide

theorem witness_WritableRegistersStoreTheValue :
    ∀ off ∈ [0x04, 0x14, 0x18, 0x1C, 0x20, 0x24, 0x28, 0x2C, 0x30, 0x34],
      (withTurn (.host (.regWrite off 4 0xFFFFFFFF))).busy = false
        ∧ (withTurn (.host (.regWrite off 4 0xFFFFFFFF))).agenda = [.host (.regWrite off 4 0xFFFFFFFF)] := by decide

theorem witness_ReadOnlyAndReservedOffsetsIgnoreWrites :
    ∀ off ∈ [0x00, 0x10, 0x38, 0x4C, 0x50, 0x54, 0xFC], (withTurn (.host (.regWrite off 4 1))).busy = false
      ∧ (withTurn (.host (.regWrite off 4 1))).agenda = [.host (.regWrite off 4 1)] ∧ off % 4 = 0 ∧ off < 0x100 := by decide

theorem witness_CmdWriteStartsACommand :
    (withTurn (.host (.regWrite 0x0C 4 0x80000003))).busy = false
      ∧ (busyWithTurn (.host (.regWrite 0x0C 4 0x01))).busy = true
      ∧ (busyWithTurn (.host (.regWrite 0x0C 4 0x01))).agenda = [.host (.regWrite 0x0C 4 0x01)] := by decide

theorem witness_BusyFilterDiscardsHostAccesses :
    (busyWithTurn (.host (.regWrite 0xFC 4 1))).busy = true
      ∧ (busyWithTurn (.host (.regWrite 0xFC 4 1))).agenda = [.host (.regWrite 0xFC 4 1)]
      ∧ (busyWithTurn (.host (.bufWrite 0xFFFF 1 1))).agenda = [.host (.bufWrite 0xFFFF 1 1)]
      ∧ (busyWithTurn (.host (.bufRead 0xFFFF 1))).agenda = [.host (.bufRead 0xFFFF 1)] ∧ 0xFFFF < State.reset.cfg.bufSize
      ∧ seen (step { busyWithTurn (.host (.regWrite 0x08 4 0x08)) with overrun := true }) (fun t => t.overrun) = some false := by
  decide +kernel

theorem witness_StatusWriteClearsOnlyWhatItNames :
    (busyWithTurn (.host (.regWrite 0x08 4 0x0A))).agenda = [.host (.regWrite 0x08 4 0x0A)]
      ∧ (withTurn (.host (.regWrite 0x08 4 0x0A))).agenda = [.host (.regWrite 0x08 4 0x0A)] := by decide

theorem witness_IdleBufferPortReadsAndWritesBytes :
    (withTurn (.host (.bufWrite 0xFFFF 1 0x5A))).busy = false ∧ 0xFFFF < State.reset.cfg.bufSize
      ∧ (withTurn (.host (.bufWrite 0xFFFF 1 0x5A))).agenda = [.host (.bufWrite 0xFFFF 1 0x5A)]
      ∧ (withTurn (.host (.bufRead 0xFFFF 1))).agenda = [.host (.bufRead 0xFFFF 1)]
      ∧ readByte ({ withTurn (.host (.bufRead 0xFFFF 1)) with buf := [(0xFFFF, 0x5A)] } : State).buf 0xFFFF = some 0x5A
      ∧ readByte (withTurn (.host (.bufRead 0xFFFF 1))).buf 0xFFFF = none := by decide

theorem witness_UndefinedHostAccessesAreRefused :
    ∀ t ∈ [Turn.host (.regRead 0x00 1), .host (.regRead 0x02 4), .host (.regWrite 0x00 2 1), .host (.regWrite 0x01 4 1),
        .host (.regRead 0x100 4), .host (.regWrite 0x100 4 1), .host (.bufRead 0 4), .host (.bufWrite 0 2 1), .host (.bufRead 0x10000 1), .host (.bufWrite 0x10000 1 1)],
      (withTurn t).agenda = [t] ∧ State.reset.cfg.bufSize ≤ 0x10000 := by decide

theorem witness_NothingChangesWhileACommandIsInFlight :
    (busyWithTurn (.host (.bufRead 0 1))).busy = true ∧ (busyWithTurn (.host (.bufRead 0 1))).done = false
      ∧ ∃ t, step (busyWithTurn (.host (.bufRead 0 1))) = .next t ∧ t.overrun = true :=
  ⟨by decide, by decide, exists_of_seen (by decide +kernel)⟩

/-- A buffer of 16 written bytes, a command in flight, and a WAIT. -/
theorem witness_WaitEndsWithTheCommandCompleted :
    let s : State := { (State.resetWith { Config.default with bufSize := 16 }).startCommand 0x03 with
      buf := writeBytes [] 0 (List.replicate 16 0x00), agenda := [.wait 0] }
    s.busy = true ∧ s.curCmd.isSome = true ∧ s.agenda = [.wait 0] ∧ Written s.buf 0 s.cfg.bufSize := by
  unfold Written
  decide +kernel

/-- The parameters of State.reset keep the windows apart: the registers end where the buffer begins. -/
theorem witness_BusAddressesReachTheTwoWindows :
    State.reset.cfg.baseAddr + 0x100 ≤ State.reset.cfg.bufBase
      ∧ (withTurn (.bus (.read (State.reset.cfg.baseAddr + 0xFC) 4))).agenda = [.bus (.read (State.reset.cfg.baseAddr + 0xFC) 4)]
      ∧ (withTurn (.bus (.write State.reset.cfg.bufBase 1 7))).agenda = [.bus (.write (State.reset.cfg.bufBase + 0) 1 7)]
      ∧ 0xFC < 0x100 ∧ 0 < State.reset.cfg.bufSize := by decide

end Sys2Proof.Tests
end

section
/-! PROOFS. The statements of spec/00_scope.md: byte order, the parameters, the machine's invariant, and exact lengths. -/

namespace Sys2Proof.Machine

/-! How a command ends (rules R240 and R610), said once for all eleven. -/

/-- What every command that answers a next state has done: the completion effects with a legal ERR, the environment kept,
and TYPEFLAGS as it was or the flags of some type code. -/
structure CommandEnd (s t : State) : Prop where
  environment : s.sameEnvironment t
  completed : t.completed
  errLegal : t.err ∈ legalErrs
  flags : t.typeflags = s.typeflags ∨ ∃ ty : Word, t.typeflags = typeFlagsOf ty

theorem zero_mem_legalErrs : 0#32 ∈ legalErrs := by decide

/-- A raised error shows in ERR (rule R330). -/
theorem finish_raised_err_ne_zero (u : State) (e : Raised) : (u.finish (errCode e)).err ≠ 0#32 := errCode_ne_zero e

theorem CommandEnd.of_complete {s u : State} (he : s.sameEnvironment u)
    (hf : u.typeflags = s.typeflags ∨ ∃ ty : Word, u.typeflags = typeFlagsOf ty) : CommandEnd s (u.finish 0#32) :=
  ⟨he, ⟨rfl, rfl, rfl⟩, zero_mem_legalErrs, hf⟩

theorem CommandEnd.of_raise {s u : State} (e : Raised) (he : s.sameEnvironment u) (hf : u.typeflags = s.typeflags) :
    CommandEnd s (u.finish (errCode e)) :=
  ⟨he, ⟨rfl, rfl, rfl⟩, errCode_legal e, .inl hf⟩

theorem sameEnvironment_refl (s : State) : s.sameEnvironment s := ⟨rfl, rfl, rfl, rfl, rfl, rfl⟩

/-- A command that raises with no register result ends as every command does. -/
theorem CommandEnd.of_raise_self (s : State) (e : Raised) : CommandEnd s (s.finish (errCode e)) :=
  .of_raise e (sameEnvironment_refl s) rfl

/-- Every command ends with the completion effects and keeps the environment (rule R610). -/
theorem exec_commandEnd {i : Instr} {s t : State} (h : exec i s = .next t) : CommandEnd s t := by
  cases i with
  | crcInit =>
    rw [execCrcInit_next h]
    exact .of_complete (sameEnvironment_refl s) (.inl rfl)
  | crcUpdate =>
    rcases execCrcUpdate_next h with ⟨-, rfl⟩ | ⟨-, bs, -, rfl⟩
    · exact .of_raise_self s _
    · exact .of_complete (sameEnvironment_refl s) (.inl rfl)
  | crcCompute =>
    rcases execCrcCompute_next h with ⟨-, rfl⟩ | ⟨-, bs, -, rfl⟩
    · exact .of_raise_self s _
    · exact .of_complete (sameEnvironment_refl s) (.inl rfl)
  | crcVerify =>
    rcases execCrcVerify_next h with ⟨-, rfl⟩ | ⟨-, bs, -, ⟨-, rfl⟩ | ⟨-, rfl⟩⟩
    · exact .of_raise_self s _
    · exact .of_complete (sameEnvironment_refl s) (.inl rfl)
    · exact .of_raise _ (sameEnvironment_refl s) rfl
  | typeCheck =>
    rw [execTypeCheck_next h]
    exact .of_complete (sameEnvironment_refl s) (.inr ⟨_, rfl⟩)
  | chunkCrcGen =>
    rcases execChunkCrcGen_next h with ⟨-, rfl⟩ | ⟨-, -, rfl⟩ | ⟨-, -, d, -, rfl⟩
    · exact .of_raise_self s _
    · exact .of_raise_self s _
    · exact .of_complete (sameEnvironment_refl s) (.inl rfl)
  | chunkDecode =>
    rcases execChunkDecode_next h with ⟨-, rfl⟩ | ⟨-, r, -, ⟨len, ty, st, crc, -, rfl⟩ | ⟨k, -, rfl⟩ | ⟨k, crc, -, rfl⟩⟩
    · exact .of_raise_self s _
    · exact .of_complete (sameEnvironment_refl s) (.inr ⟨ty, rfl⟩)
    · exact .of_raise_self s _
    · exact .of_raise _ (sameEnvironment_refl s) rfl
  | chunkEncode =>
    rcases execChunkEncode_next h with ⟨e, -, rfl⟩ | ⟨-, d, -, rfl⟩
    · exact .of_raise_self s _
    · exact .of_complete (sameEnvironment_refl s) (.inl rfl)
  | sigCheck =>
    rcases execSigCheck_next h with ⟨-, rfl⟩ | ⟨-, ok, -, ⟨-, rfl⟩ | ⟨-, rfl⟩⟩
    · exact .of_raise_self s _
    · exact .of_complete (sameEnvironment_refl s) (.inl rfl)
    · exact .of_raise_self s _
  | sigEmit =>
    rcases execSigEmit_next h with ⟨-, rfl⟩ | ⟨-, -, rfl⟩ | ⟨-, -, rfl⟩
    · exact .of_raise_self s _
    · exact .of_raise_self s _
    · exact .of_complete (sameEnvironment_refl s) (.inl rfl)
  | pngParse =>
    rcases execPngParse_next h with
      ⟨e, -, rfl⟩ | ⟨-, ⟨-, rfl⟩ | ⟨-, ⟨e, w, -, rfl⟩ | ⟨w, -, ⟨-, -, rfl⟩ | ⟨-, rfl⟩⟩⟩⟩
    · exact .of_raise_self s _
    · exact .of_raise _ (sameEnvironment_refl s) rfl
    · exact .of_raise _ (sameEnvironment_refl s) rfl
    · exact .of_raise _ (sameEnvironment_refl s) rfl
    · exact .of_complete (sameEnvironment_refl s) (.inl rfl)

/-- A latched word, legal or not, ends with the completion effects (rules R303 and R610). -/
theorem runWord_commandEnd {w : Word} {s t : State} (h : runWord w s = .next t) : CommandEnd s t := by
  rcases runWord_next h with ⟨i, -, hx⟩ | rfl
  · exact exec_commandEnd hx
  · exact .of_raise_self s _

/-- A latched word keeps memory canonical and inside the buffer (rule R133). -/
theorem runWord_memory {w : Word} {s t : State} (h : runWord w s = .next t) (hw : s.buf.wf = true)
    (hb : addressesBelow s.buf s.cfg.bufSize = true) : t.buf.wf = true ∧ addressesBelow t.buf s.cfg.bufSize = true := by
  rcases runWord_next h with ⟨i, -, hx⟩ | rfl
  · exact exec_memory hx hw hb
  · exact ⟨hw, hb⟩

/-! The invariant under each kind of change. -/

/-- A change to no field the invariant speaks of, but for a DONE that may fall, keeps it. -/
theorem State.Inv.of_same {s t : State} (h : s.Inv) (hcfg : t.cfg = s.cfg) (hbuf : t.buf = s.buf) (hbusy : t.busy = s.busy)
    (hcmd : t.curCmd = s.curCmd) (herr : t.err = s.err) (hflags : t.typeflags = s.typeflags)
    (hdone : s.done = false → t.done = false) : t.Inv where
  config := by rw [hcfg]; exact h.config
  canonical := by rw [hbuf]; exact h.canonical
  inside := by rw [hbuf, hcfg]; exact h.inside
  latched := by rw [hbusy, hcmd]; exact h.latched
  inFlight hb := by
    obtain ⟨he, hd⟩ := h.inFlight (hbusy ▸ hb)
    exact ⟨herr.trans he, hdone hd⟩
  errLegal := by rw [herr]; exact h.errLegal
  flagsReserved := by rw [hflags]; exact h.flagsReserved

/-- With no command in flight the invariant asks for the parameters, the memory, a legal ERR and the reserved flags. -/
theorem State.Inv.of_idle {t : State} (hcfg : t.cfg.wf = true) (hw : t.buf.wf = true)
    (hb : addressesBelow t.buf t.cfg.bufSize = true) (hbusy : t.busy = false) (hcmd : t.curCmd = none)
    (herr : t.err ∈ legalErrs) (hflags : t.typeflags >>> 7 = 0#32) : t.Inv where
  config := hcfg
  canonical := hw
  inside := hb
  latched := by rw [hbusy, hcmd]; rfl
  inFlight h := by rw [hbusy] at h; cases h
  errLegal := herr
  flagsReserved := hflags

theorem State.Inv.withAgenda {s : State} (h : s.Inv) (rest : List Turn) : State.Inv { s with agenda := rest } :=
  h.of_same rfl rfl rfl rfl rfl rfl id

theorem State.Inv.pushRead {s : State} (h : s.Inv) (r : Readback) : (s.pushRead r).Inv :=
  h.of_same rfl rfl rfl rfl rfl rfl id

theorem State.Inv.noteOverrun {s : State} (h : s.Inv) : s.noteOverrun.Inv :=
  h.of_same rfl rfl rfl rfl rfl rfl id

theorem State.Inv.writeStatus {s : State} (h : s.Inv) (v : Word) : (s.writeStatus v).Inv :=
  h.of_same rfl rfl rfl rfl rfl rfl fun hd => by simp [hd]

/-- Starting a command latches its word and clears ERR and DONE together with setting BUSY (rule R113). -/
theorem State.Inv.startCommand {s : State} (h : s.Inv) (w : Word) : (s.startCommand w).Inv where
  config := h.config
  canonical := h.canonical
  inside := h.inside
  latched := rfl
  inFlight _ := ⟨rfl, rfl⟩
  errLegal := zero_mem_legalErrs
  flagsReserved := h.flagsReserved

theorem State.Inv.writeIdle {s : State} (h : s.Inv) (r : Reg) (v : Word) : (s.writeIdle r v).Inv := by
  by_cases hr : r = .cmd
  · subst hr
    exact h.startCommand v
  · obtain ⟨hcfg, hbuf, -, -, hflags, -, hcmd⟩ := writeIdle_frame s r v
    obtain ⟨hbusy, hdone, herr, hcur⟩ := hcmd hr
    exact h.of_same hcfg hbuf hbusy hcur herr hflags fun hd => hdone.trans hd

theorem State.Inv.writeOffset {s : State} (h : s.Inv) (off : Nat) (v : Word) : (s.writeOffset off v).Inv := by
  rcases writeOffset_cases s off v with ⟨-, e⟩ | ⟨-, -, e⟩ | ⟨-, -, r, -, e⟩ | ⟨-, -, -, e⟩ <;> rw [e]
  · exact h.writeStatus v
  · exact h.noteOverrun
  · exact h.writeIdle r v
  · exact h

theorem State.Inv.writeByte {s : State} (h : s.Inv) {x : Nat} (hx : x < s.cfg.bufSize) (b : Byte) :
    State.Inv { s with buf := writeByte s.buf x b } :=
  { h with
    canonical := writeByte_wf _ _ _ h.canonical
    inside := writeByte_below _ _ _ _ h.inside hx }

theorem State.Inv.resetHeld {s : State} (h : s.Inv) : s.resetHeld.Inv :=
  .of_idle h.config h.canonical h.inside rfl rfl zero_mem_legalErrs BitVec.zero_ushiftRight

theorem State.Inv.powerOn {s : State} (h : s.Inv) : s.powerOn.Inv :=
  .of_idle h.config rfl rfl rfl rfl zero_mem_legalErrs BitVec.zero_ushiftRight

/-! The invariant under each kind of turn (rule R230). -/

theorem hostStep_inv {a : HostAccess} {s t : State} (hs : s.Inv) (h : hostStep a s = .next t) : t.Inv := by
  rcases hostStep_next h with ⟨off, -, -, -, rfl⟩ | ⟨off, v, -, -, -, rfl⟩ | ⟨x, -, -, ⟨-, rfl⟩ | ⟨-, b, -, rfl⟩⟩
    | ⟨x, b, -, hx, ⟨-, rfl⟩ | ⟨-, rfl⟩⟩ | ⟨-, rfl⟩ | ⟨-, rfl⟩
  · exact hs.pushRead _
  · exact hs.writeOffset off v
  · exact hs.noteOverrun.pushRead _
  · exact hs.pushRead _
  · exact hs.noteOverrun
  · exact hs.writeByte hx b
  · exact hs.resetHeld
  · exact hs.powerOn

theorem busStep_inv {b : BusAccess} {s t : State} (hs : s.Inv) (h : busStep b s = .next t) : t.Inv := by
  obtain ⟨a, ha, -⟩ := busStep_next h
  exact hostStep_inv hs ha

theorem waitStep_inv {k : Nat} {rest : List Turn} {s t : State} (hs : s.Inv) (h : waitStep k rest s = .next t) : t.Inv := by
  obtain ⟨ag, rfl⟩ := waitStep_next h
  exact (hs.pushRead _).withAgenda ag

/-- A completed command leaves the machine idle, its memory inside the buffer (rules R133 and R610). -/
theorem runWord_inv {w : Word} {s t : State} (hs : s.Inv) (h : runWord w s = .next t) : t.Inv := by
  obtain ⟨⟨hcfg, -⟩, ⟨hbusy, -, hcmd⟩, herr, hflags⟩ := runWord_commandEnd h
  obtain ⟨hw, hb⟩ := runWord_memory h hs.canonical hs.inside
  rw [← hcfg] at hb
  refine .of_idle (by rw [hcfg]; exact hs.config) hw hb hbusy hcmd herr ?_
  rcases hflags with hf | ⟨ty, hf⟩ <;> rw [hf]
  · exact hs.flagsReserved
  · exact typeFlagsOf_reserved ty

theorem engineStep_inv {s t : State} (hs : s.Inv) (h : engineStep s = .next t) : t.Inv := by
  rcases engineStep_next h with ⟨-, rfl⟩ | ⟨-, w, -, hr⟩
  · exact hs
  · exact runWord_inv hs hr

/-- Settles O8: each kind of turn keeps the invariant. -/
theorem stepKeepsInvariant : Obligations.StepKeepsInvariant := by
  intro s t hs h
  rcases step_next h with ⟨rest, -, ht⟩ | ⟨a, rest, -, ht⟩ | ⟨b, rest, -, ht⟩ | ⟨k, rest, -, ht⟩
  · exact engineStep_inv (hs.withAgenda rest) ht
  · exact hostStep_inv (hs.withAgenda rest) ht
  · exact busStep_inv (hs.withAgenda rest) ht
  · exact waitStep_inv hs ht

/-! The parameters (rule R10). -/

theorem writeOffset_cfg (s : State) (off : Nat) (v : Word) : (s.writeOffset off v).cfg = s.cfg := by
  rcases writeOffset_cases s off v with ⟨-, e⟩ | ⟨-, -, e⟩ | ⟨-, -, r, -, e⟩ | ⟨-, -, -, e⟩ <;> rw [e]
  · exact s.writeStatus_cfg v
  · exact s.noteOverrun_cfg
  · exact (writeIdle_frame s r v).1

theorem hostStep_cfg {a : HostAccess} {s t : State} (h : hostStep a s = .next t) : t.cfg = s.cfg := by
  rcases hostStep_next h with ⟨off, -, -, -, rfl⟩ | ⟨off, v, -, -, -, rfl⟩ | ⟨x, -, -, ⟨-, rfl⟩ | ⟨-, b, -, rfl⟩⟩
    | ⟨x, b, -, -, ⟨-, rfl⟩ | ⟨-, rfl⟩⟩ | ⟨-, rfl⟩ | ⟨-, rfl⟩
  case inr.inl => exact writeOffset_cfg s off v
  all_goals rfl

theorem engineStep_cfg {s t : State} (h : engineStep s = .next t) : t.cfg = s.cfg := by
  rcases engineStep_next h with ⟨-, rfl⟩ | ⟨-, w, -, hr⟩
  · rfl
  · exact (runWord_commandEnd hr).environment.1

theorem step_cfg {s t : State} (h : step s = .next t) : t.cfg = s.cfg := by
  rcases step_next h with ⟨rest, -, ht⟩ | ⟨a, rest, -, ht⟩ | ⟨b, rest, -, ht⟩ | ⟨k, rest, -, ht⟩
  · exact (engineStep_cfg ht :)
  · exact (hostStep_cfg ht :)
  · obtain ⟨a, ha, -⟩ := busStep_next ht
    exact (hostStep_cfg ha :)
  · obtain ⟨ag, rfl⟩ := waitStep_next ht
    rfl

theorem regValue_bufSize (s : State) : regValue s .bufSize = BitVec.ofNat 32 s.cfg.bufSize := rfl

/-- Settles O10: the parameters stand in `cfg`, which no turn changes. -/
theorem parametersNeverChange : Obligations.ParametersNeverChange := by
  intro s t h
  have hcfg := step_cfg h
  exact ⟨hcfg, regValue_bufSize s, by rw [regValue_bufSize, hcfg]⟩

/-! Exact lengths (rules R20 and R125). -/

/-- A register takes a number below 2^32 without loss. -/
theorem toNat_ofNat_word {n : Nat} (h : n < 2 ^ 32) : (BitVec.ofNat 32 n).toNat = n :=
  (BitVec.toNat_ofNat n 32).trans (Nat.mod_eq_of_lt h)

/-- A successful CHUNK_DECODE writes DATA_ADDR and CONSUMED exactly: the record lies in a buffer of at most 2^31 bytes. -/
theorem execChunkDecode_exact {s t : State} (hc : s.cfg.wf = true) (h : execChunkDecode s = .next t) (h0 : t.err = 0#32) :
    t.dataAddr.toNat = s.srcAddr.toNat + 8 ∧ t.consumed.toNat = 12 + t.chunkLen.toNat
      ∧ t.consumed.toNat ≤ s.srcLen.toNat := by
  rcases execChunkDecode_next h with ⟨-, rfl⟩ | ⟨hf, r, hd, ⟨len, ty, st, crc, rfl, rfl⟩ | ⟨k, -, rfl⟩ | ⟨k, crc, -, rfl⟩⟩
  · exact absurd h0 (finish_raised_err_ne_zero _ _)
  · obtain ⟨d, -, hn, hlen, -⟩ := decodeChunk_accepted _ _ _ _ _ _ _ hd
    have hsize := ((cfg_wf_iff _).1 hc).2
    rw [srcFits_iff] at hf
    simp only [State.srcBase, State.srcSize] at hf hn
    have haddr : (s.srcAddr + 8#32).toNat = s.srcAddr.toNat + 8 :=
      BitVec.toNat_add_of_lt (show s.srcAddr.toNat + 8 < 2 ^ 32 by omega)
    have hcons : (BitVec.ofNat 32 (12 + len)).toNat = 12 + len := toNat_ofNat_word (by omega)
    exact ⟨haddr, hcons.trans (congrArg (12 + ·) (toNat_ofNat_word hlen).symm), hcons.trans_le hn⟩
  · exact absurd h0 (finish_raised_err_ne_zero _ _)
  · exact absurd h0 (finish_raised_err_ne_zero _ _)

/-- A successful CHUNK_ENCODE writes CONSUMED exactly: the record fits DST_LEN. -/
theorem execChunkEncode_exact {s t : State} (h : execChunkEncode s = .next t) (h0 : t.err = 0#32) :
    t.consumed.toNat = 12 + s.chunkLen.toNat ∧ t.consumed.toNat ≤ s.dstLen.toNat := by
  rcases execChunkEncode_next h with ⟨e, -, rfl⟩ | ⟨hc, d, -, rfl⟩
  · exact absurd h0 (finish_raised_err_ne_zero _ _)
  · obtain ⟨-, -, hle, -⟩ := encodeCheck_none hc
    have hcons : ((s.storeEncoded d).finish 0#32).consumed.toNat = s.recordSize :=
      toNat_ofNat_word (Nat.lt_of_le_of_lt hle s.dstLen.isLt)
    rw [hcons]
    exact ⟨rfl, hle⟩

theorem recordsLength_take_le (cs : List Chunk) (k : Nat) : recordsLength (cs.take k) ≤ recordsLength cs := by
  have h : recordsLength cs = recordsLength (cs.take k) + recordsLength (cs.drop k) := by
    rw [recordsLength, recordsLength, recordsLength, ← List.length_append, ← List.flatMap_append, List.take_append_drop]
  omega

theorem parseCheck_of_operands {s : State} (hp : s.ParseOperands) : s.parseCheck = none := by
  obtain ⟨hsrc, hdst, hdis⟩ := hp
  have hov : overlap s.srcBase s.srcSize s.dstBase s.dstSize = false := by
    rw [← Bool.not_eq_true, overlap_iff]; exact hdis
  simp [State.parseCheck, srcFits_true hsrc, dstFits_true hdst, hov]

/-- A walk of PNG_PARSE that finishes stands exactly at the end of the stream (rule R523). -/
theorem walk_finished_off {s : State} {w : Walk} (h8 : 8 ≤ s.srcSize) (h : s.walk = .ok (.finished w)) :
    w.off = s.srcSize :=
  Nat.le_antisymm (walkStream_off_le _ _ _ _ _ _ _ h h8)
    (walkStream_finished _ _ _ _ _ _ _ h (Nat.le_add_left _ _))

/-- A walk that stops does not raise BadHeader, the error of a wrong signature (rule R520). -/
theorem walk_stopped_errCode {s : State} {e : Raised} {w : Walk} (h : s.walk = .ok (.stopped e w)) :
    errCode e ≠ 0x010#32 := by
  rcases walkStream_stopped _ _ _ _ _ _ _ _ h with ⟨k, rfl⟩ | rfl
  · cases k <;> decide
  · decide

/-- What PNG_PARSE has written where it passed its block checks and its signature (rules R520 and R522): the table and the
count of its walk, and on success or failure the offset the walk has reached. -/
structure WalkReported (s t : State) (w : Walk) : Prop where
  buf : t.buf = w.buf
  count : t.chunkCount = BitVec.ofNat 32 w.count
  notBadHeader : t.err ≠ 0x010#32
  consumed : t.err = 0#32 → t.consumed = BitVec.ofNat 32 w.off
  faultOffset : t.err ≠ 0#32 → t.faultOffset = BitVec.ofNat 32 w.off

/-- PNG_PARSE past its block checks: a wrong signature, or a right one and the walk reported. -/
theorem execPngParse_reported {s t : State} (hp : s.ParseOperands) (h : execPngParse s = .next t) :
    t = s.parseFailed (.cont .badHeader) 0 0 s.buf
      ∨ (8 ≤ s.srcSize ∧ Holds s.buf s.srcBase pngSig ∧ ∃ r, s.walk = .ok r ∧ WalkReported s t r.walk) := by
  rcases execPngParse_next h with ⟨e, he, -⟩ | ⟨-, ⟨-, ht⟩ | ⟨hsig, hwalk⟩⟩
  · rw [parseCheck_of_operands hp] at he
    cases he
  · exact .inl ht
  · obtain ⟨h8, hholds⟩ := signatureMatches_true _ _ _ hsig
    have hmissing : errCode (.cont .missingRequiredChunks) ≠ 0x010#32 := by decide
    have hzero : 0#32 ≠ 0x010#32 := by decide
    refine .inr ⟨h8, hholds, ?_⟩
    rcases hwalk with ⟨e, w, hw, rfl⟩ | ⟨w, hw, ⟨-, -, rfl⟩ | ⟨-, rfl⟩⟩
    · exact ⟨_, hw, rfl, rfl, walk_stopped_errCode hw, fun h0 => absurd h0 (finish_raised_err_ne_zero _ _), fun _ => rfl⟩
    · refine ⟨_, hw, rfl, rfl, hmissing, fun h0 => absurd h0 (finish_raised_err_ne_zero _ _), fun _ => ?_⟩
      rw [WalkEnd.walk_finished, walk_finished_off h8 hw]
      rfl
    · refine ⟨_, hw, rfl, rfl, hzero, fun _ => ?_, fun h0 => absurd rfl h0⟩
      rw [WalkEnd.walk_finished, walk_finished_off h8 hw]
      exact ((BitVec.ofNat_toNat 32 s.srcLen).trans (BitVec.setWidth_eq _)).symm

section

variable {s : State} {w : Walk} {cs : List Chunk}

/-- The stream's bytes up to where the walk stands are the signature and the records walked over. -/
theorem WalkedOver.holds_stream (h : WalkedOver s w cs) (hsig : Holds s.buf s.srcBase pngSig) :
    Holds s.buf s.srcAddr.toNat (streamBytes cs) := by
  obtain ⟨-, hrec, -⟩ := h
  exact (holds_append _ _ _ _).2 ⟨hsig, hrec⟩

theorem WalkedOver.length_stream (h : WalkedOver s w cs) : (streamBytes cs).length = w.off := by
  obtain ⟨-, -, hoff, -⟩ := h
  rw [length_streamBytes, hoff]

theorem WalkedOver.off_lt (h : WalkedOver s w cs) : w.off < 2 ^ 32 := by
  obtain ⟨-, -, -, -, -, -, hle, -⟩ := h
  exact Nat.lt_of_le_of_lt hle s.srcLen.isLt

/-- A count of chunks is a u32, each chunk having at least twelve bytes of the stream (rule R126). -/
theorem WalkedOver.count_lt (h : WalkedOver s w cs) : w.count < 2 ^ 32 := by
  have hlt := h.off_lt
  obtain ⟨-, -, hoff, hcount, -⟩ := h
  have := le_recordsLength cs
  omega

/-- Each descriptor holds its record's offset and its data's length as exact numbers (rule R324). -/
theorem WalkedOver.descriptor_exact (h : WalkedOver s w cs) {k : Nat} {c : Chunk} (hk : cs[k]? = some c) :
    ∃ off len : Word, Holds w.buf (s.dstAddr.toNat + 16 * k) (toBe32 off ++ toBe32 len)
      ∧ off.toNat = (streamBytes (cs.take k)).length ∧ len.toNat = c.data.length := by
  have hlt := h.off_lt
  obtain ⟨hvalid, -, hoff, -, htable, -⟩ := h
  have htake := recordsLength_take_le cs k
  obtain ⟨-, hlen⟩ := hvalid c (List.mem_of_getElem? hk)
  refine ⟨_, _, holds_descriptor _ _ _ _ _ _ htable hk, ?_, toNat_ofNat_word hlen⟩
  rw [toNat_ofNat_word (by omega), length_streamBytes]

end

/-- What PNG_PARSE reports of the chunks `cs` at the head of its stream, in exact numbers (rules R125, R126, R127 and R324). -/
def ChunksReported (s t : State) (cs : List Chunk) : Prop :=
  (∀ c ∈ cs, c.Valid) ∧ Holds s.buf s.srcAddr.toNat (streamBytes cs)
    ∧ (streamBytes cs).length ≤ s.srcLen.toNat ∧ 16 * cs.length ≤ s.dstLen.toNat ∧ t.chunkCount.toNat = cs.length
    ∧ (t.err = 0#32 → t.consumed.toNat = (streamBytes cs).length)
    ∧ (t.err ≠ 0#32 → t.faultOffset.toNat = (streamBytes cs).length)
    ∧ ∀ (k : Nat) (c : Chunk), cs[k]? = some c → ∃ off len : Word,
      Holds t.buf (s.dstAddr.toNat + 16 * k) (toBe32 off ++ toBe32 len)
        ∧ off.toNat = (streamBytes (cs.take k)).length ∧ len.toNat = c.data.length

/-- The report of a walk is exact of the chunks it has walked over. -/
theorem WalkedOver.chunksReported {s t : State} {w : Walk} {cs : List Chunk} (h : WalkedOver s w cs)
    (hsig : Holds s.buf s.srcBase pngSig) (ht : WalkReported s t w) : ChunksReported s t cs := by
  have ⟨hvalid, _, _, hn, _, _, hsrc, hdst⟩ := h
  have hlength := h.length_stream
  have hoff := toNat_ofNat_word h.off_lt
  refine ⟨hvalid, h.holds_stream hsig, hlength ▸ hsrc, hn ▸ hdst, ?_, fun h0 => ?_, fun h0 => ?_, fun k c hk => ?_⟩
  · rw [ht.count, toNat_ofNat_word h.count_lt, hn]
  · rw [ht.consumed h0, hoff, hlength]
  · rw [ht.faultOffset h0, hoff, hlength]
  · rw [ht.buf]
    exact h.descriptor_exact hk

/-- PNG_PARSE past its block checks reports the chunks of its stream exactly, or nothing after a wrong signature. -/
theorem execPngParse_exact {s t : State} (hp : s.ParseOperands) (h : execPngParse s = .next t) :
    (t.err = 0x010#32 → t.chunkCount.toNat = 0 ∧ t.faultOffset.toNat = 0)
      ∧ (t.err ≠ 0x010#32 → ∃ cs : List Chunk, ChunksReported s t cs) := by
  rcases execPngParse_reported hp h with rfl | ⟨h8, hsig, r, hw, ht⟩
  · exact ⟨fun _ => ⟨rfl, rfl⟩, fun hne => absurd rfl hne⟩
  · obtain ⟨-, -, hdis⟩ := hp
    obtain ⟨cs, hcs⟩ := walk_chunks hdis h8 hw
    exact ⟨fun he => absurd he ht.notBadHeader, fun _ => ⟨cs, hcs.chunksReported hsig ht⟩⟩

/-- Settles O48: every number is bounded by a region's end or length, which is below 2^32. -/
theorem lengthsNeverWrap : Obligations.LengthsNeverWrap :=
  ⟨fun _ _ hc h h0 => execChunkDecode_exact hc h h0, fun _ _ _ h h0 => execChunkEncode_exact h h0,
    fun _ _ hp h => execPngParse_exact hp h⟩

/-! Byte order (rule R21). -/

/-- Settles O22, by the value of `be32` and the two inverse laws. -/
theorem bigEndianConversionsAreInverse : Obligations.BigEndianConversionsAreInverse :=
  ⟨fun a b c d => ⟨toNat_be32_four a b c d, toBe32_be32 [a, b, c, d] rfl⟩, be32_toBe32⟩

end Sys2Proof.Machine
end

section
/-! PROOFS. The statements of spec/10_state.md: the status bits, reset, the register port, the CTRL and STATUS words, and
where a command stops. -/

namespace Sys2Proof.Machine

/-! The status bits over one step (rule R112). -/

/-- The next turn of `s` makes the host access `a`, at the port or through the bus (rule R200): what the status bits need to
know of it, for each access that can change them. -/
structure State.Makes (s : State) (a : HostAccess) : Prop where
  writes : ∀ off v, a = .regWrite off 4 v → s.hostWrites off v
  filtered : ∀ x, x < s.cfg.bufSize → (a = .bufRead x 1 ∨ ∃ b, a = .bufWrite x 1 b) → s.filteredAccess
  resets : a = .reset ∨ a = .powerOn → s.resets

theorem State.makes_of_host {s : State} {a : HostAccess} {rest : List Turn} (h : s.agenda = .host a :: rest) : s.Makes a where
  writes off v ha := .inl (by rw [h, ha]; rfl)
  filtered x hx ha := by
    refine .inr ⟨x, hx, ?_⟩
    rcases ha with ha | ⟨b, ha⟩
    · exact .inl (by rw [h, ha]; rfl)
    · exact .inr (.inl ⟨b, by rw [h, ha]; rfl⟩)
  resets ha := by
    rcases ha with ha | ha
    · exact .inl (by rw [h, ha]; rfl)
    · exact .inr (by rw [h, ha]; rfl)

/-- A bus turn that goes on is a host access that this turn makes. -/
theorem State.makes_of_bus {s t : State} {b : BusAccess} {rest : List Turn} (h : s.agenda = .bus b :: rest)
    (ht : busStep b { s with agenda := rest } = .next t) :
    ∃ a, s.Makes a ∧ hostStep a { s with agenda := rest } = .next t := by
  obtain ⟨a, hstep, hreset, hpower, hwrite, hread, hstore⟩ := busStep_next ht
  refine ⟨a, ⟨fun off v ha => .inr ?_, fun x hx ha => .inr ⟨x, hx, ?_⟩, fun ha => ?_⟩, hstep⟩
  · rw [h, hwrite off 4 v ha]; rfl
  · rcases ha with ha | ⟨c, ha⟩
    · exact .inr (.inr (.inl (by rw [h, hread x 1 ha]; rfl)))
    · obtain ⟨v, hv⟩ := hstore x 1 c ha
      exact .inr (.inr (.inr ⟨v, by rw [h, hv]; rfl⟩))
  · rcases ha with ha | ha
    · exact absurd ha hreset
    · exact absurd ha hpower

/-- Everything a step can do to BUSY, DONE and OVERRUN, with what does it. -/
inductive StatusStep (s t : State) : Prop where
  | kept (busy : t.busy = s.busy) (done : t.done = s.done) (overrun : t.overrun = s.overrun)
  | completed (turn : ∃ rest, s.engineTurn rest) (inFlight : s.busy = true) (busy : t.busy = false) (done : t.done = true)
      (overrun : t.overrun = s.overrun)
  | statusWrite (v : Word) (write : s.hostWrites 0x08 v) (busy : t.busy = s.busy) (done : t.done = (s.done && !v.getLsbD 1))
      (overrun : t.overrun = (s.overrun && !v.getLsbD 3))
  | cmdWrite (v : Word) (write : s.hostWrites 0x0C v) (idle : s.busy = false) (latched : t.curCmd = some v)
      (busy : t.busy = true) (done : t.done = false) (overrun : t.overrun = s.overrun)
  | filtered (access : s.filteredAccess) (inFlight : s.busy = true) (busy : t.busy = s.busy) (done : t.done = s.done)
      (overrun : t.overrun = true)
  | reset (turn : s.resets) (busy : t.busy = false) (done : t.done = false) (overrun : t.overrun = false)

/-- A register write sets and clears status bits as the register map says (rules R102, R112 and R113). -/
theorem writeOffset_statusStep {s : State} {rest : List Turn} {off : Nat} {v : Word} (hw : s.hostWrites off v)
    (h4 : off % 4 = 0) (hl : off < 0x100) : StatusStep s (State.writeOffset { s with agenda := rest } off v) := by
  rcases writeOffset_cases { s with agenda := rest } off v with
    ⟨rfl, e⟩ | ⟨hne, hb, e⟩ | ⟨-, hb, r, hr, e⟩ | ⟨-, -, -, e⟩ <;> rw [e]
  · exact .statusWrite v hw rfl rfl rfl
  · exact .filtered (.inl ⟨off, v, hne, h4, hl, hw⟩) hb rfl rfl rfl
  · by_cases hc : r = .cmd
    · subst hc
      obtain rfl := (regAt_eq_some _ _).1 hr
      exact .cmdWrite v hw hb rfl rfl rfl rfl
    · obtain ⟨-, -, -, -, -, hover, hcmd⟩ := writeIdle_frame { s with agenda := rest } r v
      obtain ⟨hbusy, hdone, -⟩ := hcmd hc
      exact .kept hbusy hdone hover
  · exact .kept rfl rfl rfl

theorem hostStep_statusStep {s t : State} {a : HostAccess} {rest : List Turn} (hm : s.Makes a)
    (h : hostStep a { s with agenda := rest } = .next t) : StatusStep s t := by
  rcases hostStep_next h with ⟨off, -, -, -, rfl⟩ | ⟨off, v, ha, h4, hl, rfl⟩ | ⟨x, ha, hx, ⟨hb, rfl⟩ | ⟨-, b, -, rfl⟩⟩
    | ⟨x, b, ha, hx, ⟨hb, rfl⟩ | ⟨-, rfl⟩⟩ | ⟨ha, rfl⟩ | ⟨ha, rfl⟩
  · exact .kept rfl rfl rfl
  · exact writeOffset_statusStep (hm.writes off v ha) h4 hl
  · exact .filtered (hm.filtered x hx (.inl ha)) hb rfl rfl rfl
  · exact .kept rfl rfl rfl
  · exact .filtered (hm.filtered x hx (.inr ⟨b, ha⟩)) hb rfl rfl rfl
  · exact .kept rfl rfl rfl
  · exact .reset (hm.resets (.inl ha)) rfl rfl rfl
  · exact .reset (hm.resets (.inr ha)) rfl rfl rfl

theorem engineStep_statusStep {s t : State} {rest : List Turn} (hturn : s.engineTurn rest)
    (h : engineStep { s with agenda := rest } = .next t) : StatusStep s t := by
  rcases engineStep_next h with ⟨-, rfl⟩ | ⟨hb, w, -, hr⟩
  · exact .kept rfl rfl rfl
  · obtain ⟨⟨-, -, -, hover, -⟩, ⟨hbusy, hdone, -⟩, -⟩ := runWord_commandEnd hr
    exact .completed ⟨rest, hturn⟩ hb hbusy hdone hover

/-- Every step changes the status bits in one of the ways listed (rules R112 and R230). -/
theorem step_statusStep {s t : State} (h : step s = .next t) : StatusStep s t := by
  rcases step_next h with ⟨rest, hturn, ht⟩ | ⟨a, rest, ha, ht⟩ | ⟨b, rest, hb, ht⟩ | ⟨k, rest, -, ht⟩
  · exact engineStep_statusStep hturn ht
  · exact hostStep_statusStep (State.makes_of_host ha) ht
  · obtain ⟨a, hm, hstep⟩ := State.makes_of_bus hb ht
    exact hostStep_statusStep hm hstep
  · obtain ⟨ag, rfl⟩ := waitStep_next ht
    exact .kept rfl rfl rfl

section
variable {s t : State} (h : StatusStep s t)
include h

theorem StatusStep.busy_rises (h0 : s.busy = false) (h1 : t.busy = true) :
    ∃ v : Word, t.curCmd = some v ∧ s.hostWrites 0x0C v := by
  cases h with
  | cmdWrite v hw _ hcmd => exact ⟨v, hcmd, hw⟩
  | kept | completed | statusWrite | filtered | reset => simp_all

theorem StatusStep.busy_falls (h0 : s.busy = true) (h1 : t.busy = false) : (∃ rest, s.engineTurn rest) ∨ s.resets := by
  cases h with
  | completed hturn => exact .inl hturn
  | reset hr => exact .inr hr
  | kept | statusWrite | cmdWrite | filtered => simp_all

theorem StatusStep.done_rises (h0 : s.done = false) (h1 : t.done = true) :
    (∃ rest, s.engineTurn rest) ∧ s.busy = true ∧ t.busy = false := by
  cases h with
  | completed hturn hb hbusy => exact ⟨hturn, hb, hbusy⟩
  | kept | statusWrite | cmdWrite | filtered | reset => simp_all

theorem StatusStep.done_falls (h0 : s.done = true) (h1 : t.done = false) :
    (∃ v : Word, v.getLsbD 1 = true ∧ s.hostWrites 0x08 v) ∨ (s.busy = false ∧ ∃ v : Word, s.hostWrites 0x0C v)
      ∨ s.resets := by
  cases h with
  | statusWrite v hw _ hd => exact .inl ⟨v, by simpa [h0, h1] using hd, hw⟩
  | cmdWrite v hw hb => exact .inr (.inl ⟨hb, v, hw⟩)
  | reset hr => exact .inr (.inr hr)
  | kept | completed | filtered => simp_all

theorem StatusStep.overrun_rises (h0 : s.overrun = false) (h1 : t.overrun = true) : s.busy = true ∧ s.filteredAccess := by
  cases h with
  | filtered ha hb => exact ⟨hb, ha⟩
  | kept | completed | statusWrite | cmdWrite | reset => simp_all

theorem StatusStep.overrun_falls (h0 : s.overrun = true) (h1 : t.overrun = false) :
    (∃ v : Word, v.getLsbD 3 = true ∧ s.hostWrites 0x08 v) ∨ s.resets := by
  cases h with
  | statusWrite v hw _ _ ho => exact .inl ⟨v, by simpa [h0, h1] using ho, hw⟩
  | reset hr => exact .inr hr
  | kept | completed | cmdWrite | filtered => simp_all

end

/-- Settles O11: each bit's rises and falls, read off the list of what a step can do to the status bits. -/
theorem statusBitsChangeOnlyAsListed : Obligations.StatusBitsChangeOnlyAsListed := by
  intro s t h
  have hs := step_statusStep h
  exact ⟨hs.busy_rises, hs.busy_falls, hs.done_rises, hs.done_falls, hs.overrun_rises, hs.overrun_falls⟩

/-! Where a command stops (rules R133, R240 and R600). -/

/-- The result is a next state, or a fault at an unwritten byte of the region (base, n) inside the buffer. -/
def StopsIn (m : Memory) (size base n : Nat) (r : Result) : Prop :=
  (∃ t, r = .next t)
    ∨ ∃ k, k < n ∧ r = .fault (.unwrittenByte (base + k)) ∧ readByte m (base + k) = none ∧ base + k < size

theorem StopsIn.next {m : Memory} {size base n : Nat} (t : State) : StopsIn m size base n (.next t) := .inl ⟨t, rfl⟩

/-- A memory computation that stops only in a region inside the buffer, and its continuation. -/
theorem StopsIn.resume {α : Type} {m : Memory} {size base n : Nat} {r : Except Fault α} {k : α → Result}
    (hfit : base + n ≤ size)
    (herr : ∀ f, r = .error f → ∃ i, i < n ∧ f = .unwrittenByte (base + i) ∧ readByte m (base + i) = none)
    (hok : ∀ v, r = .ok v → StopsIn m size base n (k v)) : StopsIn m size base n (resume r k) := by
  cases r with
  | ok v => exact hok v rfl
  | error f =>
    obtain ⟨i, hi, rfl, hn⟩ := herr f rfl
    exact .inr ⟨i, hi, rfl, hn, by omega⟩

/-- `MemRead` of a region inside the buffer, and its continuation. -/
theorem StopsIn.readBytes {m : Memory} {size base n : Nat} {k : List Byte → Result} (hfit : base + n ≤ size)
    (hok : ∀ bs, StopsIn m size base n (k bs)) :
    StopsIn m size base n (Machine.resume (Machine.readBytes m base n) k) :=
  .resume hfit (readBytes_error m n base) fun bs _ => hok bs

theorem StopsIn.ite {m : Memory} {size base n : Nat} {c : Prop} [Decidable c] {r r' : Result}
    (h : c → StopsIn m size base n r) (h' : ¬ c → StopsIn m size base n r') : StopsIn m size base n (if c then r else r') := by
  split
  · exact h ‹_›
  · exact h' ‹_›

theorem execCrcUpdate_stopsIn (s : State) : StopsIn s.buf s.cfg.bufSize s.srcBase s.srcSize (execCrcUpdate s) :=
  .ite (fun hf => .readBytes ((srcFits_iff s).1 hf) fun _ => .next _) fun _ => .next _

theorem execCrcCompute_stopsIn (s : State) : StopsIn s.buf s.cfg.bufSize s.srcBase s.srcSize (execCrcCompute s) :=
  .ite (fun hf => .readBytes ((srcFits_iff s).1 hf) fun _ => .next _) fun _ => .next _

theorem execCrcVerify_stopsIn (s : State) : StopsIn s.buf s.cfg.bufSize s.srcBase s.srcSize (execCrcVerify s) :=
  .ite (fun hf => .readBytes ((srcFits_iff s).1 hf) fun _ => .ite (fun _ => .next _) fun _ => .next _) fun _ => .next _

theorem execChunkCrcGen_stopsIn (s : State) : StopsIn s.buf s.cfg.bufSize s.dataBase s.dataSize (execChunkCrcGen s) :=
  .ite (fun hf => .ite (fun _ => .readBytes ((dataFits_iff s).1 hf) fun _ => .next _) fun _ => .next _) fun _ => .next _

theorem execChunkDecode_stopsIn (s : State) : StopsIn s.buf s.cfg.bufSize s.srcBase s.srcSize (execChunkDecode s) := by
  refine .ite (fun hf => .resume ((srcFits_iff s).1 hf) (decodeChunk_error _ _ _) fun r _ => ?_) fun _ => .next _
  split <;> exact .next _

theorem execChunkEncode_stopsIn (s : State) : StopsIn s.buf s.cfg.bufSize s.dataBase s.dataSize (execChunkEncode s) := by
  rw [execChunkEncode_eq]
  cases hc : s.encodeCheck with
  | some e => exact .next _
  | none => exact .readBytes ((dataFits_iff s).1 (encodeCheck_none hc).1) fun _ => .next _

theorem execSigCheck_stopsIn (s : State) : StopsIn s.buf s.cfg.bufSize s.srcBase s.srcSize (execSigCheck s) :=
  .ite (fun hf => .resume ((srcFits_iff s).1 hf) (signatureMatches_error _ _ _) fun _ _ =>
    .ite (fun _ => .next _) fun _ => .next _) fun _ => .next _

/-- SIG_EMIT reads nothing, so no region of its can stop it. -/
theorem execSigEmit_stopsIn (s : State) (base n : Nat) : StopsIn s.buf s.cfg.bufSize base n (execSigEmit s) :=
  .ite (fun _ => .ite (fun _ => .next _) fun _ => .next _) fun _ => .next _

theorem execPngParse_stopsIn (s : State) : StopsIn s.buf s.cfg.bufSize s.srcBase s.srcSize (execPngParse s) := by
  rw [execPngParse_eq]
  cases hc : s.parseCheck with
  | some e => exact .next _
  | none =>
    have hfit := (srcFits_iff s).1 (parseCheck_none hc).1
    refine .resume hfit (signatureMatches_error _ _ _) fun ok _ => ?_
    cases ok with
    | false => exact .next _
    | true =>
      refine .resume hfit (walk_error hc) fun r _ => ?_
      cases r with
      | finished w => exact .ite (fun _ => .next _) fun _ => .next _
      | stopped e w => exact .next _

/-- A command answers a next state or stops at an unwritten byte of its operand region. -/
theorem exec_stopsIn (i : Instr) (s : State) :
    StopsIn s.buf s.cfg.bufSize (readRegion i s).1 (readRegion i s).2 (exec i s) := by
  cases i with
  | crcInit => exact .next _
  | crcUpdate => exact execCrcUpdate_stopsIn s
  | crcCompute => exact execCrcCompute_stopsIn s
  | crcVerify => exact execCrcVerify_stopsIn s
  | typeCheck => exact .next _
  | chunkCrcGen => exact execChunkCrcGen_stopsIn s
  | chunkDecode => exact execChunkDecode_stopsIn s
  | chunkEncode => exact execChunkEncode_stopsIn s
  | sigCheck => exact execSigCheck_stopsIn s
  | sigEmit => exact execSigEmit_stopsIn s _ _
  | pngParse => exact execPngParse_stopsIn s

/-- Settles O46: a command's only result besides a next state is a fault at an unwritten operand byte. -/
theorem commandsStopOnlyAtUnwrittenOperandBytes : Obligations.CommandsStopOnlyAtUnwrittenOperandBytes := by
  intro i s
  rcases exec_stopsIn i s with ⟨t, ht⟩ | ⟨k, hk, hf, hn, hsize⟩
  · rw [ht]
    exact ⟨nofun, nofun, fun _ => ⟨t, rfl⟩⟩
  · rw [hf]
    refine ⟨nofun, fun f h => ?_, fun hw => ?_⟩
    · cases h
      exact ⟨k, hk, rfl, hn, hsize⟩
    · have := hw k hk hsize
      rw [hn] at this
      cases this

/-! The engine's turn while idle, and the reset state. -/

theorem engineStep_idle {s : State} (h : s.busy = false) : engineStep s = .next s := by
  rw [engineStep, h]
  rfl

/-- Settles O7: with BUSY = 0 no command completes. -/
theorem engineIsIdleUnlessBusy : Obligations.EngineIsIdleUnlessBusy := by
  intro s rest hb hturn
  rw [step_engine s rest hturn]
  exact engineStep_idle hb

theorem resetWith_inv {c : Config} (h : c.wf = true) : (State.resetWith c).Inv :=
  .of_idle h rfl rfl rfl rfl zero_mem_legalErrs BitVec.zero_ushiftRight

/-- Settles O9: the default parameters are in range too. -/
theorem resetMeetsInvariant : Obligations.ResetMeetsInvariant :=
  ⟨resetWith_inv (by decide), fun _ hc => resetWith_inv hc⟩

/-! The register port (rules R101, R102, R129 and R204). -/

theorem readOffset_regOffset (s : State) {off : Nat} (r : Reg) (h : off = regOffset r) : readOffset s off = regValue s r := by
  rw [readOffset, (regAt_eq_some off r).2 h]

theorem readOffset_reserved (s : State) {off : Nat} (h : 0x54 ≤ off) : readOffset s off = 0#32 := by
  rw [readOffset, regAt_reserved off h]

theorem ctrlWord_resetWith (c : Config) : ctrlWord (State.resetWith c) = 0x00000002#32 := by
  simp [ctrlWord, State.resetWith, flagBit]

theorem statusWord_resetWith (c : Config) : statusWord (State.resetWith c) = 0#32 := by
  simp [statusWord, errorFlag, irqOutput, State.resetWith, flagBit]

/-- Settles O12, register by register. -/
theorem resetLeavesTheResetValues : Obligations.ResetLeavesTheResetValues := by
  intro c
  refine ⟨?_, fun _ h => readOffset_reserved _ h, rfl, rfl, fun _ => rfl⟩
  have atReg (r : Reg) := readOffset_regOffset (State.resetWith c) r rfl
  simp only [List.forall_mem_cons]
  exact ⟨atReg .id, (atReg .ctrl).trans (ctrlWord_resetWith c), (atReg .status).trans (statusWord_resetWith c),
    atReg .cmd, atReg .err, atReg .srcAddr, atReg .srcLen, atReg .dstAddr, atReg .dstLen, atReg .dataAddr,
    atReg .chunkLen, atReg .chunkType, atReg .chunkCrc, atReg .crcState, (atReg .crcResult).trans BitVec.xor_self,
    atReg .calcCrc, atReg .typeflags, atReg .consumed, atReg .chunkCount, atReg .faultOffset, atReg .bufSize,
    by simp⟩

theorem step_host {s : State} {a : HostAccess} {rest : List Turn} (h : s.agenda = .host a :: rest) :
    step s = hostStep a { s with agenda := rest } := by
  rw [step, takeTurn, h]

theorem step_regRead {s : State} {rest : List Turn} {off : Nat} (h : s.agenda = .host (.regRead off 4) :: rest)
    (h4 : off % 4 = 0) (hl : off < 0x100) :
    step s = .next (State.pushRead { s with agenda := rest } (.word (readOffset { s with agenda := rest } off))) :=
  (step_host h).trans (registerPort_word off _ h4 hl)

theorem step_regWrite {s : State} {rest : List Turn} {off : Nat} {v : Word} (h : s.agenda = .host (.regWrite off 4 v) :: rest)
    (h4 : off % 4 = 0) (hl : off < 0x100) : step s = .next (State.writeOffset { s with agenda := rest } off v) :=
  (step_host h).trans (registerPort_word off _ h4 hl)

/-- Settles O49: the value read is the register's at that offset. -/
theorem registerReadsFollowTheMap : Obligations.RegisterReadsFollowTheMap := by
  intro s rest off h h4 hl
  have atReg (r : Reg) := readOffset_regOffset { s with agenda := rest } (off := off) r
  exact ⟨_, step_regRead h h4 hl, atReg .id, atReg .ctrl, atReg .status, atReg .cmd, atReg .err, atReg .srcAddr,
    atReg .srcLen, atReg .dstAddr, atReg .dstLen, atReg .dataAddr, atReg .chunkLen, atReg .chunkType,
    atReg .chunkCrc, atReg .crcState, atReg .crcResult, atReg .calcCrc, atReg .typeflags, atReg .consumed,
    atReg .chunkCount, atReg .faultOffset, atReg .bufSize, readOffset_reserved _⟩

theorem regOffset_aligned (r : Reg) : regOffset r % 4 = 0 := by cases r <;> rfl

theorem regOffset_lt (r : Reg) : regOffset r < 0x100 := by cases r <;> decide

theorem writeOffset_idle {s : State} (hb : s.busy = false) (r : Reg) (v : Word) (hr : regOffset r ≠ regOffset .status) :
    s.writeOffset (regOffset r) v = s.writeIdle r v := by
  rw [State.writeOffset, if_neg hr, hb, (regAt_eq_some _ r).2 rfl]
  rfl

theorem writeOffset_reserved {s : State} (hb : s.busy = false) {off : Nat} (v : Word) (h : 0x54 ≤ off) :
    s.writeOffset off v = s := by
  have hne : off ≠ regOffset .status := ne_of_gt (lt_of_lt_of_le (by decide) h)
  rw [State.writeOffset, if_neg hne, hb, regAt_reserved off h]
  rfl

theorem writeOffset_busy {s : State} (hb : s.busy = true) {off : Nat} (v : Word) (h : off ≠ regOffset .status) :
    s.writeOffset off v = s.noteOverrun := by
  rw [State.writeOffset, if_neg h, if_pos hb]

/-- While BUSY = 0 a host write to a register other than STATUS does what the register map says. -/
theorem step_regWrite_idle {s : State} {rest : List Turn} {off : Nat} {v : Word} (hb : s.busy = false)
    (h : s.agenda = .host (.regWrite off 4 v) :: rest) (r : Reg) (hr : regOffset r ≠ regOffset .status) (ho : off = regOffset r) :
    step s = .next (State.writeIdle { s with agenda := rest } r v) := by
  subst ho
  rw [step_regWrite h (regOffset_aligned r) (regOffset_lt r)]
  exact congrArg _ (writeOffset_idle (s := { s with agenda := rest }) hb r v hr)

/-- Settles O50, register by register. -/
theorem writableRegistersStoreTheValue : Obligations.WritableRegistersStoreTheValue := by
  intro s rest off v hb h
  have atReg (r : Reg) := step_regWrite_idle hb h r
  exact ⟨atReg .ctrl (by decide), atReg .srcAddr (by decide), atReg .srcLen (by decide), atReg .dstAddr (by decide),
    atReg .dstLen (by decide), atReg .dataAddr (by decide), atReg .chunkLen (by decide),
    atReg .chunkType (by decide), atReg .chunkCrc (by decide), atReg .crcState (by decide)⟩

/-- Settles O51: of the offsets from 0x50 on, BUFSIZE is read-only and the others are reserved. -/
theorem readOnlyAndReservedOffsetsIgnoreWrites : Obligations.ReadOnlyAndReservedOffsetsIgnoreWrites := by
  intro s rest off v hb h h4 hl ho
  have atReg (r : Reg) := step_regWrite_idle hb h r
  rcases ho with ho | ho | ho | ho | ho | ho | ho | ho | ho
  · exact atReg .id (by decide) ho
  · exact atReg .err (by decide) ho
  · exact atReg .crcResult (by decide) ho
  · exact atReg .calcCrc (by decide) ho
  · exact atReg .typeflags (by decide) ho
  · exact atReg .consumed (by decide) ho
  · exact atReg .chunkCount (by decide) ho
  · exact atReg .faultOffset (by decide) ho
  · by_cases h50 : off = 0x50
    · exact atReg .bufSize (by decide) h50
    · rw [step_regWrite h h4 hl]
      exact congrArg _ (writeOffset_reserved (s := { s with agenda := rest }) hb v (by omega))

/-- Settles O52: CMD is write-only, and the BUSY filter takes a second CMD write. -/
theorem cmdWriteStartsACommand : Obligations.CmdWriteStartsACommand := by
  refine ⟨fun s => readOffset_regOffset s .cmd rfl, fun s rest w h => ⟨fun hb => ?_, fun hb => ?_⟩⟩
  · exact step_regWrite_idle hb h .cmd (by decide) rfl
  · rw [step_regWrite h (by decide) (by decide)]
    exact congrArg _ (writeOffset_busy (s := { s with agenda := rest }) hb w (by decide))

/-- Settles O54: STATUS takes its write past the BUSY filter. -/
theorem statusWriteClearsOnlyWhatItNames : Obligations.StatusWriteClearsOnlyWhatItNames := by
  intro s rest v h
  have clears (old bit : Bool) : (old && !bit) = if bit = true then false else old := by cases bit <;> simp
  exact ⟨_, step_regWrite h (by decide) (by decide), rfl, clears s.done _, clears s.overrun _⟩

/-! The CTRL and STATUS words (rules R111, R112 and R620). -/

theorem getLsbD_statusWord (s : State) (k : Nat) : (statusWord s).getLsbD k =
    (s.busy && k == 0 || s.done && k == 1 || errorFlag s && k == 2 || s.overrun && k == 3 || irqOutput s && k == 4) := by
  simp [statusWord, getLsbD_flagBit]

theorem getLsbD_ctrlWord (s : State) (k : Nat) : (ctrlWord s).getLsbD k = (s.irqEn && k == 0 || s.structEn && k == 1) := by
  simp [ctrlWord, getLsbD_flagBit]

/-- Settles O55, from the value of each bit of the two words. -/
theorem controlAndStatusWordsShowTheirFields : Obligations.ControlAndStatusWordsShowTheirFields := by
  intro s
  simp only [getLsbD_statusWord, getLsbD_ctrlWord]
  refine ⟨by simp, by simp, by simp [errorFlag], by simp, by simp [irqOutput], by simp, fun k hk => ?_, by simp, by simp,
    fun k hk => ?_⟩
  · have hne : k ≠ 0 ∧ k ≠ 1 ∧ k ≠ 2 ∧ k ≠ 3 ∧ k ≠ 4 := by omega
    simp [hne]
  · have hne : k ≠ 0 ∧ k ≠ 1 := by omega
    simp [hne]

end Sys2Proof.Machine
end

section
/-! PROOFS. The statements of spec/20_memory.md: the bytes a command reads and writes, the host's buffer port, the BUSY filter,
and the address map. -/

namespace Sys2Proof.Machine

/-! What a command writes (rule R240). -/

theorem SameBytesOutside.refl (m : Memory) (base n : Nat) : SameBytesOutside m m base n := fun _ _ => rfl

theorem SameBytesOutside.mono {m m' : Memory} {base n n' : Nat} (h : SameBytesOutside m m' base n) (hn : n ≤ n') :
    SameBytesOutside m m' base n' := fun a ha => h a (by omega)

/-- A region that is written on success alone. -/
theorem SameBytesOutside.of_ite {m m' : Memory} {base n : Nat} {c : Prop} [Decidable c]
    (h : SameBytesOutside m m' base (if c then n else 0)) : SameBytesOutside m m' base n :=
  h.mono (by split <;> omega)

theorem sameBytesOutside_writeBytes (m : Memory) (a : Nat) (bs : List Byte) :
    SameBytesOutside m (writeBytes m a bs) a bs.length := fun x hx => readByte_writeBytes_outside bs m a x hx

/-- A command that stores nothing leaves the buffer as it was. -/
theorem exec_reading_buf {i : Instr} {s t : State} (h1 : i ≠ .chunkEncode) (h2 : i ≠ .sigEmit) (h3 : i ≠ .pngParse)
    (h : exec i s = .next t) : t.buf = s.buf := by
  cases i with
  | crcInit => rw [execCrcInit_next h]; rfl
  | crcUpdate => rcases execCrcUpdate_next h with ⟨-, rfl⟩ | ⟨-, bs, -, rfl⟩ <;> rfl
  | crcCompute => rcases execCrcCompute_next h with ⟨-, rfl⟩ | ⟨-, bs, -, rfl⟩ <;> rfl
  | crcVerify => rcases execCrcVerify_next h with ⟨-, rfl⟩ | ⟨-, bs, -, ⟨-, rfl⟩ | ⟨-, rfl⟩⟩ <;> rfl
  | typeCheck => rw [execTypeCheck_next h]; rfl
  | chunkCrcGen => rcases execChunkCrcGen_next h with ⟨-, rfl⟩ | ⟨-, -, rfl⟩ | ⟨-, -, d, -, rfl⟩ <;> rfl
  | chunkDecode =>
    rcases execChunkDecode_next h with ⟨-, rfl⟩ | ⟨-, r, -, ⟨_, _, _, _, -, rfl⟩ | ⟨k, -, rfl⟩ | ⟨k, _, -, rfl⟩⟩ <;> rfl
  | chunkEncode => exact absurd rfl h1
  | sigCheck => rcases execSigCheck_next h with ⟨-, rfl⟩ | ⟨-, ok, -, ⟨-, rfl⟩ | ⟨-, rfl⟩⟩ <;> rfl
  | sigEmit => exact absurd rfl h2
  | pngParse => exact absurd rfl h3

theorem length_recordBytes_eq_recordSize {s : State} {d : List Byte} (hd : d.length = s.dataSize) (t crc : Word) :
    (recordBytes t d crc).length = s.recordSize := by
  rw [length_recordBytes, hd, State.recordSize]

/-- A CHUNK_ENCODE that raises writes nothing, one that succeeds its record (rule R480). -/
theorem execChunkEncode_sameBytesOutside {s t : State} (h : execChunkEncode s = .next t) :
    SameBytesOutside s.buf t.buf s.dstBase (if t.err = 0#32 then s.recordSize else 0) := by
  rcases execChunkEncode_next h with ⟨e, -, rfl⟩ | ⟨-, d, hd, rfl⟩
  · exact .refl _ _ _
  · have hlen := ((readBytes_ok_iff _ _ _ _).1 hd).1
    rw [State.finish_err, if_pos rfl, ← length_recordBytes_eq_recordSize hlen s.chunkType (chunkCrcOf s.chunkType d)]
    exact sameBytesOutside_writeBytes _ _ _

/-- A SIG_EMIT that raises writes nothing, one that succeeds the signature (rule R511). -/
theorem execSigEmit_sameBytesOutside {s t : State} (h : execSigEmit s = .next t) :
    SameBytesOutside s.buf t.buf s.dstBase (if t.err = 0#32 then 8 else 0) := by
  rcases execSigEmit_next h with ⟨-, rfl⟩ | ⟨-, -, rfl⟩ | ⟨-, -, rfl⟩
  · exact .refl _ _ _
  · exact .refl _ _ _
  · exact sameBytesOutside_writeBytes _ _ _

/-- CHUNK_COUNT holds the exact number of descriptors a walk has written: they fit a table of DST_LEN bytes. -/
theorem walk_count_toNat {s : State} {r : WalkEnd} (h : s.walk = .ok r) :
    (BitVec.ofNat 32 r.walk.count).toNat = r.walk.count := by
  have hle : 16 * r.walk.count ≤ s.dstLen.toNat := (walk_outside h).1
  exact toNat_ofNat_word (by omega)

/-- A PNG_PARSE writes no byte outside the descriptors it has counted, and none outside its table (rules R520 and R522). -/
theorem execPngParse_sameBytesOutside {s t : State} (h : execPngParse s = .next t) :
    SameBytesOutside s.buf t.buf s.dstBase (16 * t.chunkCount.toNat) ∧ SameBytesOutside s.buf t.buf s.dstBase s.dstSize := by
  rcases execPngParse_buf h with hbuf | ⟨r, hw, hbuf, hcount⟩
  · rw [hbuf]
    exact ⟨.refl _ _ _, .refl _ _ _⟩
  · obtain ⟨hle, hout⟩ := walk_outside hw
    rw [hbuf, hcount, walk_count_toNat hw]
    exact ⟨hout, hout.mono hle⟩

@[simp] theorem State.parseFailed_err (s : State) (e : Raised) (count offset : Nat) (m : Memory) :
    (s.parseFailed e count offset m).err = errCode e := rfl

@[simp] theorem State.parseSucceeded_err (s : State) (w : Walk) : (s.parseSucceeded w).err = 0#32 := rfl

/-- A walk that stops raises no error of the block checks (rule R520). -/
theorem walk_stopped_not_blockCheck {s : State} {e : Raised} {w : Walk} (h : s.walk = .ok (.stopped e w)) :
    ¬ (errCode e = 0x200#32 ∨ errCode e = 0x300#32) := by
  rcases walkStream_stopped _ _ _ _ _ _ _ _ h with ⟨k, rfl⟩ | rfl
  · cases k <;> decide
  · decide

/-- A PNG_PARSE that ends with RangeFault or Overlap has not begun its walk (rule R520). -/
theorem execPngParse_blockCheck_buf {s t : State} (h : execPngParse s = .next t)
    (he : t.err = 0x200#32 ∨ t.err = 0x300#32) : t.buf = s.buf := by
  rcases execPngParse_next h with ⟨e, -, rfl⟩ | ⟨-, ⟨-, rfl⟩ | ⟨-, ⟨e, w, hw, rfl⟩ | ⟨w, -, ⟨-, -, rfl⟩ | ⟨-, rfl⟩⟩⟩⟩
  · rfl
  · rfl
  · exact absurd he (walk_stopped_not_blockCheck hw)
  · rw [State.parseFailed_err] at he
    exact absurd he (by decide)
  · rw [State.parseSucceeded_err] at he
    exact absurd he (by decide)

/-- A command writes no byte outside its written region. -/
theorem exec_sameBytesOutside {i : Instr} {s t : State} (h : exec i s = .next t) :
    SameBytesOutside s.buf t.buf (writtenRegion i s t).1 (writtenRegion i s t).2 := by
  by_cases h1 : i = .chunkEncode
  · subst h1
    exact execChunkEncode_sameBytesOutside h
  by_cases h2 : i = .sigEmit
  · subst h2
    exact execSigEmit_sameBytesOutside h
  by_cases h3 : i = .pngParse
  · subst h3
    by_cases he : t.err = 0x200#32 ∨ t.err = 0x300#32
    · rw [execPngParse_blockCheck_buf h he]
      exact .refl _ _ _
    · simp only [writtenRegion, if_neg he]
      exact (execPngParse_sameBytesOutside h).1
  rw [exec_reading_buf h1 h2 h3 h]
  exact .refl _ _ _

/-- Settles O44: none of the eight commands stores, so the whole buffer is as it was. -/
theorem readingCommandsKeepEveryByte : Obligations.ReadingCommandsKeepEveryByte := by
  intro i s t h1 h2 h3 h a
  rw [exec_reading_buf h1 h2 h3 h]

/-- Settles O45, from what each storing command writes. -/
theorem storingCommandsKeepEveryOtherByte : Obligations.StoringCommandsKeepEveryOtherByte :=
  ⟨fun _ _ h => (execChunkEncode_sameBytesOutside h).of_ite, fun _ _ h => (execSigEmit_sameBytesOutside h).of_ite,
    fun _ _ h => execPngParse_sameBytesOutside h⟩

/-! What a command reads (rule R240): the same command over a buffer that agrees on its operand region. -/

/-- Every byte of (base, n) reads the same in both memories. -/
def SameBytesIn (m m' : Memory) (base n : Nat) : Prop := ∀ k : Nat, k < n → readByte m' (base + k) = readByte m (base + k)

theorem SameBytesIn.mono {m m' : Memory} {base n n' : Nat} (h : SameBytesIn m m' base n) (hn : n' ≤ n) :
    SameBytesIn m m' base n' := fun k hk => h k (by omega)

theorem SameBytesIn.empty (m m' : Memory) (base : Nat) : SameBytesIn m m' base 0 := fun _ hk => absurd hk (Nat.not_lt_zero _)

/-- The same bytes written into two memories read back the same. -/
theorem sameBytesIn_writeBytes (m m' : Memory) (a : Nat) (bs : List Byte) :
    SameBytesIn (writeBytes m a bs) (writeBytes m' a bs) a bs.length := fun k hk => by
  rw [holds_writeBytes bs m' a k hk, holds_writeBytes bs m a k hk]

/-- Where the first result is a next state, so is the second, equal to it but for the buffer, and with the same bytes in the
region that the first has written. -/
def Mirrored (region : State → Nat × Nat) (r r' : Result) : Prop :=
  ∀ t, r = .next t → ∃ m' : Memory, r' = .next { t with buf := m' } ∧ SameBytesIn t.buf m' (region t).1 (region t).2

theorem Mirrored.next {region : State → Nat × Nat} (u : State) (m' : Memory)
    (h : SameBytesIn u.buf m' (region u).1 (region u).2) : Mirrored region (.next u) (.next { u with buf := m' }) := by
  rintro t ⟨⟩
  exact ⟨m', rfl, h⟩

/-- A command that has written nothing: its registers say all. -/
theorem Mirrored.noWrite {region : State → Nat × Nat} (u : State) (m' : Memory) (h : (region u).2 = 0) :
    Mirrored region (.next u) (.next { u with buf := m' }) :=
  .next u m' (by rw [h]; exact .empty _ _ _)

theorem Mirrored.ite {region : State → Nat × Nat} {c : Prop} [Decidable c] {r₁ r₂ r₁' r₂' : Result}
    (h₁ : c → Mirrored region r₁ r₁') (h₂ : ¬ c → Mirrored region r₂ r₂') :
    Mirrored region (if c then r₁ else r₂) (if c then r₁' else r₂') := by
  split
  · exact h₁ ‹_›
  · exact h₂ ‹_›

/-- Two memory computations whose answers correspond, and their continuations. -/
theorem Mirrored.resume {α : Type} {region : State → Nat × Nat} {r r' : Except Fault α} {k k' : α → Result}
    (h : ∀ v, r = .ok v → ∃ v', r' = .ok v' ∧ Mirrored region (k v) (k' v')) :
    Mirrored region (resume r k) (resume r' k') := by
  intro t ht
  obtain ⟨v, hv, hk⟩ := (resume_next _ _ _).1 ht
  obtain ⟨v', hv', hm⟩ := h v hv
  rw [hv', resume_ok]
  exact hm t hk

/-- `MemRead` of a region on which the two memories agree, and its continuations. -/
theorem Mirrored.readBytes {region : State → Nat × Nat} {m m' : Memory} {base n : Nat} {k k' : List Byte → Result}
    (h : SameBytesIn m m' base n) (hk : ∀ bs, bs.length = n → Mirrored region (k bs) (k' bs)) :
    Mirrored region (Machine.resume (Machine.readBytes m base n) k) (Machine.resume (Machine.readBytes m' base n) k') :=
  .resume fun bs hbs => ⟨bs, readBytes_congr m m' base n h bs hbs, hk bs ((readBytes_ok_iff _ _ _ _).1 hbs).1⟩

section

variable {s : State} {m : Memory}

theorem execCrcUpdate_mirrored (h : SameBytesIn s.buf m s.srcBase s.srcSize) :
    Mirrored (writtenRegion .crcUpdate s) (execCrcUpdate s) (execCrcUpdate { s with buf := m }) :=
  .ite (fun _ => .readBytes h fun _ _ => .noWrite _ m rfl) fun _ => .noWrite _ m rfl

theorem execCrcCompute_mirrored (h : SameBytesIn s.buf m s.srcBase s.srcSize) :
    Mirrored (writtenRegion .crcCompute s) (execCrcCompute s) (execCrcCompute { s with buf := m }) :=
  .ite (fun _ => .readBytes h fun _ _ => .noWrite _ m rfl) fun _ => .noWrite _ m rfl

theorem execCrcVerify_mirrored (h : SameBytesIn s.buf m s.srcBase s.srcSize) :
    Mirrored (writtenRegion .crcVerify s) (execCrcVerify s) (execCrcVerify { s with buf := m }) :=
  .ite (fun _ => .readBytes h fun _ _ => .ite (fun _ => .noWrite _ m rfl) fun _ => .noWrite _ m rfl)
    fun _ => .noWrite _ m rfl

theorem execChunkCrcGen_mirrored (h : SameBytesIn s.buf m s.dataBase s.dataSize) :
    Mirrored (writtenRegion .chunkCrcGen s) (execChunkCrcGen s) (execChunkCrcGen { s with buf := m }) :=
  .ite (fun _ => .ite (fun _ => .readBytes h fun _ _ => .noWrite _ m rfl) fun _ => .noWrite _ m rfl)
    fun _ => .noWrite _ m rfl

theorem execChunkDecode_mirrored (h : SameBytesIn s.buf m s.srcBase s.srcSize) :
    Mirrored (writtenRegion .chunkDecode s) (execChunkDecode s) (execChunkDecode { s with buf := m }) := by
  refine .ite (fun _ => .resume fun r hr => ⟨r, decodeChunk_congr _ _ _ _ r h hr, ?_⟩) fun _ => .noWrite _ m rfl
  match r with
  | .accepted .. => exact .noWrite _ m rfl
  | .failed _ none => exact .noWrite _ m rfl
  | .failed _ (some _) => exact .noWrite _ m rfl

theorem execSigCheck_mirrored (h : SameBytesIn s.buf m s.srcBase s.srcSize) :
    Mirrored (writtenRegion .sigCheck s) (execSigCheck s) (execSigCheck { s with buf := m }) :=
  .ite (fun _ => .resume fun ok hok => ⟨ok, signatureMatches_congr _ _ _ _ ok h hok,
    .ite (fun _ => .noWrite _ m rfl) fun _ => .noWrite _ m rfl⟩) fun _ => .noWrite _ m rfl

/-- CHUNK_ENCODE reads its data alone: its checks read registers, and its record depends on the data and CHUNK_TYPE. -/
theorem execChunkEncode_mirrored (h : SameBytesIn s.buf m s.dataBase s.dataSize) :
    Mirrored (writtenRegion .chunkEncode s) (execChunkEncode s) (execChunkEncode { s with buf := m }) := by
  have hcheck : State.encodeCheck { s with buf := m } = s.encodeCheck := rfl
  rw [execChunkEncode_eq, execChunkEncode_eq, hcheck]
  cases s.encodeCheck with
  | some e => exact .noWrite _ m (if_neg (finish_raised_err_ne_zero s e))
  | none =>
    refine .readBytes h fun d hd => .next _ _ ?_
    exact (sameBytesIn_writeBytes s.buf m s.dstBase _).mono (length_recordBytes_eq_recordSize hd _ _).ge

theorem execSigEmit_mirrored : Mirrored (writtenRegion .sigEmit s) (execSigEmit s) (execSigEmit { s with buf := m }) :=
  .ite (fun _ => .ite (fun _ => .noWrite _ m rfl) fun _ => .next _ _ (sameBytesIn_writeBytes s.buf m s.dstBase pngSig))
    fun _ => .noWrite _ m rfl

/-- A PNG_PARSE has written at most the descriptors its CHUNK_COUNT says. -/
theorem writtenRegion_pngParse_le {t : State} {n : Nat} (h : t.chunkCount = BitVec.ofNat 32 n) :
    (writtenRegion .pngParse s t).2 ≤ 16 * n := by
  rw [writtenRegion]
  split
  · exact Nat.zero_le _
  · rw [h, BitVec.toNat_ofNat]
    exact Nat.mul_le_mul_left _ (Nat.mod_le _ _)

/-- A PNG_PARSE that its block checks stop has written nothing. -/
theorem writtenRegion_parseCheck {e : Raised} (h : s.parseCheck = some e) :
    (writtenRegion .pngParse s (s.finish (errCode e))).2 = 0 := by
  rcases parseCheck_cases s e h with rfl | rfl <;> rfl

/-- Past the block checks, a walk over a buffer with the same stream ends at the same place with the same table. -/
theorem walk_mirrored (hc : s.parseCheck = none) (h : SameBytesIn s.buf m s.srcBase s.srcSize) {r : WalkEnd}
    (hw : s.walk = .ok r) :
    ∃ r', State.walk { s with buf := m } = .ok r' ∧ sameWalk r.walk r'.walk ∧ sameTable s.dstBase r.walk r'.walk
      ∧ ((∃ a b, r = .finished a ∧ r' = .finished b) ∨ ∃ e a b, r = .stopped e a ∧ r' = .stopped e b) := by
  obtain ⟨-, -, hov⟩ := parseCheck_none hc
  rw [← Bool.not_eq_true, overlap_iff] at hov
  exact walkStream_congr _ _ _ _ hov _ s.walkStart (State.walkStart { s with buf := m }) r ⟨rfl, rfl, rfl, rfl⟩
    (SameBytesIn.empty _ _ _) (Nat.zero_le _) h hw

theorem requiredOk_congr {w w' : Walk} (h : sameWalk w w') : requiredOk w' = requiredOk w := by
  obtain ⟨-, hcount, hfirst, hlast⟩ := h
  rw [requiredOk, requiredOk, hcount, hfirst, hlast]

/-- A failing end of PNG_PARSE, over two tables with the same descriptors. -/
theorem failParse_mirrored {m₁ m₂ : Memory} {count : Nat} (h : SameBytesIn m₁ m₂ s.dstBase (16 * count)) (e : Raised)
    (off : Nat) : Mirrored (writtenRegion .pngParse s) (s.failParse e count off m₁)
      (State.failParse { s with buf := m } e count off m₂) :=
  .next (s.parseFailed e count off m₁) m₂ (h.mono (writtenRegion_pngParse_le rfl))

/-- The end of PNG_PARSE after two walks that have finished alike. -/
theorem endParse_mirrored {w w' : Walk} (hs : sameWalk w w') (ht : sameTable s.dstBase w w') :
    Mirrored (writtenRegion .pngParse s) (s.endParse w) (State.endParse { s with buf := m } w') := by
  have hrequired := requiredOk_congr hs
  obtain ⟨-, hcount, -⟩ := hs
  rw [State.endParse, State.endParse, hrequired, hcount]
  exact .ite (fun _ => failParse_mirrored ht _ _) fun _ =>
    .next (s.parseSucceeded w) w'.buf (SameBytesIn.mono ht (writtenRegion_pngParse_le rfl))

/-- PNG_PARSE reads its stream alone: the table lies apart from it, so the walk does not read what it has written. -/
theorem execPngParse_mirrored (h : SameBytesIn s.buf m s.srcBase s.srcSize) :
    Mirrored (writtenRegion .pngParse s) (execPngParse s) (execPngParse { s with buf := m }) := by
  have hcheck : State.parseCheck { s with buf := m } = s.parseCheck := rfl
  rw [execPngParse_eq, execPngParse_eq, hcheck]
  cases hc : s.parseCheck with
  | some e => exact .noWrite _ m (writtenRegion_parseCheck hc)
  | none =>
    refine .resume fun ok hok => ⟨ok, signatureMatches_congr _ _ _ _ ok h hok, ?_⟩
    refine .ite (fun _ => .resume fun r hr => ?_) fun _ => failParse_mirrored (SameBytesIn.empty _ _ _) _ _
    obtain ⟨r', hr', hs, ht, ⟨w, w', rfl, rfl⟩ | ⟨e, w, w', rfl, rfl⟩⟩ := walk_mirrored hc h hr
    · exact ⟨_, hr', endParse_mirrored hs ht⟩
    · obtain ⟨hoff, hcount, -⟩ := hs
      simp only [WalkEnd.walk_stopped] at hoff hcount
      refine ⟨_, hr', ?_⟩
      simp only [hoff, hcount]
      exact failParse_mirrored ht e w.off

end

/-- Over two buffers that agree on its operand region a command ends alike. -/
theorem exec_mirrored (i : Instr) (s : State) (m : Memory)
    (h : SameBytesIn s.buf m (readRegion i s).1 (readRegion i s).2) :
    Mirrored (writtenRegion i s) (exec i s) (exec i { s with buf := m }) := by
  cases i with
  | crcInit => exact .noWrite _ m rfl
  | crcUpdate => exact execCrcUpdate_mirrored h
  | crcCompute => exact execCrcCompute_mirrored h
  | crcVerify => exact execCrcVerify_mirrored h
  | typeCheck => exact .noWrite _ m rfl
  | chunkCrcGen => exact execChunkCrcGen_mirrored h
  | chunkDecode => exact execChunkDecode_mirrored h
  | chunkEncode => exact execChunkEncode_mirrored h
  | sigCheck => exact execSigCheck_mirrored h
  | sigEmit => exact execSigEmit_mirrored
  | pngParse => exact execPngParse_mirrored h

/-- Where a command writes depends on registers alone. -/
theorem writtenRegion_buf (i : Instr) (s t : State) (m m' : Memory) :
    writtenRegion i { s with buf := m } { t with buf := m' } = writtenRegion i s t := by
  cases i <;> rfl

/-- Settles O47: the two runs mirror each other, and each keeps what lies outside the one region both write. -/
theorem commandsReadOnlyTheirOperandBytes : Obligations.CommandsReadOnlyTheirOperandBytes := by
  intro i s t m hm h
  obtain ⟨m', h', hin⟩ := exec_mirrored i s m hm t h
  have hout := exec_sameBytesOutside h'
  rw [writtenRegion_buf] at hout
  exact ⟨_, h', rfl, hin, exec_sameBytesOutside h, hout⟩

/-! The host's ports: what is refused (rules R202 and R204, entries U2, U3 and U4). -/

theorem registerPort_nonWord {off width : Nat} (k : Result) (h : width ≠ 4 ∨ off % 4 ≠ 0) :
    registerPort off width k = .refused .nonWordRegisterAccess :=
  if_neg (by omega)

theorem registerPort_outside {off : Nat} (k : Result) (h4 : off % 4 = 0) (h : 0x100 ≤ off) :
    registerPort off 4 k = .refused .registerOffsetOutsideWindow := by
  rw [registerPort, if_pos ⟨rfl, h4⟩, if_neg (by omega)]

theorem bufferPort_byte {s : State} {a : Nat} (k : Result) (h : a < s.cfg.bufSize) : bufferPort s a 1 k = k := by
  rw [bufferPort, if_pos rfl, if_pos h]

theorem bufferPort_wide (s : State) (a : Nat) {width : Nat} (k : Result) (h : width ≠ 1) :
    bufferPort s a width k = .refused .wideBufferAccess :=
  if_neg h

theorem bufferPort_outside {s : State} {a : Nat} (k : Result) (h : s.cfg.bufSize ≤ a) :
    bufferPort s a 1 k = .refused .bufferAddressOutsideBuffer := by
  rw [bufferPort, if_pos rfl, if_neg (by omega)]

/-- Settles O57: each port looks at width and address before it looks at BUSY. -/
theorem undefinedHostAccessesAreRefused : Obligations.UndefinedHostAccessesAreRefused :=
  fun _ _ => ⟨fun _ _ h hw => (step_host h).trans (registerPort_nonWord _ hw),
    fun _ _ _ h hw => (step_host h).trans (registerPort_nonWord _ hw),
    fun _ h h4 ho => (step_host h).trans (registerPort_outside _ h4 ho),
    fun _ _ h h4 ho => (step_host h).trans (registerPort_outside _ h4 ho),
    fun _ _ h hw => (step_host h).trans (bufferPort_wide _ _ _ hw),
    fun _ _ _ h hw => (step_host h).trans (bufferPort_wide _ _ _ hw),
    fun _ h ha => (step_host h).trans (bufferPort_outside _ ha),
    fun _ _ h ha => (step_host h).trans (bufferPort_outside _ ha)⟩

/-! The buffer port and the BUSY filter (rules R133, R202, R203 and R710). -/

theorem step_bufRead {s : State} {rest : List Turn} {a : Nat} (h : s.agenda = .host (.bufRead a 1) :: rest)
    (ha : a < s.cfg.bufSize) : step s = readBuffer { s with agenda := rest } a :=
  (step_host h).trans (bufferPort_byte _ ha)

theorem step_bufWrite {s : State} {rest : List Turn} {a : Nat} {b : Byte} (h : s.agenda = .host (.bufWrite a 1 b) :: rest)
    (ha : a < s.cfg.bufSize) : step s = .next (writeBuffer { s with agenda := rest } a b) :=
  (step_host h).trans (bufferPort_byte _ ha)

section

variable {s : State} {a : Nat}

theorem readBuffer_busy (hb : s.busy = true) : readBuffer s a = .next (s.noteOverrun.pushRead (.byte 0x00#8)) :=
  if_pos hb

theorem readBuffer_written (hb : s.busy = false) {b : Byte} (h : readByte s.buf a = some b) :
    readBuffer s a = .next (s.pushRead (.byte b)) := by
  rw [readBuffer, hb, h]
  rfl

theorem readBuffer_unwritten (hb : s.busy = false) (h : readByte s.buf a = none) :
    readBuffer s a = .fault (.unwrittenByte a) := by
  rw [readBuffer, hb, h]
  rfl

theorem writeBuffer_busy (hb : s.busy = true) (b : Byte) : writeBuffer s a b = s.noteOverrun :=
  if_pos hb

theorem writeBuffer_idle (hb : s.busy = false) (b : Byte) :
    writeBuffer s a b = { s with buf := writeByte s.buf a b } := by
  rw [writeBuffer, hb]
  rfl

end

/-- Settles O56: a byte written reads back, and every other byte is kept. -/
theorem idleBufferPortReadsAndWritesBytes : Obligations.IdleBufferPortReadsAndWritesBytes := by
  intro s rest a hb ha
  refine ⟨fun b h => ⟨writeByte s.buf a b, ?_, readByte_writeByte_same _ _ _,
    fun x hx => readByte_writeByte_other _ _ _ _ hx⟩, fun h => ⟨fun b hr => ?_, fun hr => ?_⟩⟩
  · rw [step_bufWrite h ha]
    exact congrArg _ (writeBuffer_idle (s := { s with agenda := rest }) hb b)
  · exact (step_bufRead h ha).trans (readBuffer_written (s := { s with agenda := rest }) hb hr)
  · exact (step_bufRead h ha).trans (readBuffer_unwritten (s := { s with agenda := rest }) hb hr)

/-- Settles O53: only a STATUS write or a reset lets OVERRUN fall, and each filtered access notes it. -/
theorem busyFilterDiscardsHostAccesses : Obligations.BusyFilterDiscardsHostAccesses := by
  refine ⟨fun s t h h0 h1 => (step_statusStep h).overrun_falls h0 h1, fun s rest hb => ⟨fun off v h h4 hl hne => ?_,
    fun a b h ha => ?_, fun a h ha => ?_⟩⟩
  · rw [step_regWrite h h4 hl]
    exact congrArg _ (writeOffset_busy (s := { s with agenda := rest }) hb v hne)
  · rw [step_bufWrite h ha]
    exact congrArg _ (writeBuffer_busy (s := { s with agenda := rest }) hb b)
  · exact (step_bufRead h ha).trans (readBuffer_busy hb)

/-! The address map (rule R200). -/

theorem step_bus {s : State} {b : BusAccess} {rest : List Turn} (h : s.agenda = .bus b :: rest) :
    step s = busStep b { s with agenda := rest } := by
  rw [step, takeTurn, h]

/-- The platform keeps the two windows apart (log entry 12). -/
def Config.WindowsApart (c : Config) : Prop := c.baseAddr + 0x100 ≤ c.bufBase ∨ c.bufBase + c.bufSize ≤ c.baseAddr

theorem Config.WindowsApart.inRegisterWindow_only {c : Config} (h : WindowsApart c) {x : Nat} (hx : x < 0x100) :
    inRegisterWindow c (c.baseAddr + x) = true ∧ inBufferWindow c (c.baseAddr + x) = false := by
  unfold WindowsApart at h
  constructor
  · simp [inRegisterWindow, hx]
  · simp only [inBufferWindow, Bool.and_eq_false_imp, decide_eq_true_eq, decide_eq_false_iff_not]
    omega

theorem Config.WindowsApart.inBufferWindow_only {c : Config} (h : WindowsApart c) {x : Nat} (hx : x < c.bufSize) :
    inRegisterWindow c (c.bufBase + x) = false ∧ inBufferWindow c (c.bufBase + x) = true := by
  unfold WindowsApart at h
  constructor
  · simp only [inRegisterWindow, Bool.and_eq_false_imp, decide_eq_true_eq, decide_eq_false_iff_not]
    omega
  · simp [inBufferWindow, hx]

section

variable {s : State} (hd : Config.WindowsApart s.cfg) {x : Nat} (width : Nat)
include hd

theorem busStep_read_register (hx : x < 0x100) :
    busStep (.read (s.cfg.baseAddr + x) width) s = hostStep (.regRead x width) s := by
  simp [busStep, hd.inRegisterWindow_only hx]

theorem busStep_write_register (hx : x < 0x100) (v : Word) :
    busStep (.write (s.cfg.baseAddr + x) width v) s = hostStep (.regWrite x width v) s := by
  simp [busStep, hd.inRegisterWindow_only hx]

theorem busStep_read_buffer (hx : x < s.cfg.bufSize) :
    busStep (.read (s.cfg.bufBase + x) width) s = hostStep (.bufRead x width) s := by
  simp [busStep, hd.inBufferWindow_only hx]

theorem busStep_write_buffer (hx : x < s.cfg.bufSize) (v : Word) :
    busStep (.write (s.cfg.bufBase + x) width v) s = hostStep (.bufWrite x width (v.setWidth 8)) s := by
  simp [busStep, hd.inBufferWindow_only hx]

end

/-- Settles O60: where the windows are apart, an address in one of them is in that one alone. -/
theorem busAddressesReachTheTwoWindows : Obligations.BusAddressesReachTheTwoWindows := by
  intro s rest x w v hd
  have apart : Config.WindowsApart ({ s with agenda := rest } : State).cfg := hd
  exact ⟨fun h hx => (step_bus h).trans (busStep_read_register apart w hx),
    fun h hx => (step_bus h).trans (busStep_write_register apart w hx v),
    fun h hx => (step_bus h).trans (busStep_read_buffer apart w hx),
    fun h hx => (step_bus h).trans (busStep_write_buffer apart w hx v)⟩

end Sys2Proof.Machine
end

section
/-! PROOFS. The statements of spec/30_encoding.md: the decoder and the encoder, what a command word does, the registers a
command writes and the ERR it leaves, and the WAIT. -/

namespace Sys2Proof

/-! The decoder and the encoder (rules R300 to R304). -/

/-- The opcode map and the commands' OPCODE values are inverse to each other (rule R302). -/
theorem instrOfOpcode_eq_some_iff (op : BitVec 8) (i : Instr) : instrOfOpcode op = some i ↔ op = opcodeOf i := by
  constructor
  · revert i
    fun_cases instrOfOpcode op <;> rintro i h <;> cases h <;> assumption
  · rintro rfl
    cases i <;> rfl

/-- Both checks of a command word pass (rule R303). -/
theorem decode_eq_ok_iff (w : Word) (i : Instr) :
    decode w = .ok i ↔ mbzField w = 0#24 ∧ instrOfOpcode (opcodeField w) = some i := by
  unfold decode
  by_cases hm : mbzField w = 0#24
  · cases instrOfOpcode (opcodeField w) <;> simp [hm]
  · simp [hm]

/-- A command word is its two fields, MBZ above OPCODE, with no bit left over (rule R300). -/
theorem mbzField_append_opcodeField (w : Word) : mbzField w ++ opcodeField w = w :=
  (BitVec.extractLsb'_append_extractLsb'_eq_extractLsb' rfl).trans BitVec.extractLsb'_eq_self

theorem mbzField_encode (i : Instr) : mbzField (encode i) = 0#24 := by cases i <;> rfl

theorem opcodeField_encode (i : Instr) : opcodeField (encode i) = opcodeOf i := by cases i <;> rfl

/-- The only word that decodes to a command is the command's own (rules R302 and R303). -/
theorem decode_eq_ok_iff_eq_encode (w : Word) (i : Instr) : decode w = .ok i ↔ w = encode i := by
  rw [decode_eq_ok_iff, instrOfOpcode_eq_some_iff]
  constructor
  · rintro ⟨hm, hop⟩
    rw [← mbzField_append_opcodeField w, hm, hop]
    rfl
  · rintro rfl
    exact ⟨mbzField_encode i, opcodeField_encode i⟩

/-- Settles O2: both halves say that a word decodes to a command exactly when it is the command's word. -/
theorem decodeAndEncodeAgree : Obligations.DecodeAndEncodeAgree :=
  ⟨fun i _ => (decode_eq_ok_iff_eq_encode _ i).2 rfl, fun w i => (decode_eq_ok_iff_eq_encode w i).1⟩

/-- Settles O1: each command stands in one row of the map, beside its own word. -/
theorem decoderAcceptsExactlyTheOpcodeMap : Obligations.DecoderAcceptsExactlyTheOpcodeMap := by
  intro w i
  rw [decode_eq_ok_iff_eq_encode]
  cases i <;> simp [encode, opcodeOf]

/-- The words of the eleven commands, as numbers (rule R302). -/
theorem exists_decode_eq_ok_iff (w : Word) : (∃ i, decode w = .ok i) ↔
    (0x01 ≤ w.toNat ∧ w.toNat ≤ 0x04) ∨ (0x10 ≤ w.toNat ∧ w.toNat ≤ 0x13) ∨ (0x20 ≤ w.toNat ∧ w.toNat ≤ 0x22) := by
  simp only [decoderAcceptsExactlyTheOpcodeMap w]
  simp only [List.mem_cons, Prod.mk.injEq, BitVec.toNat_eq, BitVec.toNat_ofNat, Nat.reducePow, Nat.one_mod,
    Nat.reduceMod, List.not_mem_nil, or_false, exists_or, ↓existsAndEq, and_true]
  omega

/-- Settles O3: the reserved values are those between the three runs of assigned OPCODE values, and above them. -/
theorem illegalWordsAreTheReservedOnes : Obligations.IllegalWordsAreTheReservedOnes := by
  intro w
  rw [← not_exists, exists_decode_eq_ok_iff]
  omega

/-- Settles O4, by running the decoder on the five words. -/
theorem sampleWordsDecode : Obligations.SampleWordsDecode := by
  unfold Obligations.SampleWordsDecode
  decide

end Sys2Proof

namespace Sys2Proof.Machine

/-! The engine's turn with a command in flight (rules R103 and R303). -/

theorem engineStep_inFlight {s : State} {w : Word} (hb : s.busy = true) (hw : s.curCmd = some w) :
    engineStep s = runWord w s := by
  simp [engineStep, hb, hw]

theorem step_inFlight {s : State} {rest : List Turn} {w : Word} (hb : s.busy = true) (hw : s.curCmd = some w)
    (hturn : s.engineTurn rest) : step s = runWord w { s with agenda := rest } := by
  rw [step_engine s rest hturn]
  exact engineStep_inFlight hb hw

theorem step_wait {s : State} {k : Nat} {rest : List Turn} (h : s.agenda = .wait k :: rest) :
    step s = waitStep k rest s := by
  rw [step, takeTurn, h]

theorem runWord_legal {w : Word} {i : Instr} (h : decode w = .ok i) (s : State) : runWord w s = exec i s := by
  rw [runWord, h]

theorem runWord_illegal {w : Word} (h : ∀ i, decode w ≠ .ok i) (s : State) :
    runWord w s = .next (s.finish (errCode (.block .illegalCommand))) := by
  cases hd : decode w with
  | ok i => exact absurd hd (h i)
  | error e => rw [runWord, hd, raise_eq]

/-- A word with a nonzero MBZ or a reserved OPCODE decodes to no command (rule R304). -/
theorem decode_ne_ok_of_reserved {w : Word} (h : 0x100 ≤ w.toNat ∨ reservedOpcode (w.toNat % 256) = true) (i : Instr) :
    decode w ≠ .ok i := by
  refine (illegalWordsAreTheReservedOnes w).2 ?_ i
  simp only [reservedOpcode, Bool.or_eq_true, beq_iff_eq, Bool.and_eq_true, decide_eq_true_eq] at h
  omega

/-- Settles O5: the engine's turn runs the latched word, and a legal word is its command. -/
theorem stepRunsTheDecodedCommand : Obligations.StepRunsTheDecodedCommand := by
  intro s rest w i hb hw hturn hd _
  rw [step_inFlight hb hw hturn, runWord_legal hd]

/-- Settles O6: a reserved word is illegal, and an illegal word raises IllegalCommand. -/
theorem illegalWordCompletesWithIllegalCommand : Obligations.IllegalWordCompletesWithIllegalCommand := by
  intro s rest w hb hw hturn hres
  rw [step_inFlight hb hw hturn, runWord_illegal (decode_ne_ok_of_reserved hres)]
  rfl

/-! Which registers a command writes, and which ERR it leaves (rules R301, R601 and R611), said once for all eleven. -/

/-- How a command ends: by `complete`, having written some of its result registers, or by `raise` of one of its errors,
having written some of the registers its rule names for a failure. -/
inductive CommandOutcome (i : Instr) (s : State) : State → Prop where
  | completed (u : State) (kept : ∀ r, r ∉ resultRegs i → regValue u r = regValue s r) :
      CommandOutcome i s (u.finish 0#32)
  | raised (e : Raised) (u : State) (possible : errCode e ∈ possibleErrs i)
      (kept : ∀ r, r ∉ failureRegs i → regValue u r = regValue s r) : CommandOutcome i s (u.finish (errCode e))

/-- An error raised with no register written. -/
theorem CommandOutcome.raised_self {i : Instr} {e : Raised} (s : State) (h : errCode e ∈ possibleErrs i) :
    CommandOutcome i s (s.finish (errCode e)) := .raised e s h fun _ _ => rfl

theorem chunkCode_possible_chunkDecode (k : ChunkKind) : errCode (.chunk k) ∈ possibleErrs .chunkDecode := by
  cases k <;> decide

theorem encodeCheck_possible {s : State} {e : Raised} (h : s.encodeCheck = some e) :
    errCode e ∈ possibleErrs .chunkEncode := by
  rcases encodeCheck_cases s e h with rfl | rfl | rfl | rfl <;> decide

theorem parseCheck_possible {s : State} {e : Raised} (h : s.parseCheck = some e) :
    errCode e ∈ possibleErrs .pngParse := by
  rcases parseCheck_cases s e h with rfl | rfl <;> decide

/-- A walk stops with a wrapped chunk error or a full table (rule R522). -/
theorem walk_stopped_possible {s : State} {e : Raised} {w : Walk} (h : s.walk = .ok (.stopped e w)) :
    errCode e ∈ possibleErrs .pngParse := by
  rcases walkStream_stopped _ _ _ _ _ _ _ _ h with ⟨k, rfl⟩ | rfl
  · cases k <;> decide
  · decide

/-- A failed PNG_PARSE writes CHUNK_COUNT and FAULT_OFFSET (rule R522). -/
theorem CommandOutcome.parseFailed (s : State) {e : Raised} (count offset : Nat) (m : Memory)
    (h : errCode e ∈ possibleErrs .pngParse) : CommandOutcome .pngParse s (s.parseFailed e count offset m) := by
  refine .raised e _ h fun r hr => ?_
  cases r with
  | chunkCount | faultOffset => exact absurd (by decide) hr
  | _ => rfl

/-- A command's success writes result registers of its own, and its failure the registers its rule names, command by
command. -/
theorem exec_outcome {i : Instr} {s t : State} (h : exec i s = .next t) : CommandOutcome i s t := by
  cases i with
  | crcInit =>
    rw [execCrcInit_next h]
    refine .completed _ fun r hr => ?_
    cases r with
    | crcState | crcResult => exact absurd (by decide) hr
    | _ => rfl
  | crcUpdate =>
    rcases execCrcUpdate_next h with ⟨-, rfl⟩ | ⟨-, bs, -, rfl⟩
    · exact .raised_self s (by decide)
    · refine .completed _ fun r hr => ?_
      cases r with
      | crcState | crcResult | consumed => exact absurd (by decide) hr
      | _ => rfl
  | crcCompute =>
    rcases execCrcCompute_next h with ⟨-, rfl⟩ | ⟨-, bs, -, rfl⟩
    · exact .raised_self s (by decide)
    · refine .completed _ fun r hr => ?_
      cases r with
      | crcState | crcResult | consumed => exact absurd (by decide) hr
      | _ => rfl
  | crcVerify =>
    rcases execCrcVerify_next h with ⟨-, rfl⟩ | ⟨-, bs, -, ⟨-, rfl⟩ | ⟨-, rfl⟩⟩
    · exact .raised_self s (by decide)
    · refine .completed _ fun r hr => ?_
      cases r with
      | calcCrc | consumed => exact absurd (by decide) hr
      | _ => rfl
    · refine .raised _ _ (by decide) fun r hr => ?_
      cases r with
      | calcCrc => exact absurd (by decide) hr
      | _ => rfl
  | typeCheck =>
    rw [execTypeCheck_next h]
    refine .completed _ fun r hr => ?_
    cases r with
    | typeflags => exact absurd (by decide) hr
    | _ => rfl
  | chunkCrcGen =>
    rcases execChunkCrcGen_next h with ⟨-, rfl⟩ | ⟨-, -, rfl⟩ | ⟨-, -, d, -, rfl⟩
    · exact .raised_self s (by decide)
    · exact .raised_self s (by decide)
    · refine .completed _ fun r hr => ?_
      cases r with
      | chunkCrc | calcCrc => exact absurd (by decide) hr
      | _ => rfl
  | chunkDecode =>
    rcases execChunkDecode_next h with ⟨-, rfl⟩ | ⟨-, r, -, ⟨len, ty, st, crc, -, rfl⟩ | ⟨k, -, rfl⟩ | ⟨k, crc, -, rfl⟩⟩
    · exact .raised_self s (by decide)
    · refine .completed _ fun r hr => ?_
      cases r with
      | chunkLen | chunkType | chunkCrc | dataAddr | calcCrc | typeflags | consumed => exact absurd (by decide) hr
      | _ => rfl
    · exact .raised_self s (chunkCode_possible_chunkDecode k)
    · refine .raised _ _ (chunkCode_possible_chunkDecode k) fun r hr => ?_
      cases r with
      | calcCrc => exact absurd (by decide) hr
      | _ => rfl
  | chunkEncode =>
    rcases execChunkEncode_next h with ⟨e, he, rfl⟩ | ⟨-, d, -, rfl⟩
    · exact .raised_self s (encodeCheck_possible he)
    · refine .completed _ fun r hr => ?_
      cases r with
      | chunkCrc | calcCrc | consumed => exact absurd (by decide) hr
      | _ => rfl
  | sigCheck =>
    rcases execSigCheck_next h with ⟨-, rfl⟩ | ⟨-, ok, -, ⟨-, rfl⟩ | ⟨-, rfl⟩⟩
    · exact .raised_self s (by decide)
    · refine .completed _ fun r hr => ?_
      cases r with
      | consumed => exact absurd (by decide) hr
      | _ => rfl
    · exact .raised_self s (by decide)
  | sigEmit =>
    rcases execSigEmit_next h with ⟨-, rfl⟩ | ⟨-, -, rfl⟩ | ⟨-, -, rfl⟩
    · exact .raised_self s (by decide)
    · exact .raised_self s (by decide)
    · refine .completed _ fun r hr => ?_
      cases r with
      | consumed => exact absurd (by decide) hr
      | _ => rfl
  | pngParse =>
    rcases execPngParse_next h with
      ⟨e, he, rfl⟩ | ⟨-, ⟨-, rfl⟩ | ⟨-, ⟨e, w, hw, rfl⟩ | ⟨w, -, ⟨-, -, rfl⟩ | ⟨-, rfl⟩⟩⟩⟩
    · exact .raised_self s (parseCheck_possible he)
    · exact .parseFailed s _ _ _ (by decide)
    · exact .parseFailed s _ _ _ (walk_stopped_possible hw)
    · exact .parseFailed s _ _ _ (by decide)
    · refine .completed _ fun r hr => ?_
      cases r with
      | chunkCount | consumed => exact absurd (by decide) hr
      | _ => rfl

/-- The completion effects show in STATUS and ERR alone (rule R610). -/
theorem regValue_finish (u : State) (code : Word) {r : Reg} (hs : r ≠ .status) (he : r ≠ .err) :
    regValue (u.finish code) r = regValue u r := by
  cases r with
  | status => exact absurd rfl hs
  | err => exact absurd rfl he
  | _ => rfl

theorem failureRegs_subset_resultRegs (i : Instr) : failureRegs i ⊆ resultRegs i := by
  cases i <;> decide

/-- Settles O40: the registers of a failure are among the command's result registers. -/
theorem commandsWriteOnlyTheirResultRegisters : Obligations.CommandsWriteOnlyTheirResultRegisters := by
  intro i s t r h hs he hr
  cases exec_outcome h with
  | completed u kept => exact (regValue_finish u _ hs he).trans (kept r hr)
  | raised e u _ kept =>
    exact (regValue_finish u _ hs he).trans (kept r fun hf => hr (failureRegs_subset_resultRegs i hf))

/-- ERR holds one kind, or a container kind that wraps a chunk kind (rules R114 and R330); a chunk kind alone where
`chunkAlone` allows it. -/
def OneErrKind (chunkAlone : Prop) (e : Word) : Prop :=
  e.toNat < 4096
    ∧ (e = 0#32
      ∨ (e.extractLsb' 8 4 ≠ 0#4 ∧ e.extractLsb' 4 4 = 0#4 ∧ e.extractLsb' 0 4 = 0#4)
      ∨ (e.extractLsb' 8 4 = 0#4 ∧ e.extractLsb' 4 4 = 0#4 ∧ e.extractLsb' 0 4 ≠ 0#4 ∧ chunkAlone)
      ∨ (e.extractLsb' 8 4 = 0#4 ∧ e.extractLsb' 4 4 ≠ 0#4 ∧ (e.extractLsb' 0 4 ≠ 0#4 ↔ e.extractLsb' 4 4 = 5#4)))

theorem OneErrKind.imp {p q : Prop} {e : Word} (h : OneErrKind p e) (hpq : p → q) : OneErrKind q e :=
  h.imp_right <| .imp_right <| .imp_right <| .imp_left fun ⟨hb, hc, hk, hp⟩ => ⟨hb, hc, hk, hpq hp⟩

theorem oneErrKind_zero (p : Prop) : OneErrKind p 0#32 := ⟨by decide, .inl rfl⟩

/-- Every raised error's code keeps the layout, and only a chunk error's is a chunk kind alone. -/
theorem oneErrKind_errCode (e : Raised) : OneErrKind (∃ k, e = .chunk k) (errCode e) := by
  cases e with
  | block k => exact ⟨by cases k <;> decide, .inr (.inl (by cases k <;> decide))⟩
  | chunk k =>
    have hkind : (errCode (.chunk k)).extractLsb' 0 4 ≠ 0#4 := by cases k <;> decide
    exact ⟨by cases k <;> decide, .inr (.inr (.inl ⟨by cases k <;> decide, by cases k <;> decide, hkind, k, rfl⟩))⟩
  | cont k =>
    cases k with
    | badHeader | missingRequiredChunks => exact ⟨by decide, .inr (.inr (.inr (by decide)))⟩
    | chunkError k => exact ⟨by cases k <;> decide, .inr (.inr (.inr (by cases k <;> decide)))⟩

/-- A chunk error is a CRC or chunk command's (rule R601). -/
theorem mem_of_chunk_possible {i : Instr} {k : ChunkKind} (h : errCode (.chunk k) ∈ possibleErrs i) :
    i ∈ [Instr.crcVerify, .chunkCrcGen, .chunkDecode, .chunkEncode] := by
  revert h
  cases i <;> cases k <;> decide

/-- Settles O43: a legal word leaves 0 or one of its command's errors, an illegal one IllegalCommand. -/
theorem errHoldsOneKind : Obligations.ErrHoldsOneKind := by
  intro w s t h
  rcases runWord_next h with ⟨i, hd, hx⟩ | rfl
  · cases exec_outcome hx with
    | completed u _ => exact oneErrKind_zero _
    | raised e u possible _ =>
      refine (oneErrKind_errCode e).imp ?_
      rintro ⟨k, rfl⟩
      exact ⟨i, mem_of_chunk_possible possible, hd⟩
  · exact (oneErrKind_errCode (.block .illegalCommand)).imp nofun

/-! The WAIT (rules R341 and R720). -/

theorem run_succ {M : Host.Core} {s t : M.State} (h : M.step s = .next t) (n : Nat) : M.run (n + 1) s = M.run n t := by
  rw [Host.Core.run, h]

theorem core_run_succ {s t : State} (h : step s = .next t) (n : Nat) : core.run (n + 1) s = core.run n t :=
  run_succ (M := core) (s := s) h n

/-- `s` after `n` reads of its STATUS, with these turns still to be taken. -/
def State.polled (s : State) (n : Nat) (turns : List Turn) : State :=
  { s with agenda := turns, reads := List.replicate n (.word (statusWord s)) ++ s.reads }

theorem State.polled_polled (s : State) (m n : Nat) (turns turns' : List Turn) :
    (s.polled m turns).polled n turns' = s.polled (n + m) turns' := by
  rw [State.polled, State.polled, State.polled, List.replicate_add, List.append_assoc]
  rfl

theorem step_wait_last_poll {s : State} {rest : List Turn} (hb : s.busy = true) (ha : s.agenda = .wait 0 :: rest) :
    step s = .next (s.polled 1 (.engine :: .wait 0 :: rest)) := by
  rw [step_wait ha, waitStep, hb]
  rfl

theorem step_wait_poll {s : State} {k : Nat} {rest : List Turn} (hb : s.busy = true) (ha : s.agenda = .wait (k + 1) :: rest) :
    step s = .next (s.polled 1 (.wait k :: rest)) := by
  rw [step_wait ha, waitStep, hb]
  rfl

/-- While BUSY reads 1 a WAIT reads STATUS once more than its number of polls, and then the engine moves (rule R720). -/
theorem run_wait_busy {rest : List Turn} (n : Nat) : ∀ (k : Nat) (s : State), s.busy = true → s.agenda = .wait k :: rest →
    core.run (n + (k + 1)) s = core.run n (s.polled (k + 1) (.engine :: .wait 0 :: rest)) := by
  intro k
  induction k with
  | zero =>
    intro s hb ha
    exact core_run_succ (step_wait_last_poll hb ha) n
  | succ k ih =>
    intro s hb ha
    calc core.run (n + (k + 1) + 1) s
        = core.run (n + (k + 1)) (s.polled 1 (.wait k :: rest)) := core_run_succ (step_wait_poll hb ha) _
      _ = core.run n ((s.polled 1 (.wait k :: rest)).polled (k + 1) (.engine :: .wait 0 :: rest)) := ih _ hb rfl
      _ = core.run n (s.polled (k + 2) (.engine :: .wait 0 :: rest)) := by rw [State.polled_polled]

theorem step_wait_idle {s : State} {k : Nat} {rest : List Turn} (hb : s.busy = false) (ha : s.agenda = .wait k :: rest) :
    step s = .next (s.polled 1 rest) := by
  simp [step_wait ha, waitStep, hb, State.polled, State.pushRead]

/-- Where every buffer byte is written, no command word stops at an unwritten one (rule R133). -/
theorem runWord_next_of_written {s : State} (h : Written s.buf 0 s.cfg.bufSize) (w : Word) : ∃ t, runWord w s = .next t := by
  cases hd : decode w with
  | ok i =>
    rw [runWord_legal hd]
    refine (commandsStopOnlyAtUnwrittenOperandBytes i s).2.2 fun k _ hk => ?_
    simpa using h _ hk
  | error e => exact ⟨_, runWord_illegal (by simp [hd]) s⟩

/-- Settles O59: the polls, the engine's step, and the read that finds BUSY = 0. -/
theorem waitEndsWithTheCommandCompleted : Obligations.WaitEndsWithTheCommandCompleted := by
  intro s k rest hb hcmd ha hwritten
  obtain ⟨w, hw⟩ := Option.isSome_iff_exists.1 hcmd
  obtain ⟨t, ht⟩ := runWord_next_of_written (s := s.polled (k + 1) (.wait 0 :: rest)) hwritten w
  obtain ⟨⟨-, -, -, -, hagenda, hreads⟩, hcompleted, -, -⟩ := runWord_commandEnd ht
  have hengine : step (s.polled (k + 1) (.engine :: .wait 0 :: rest)) = .next t :=
    (step_inFlight (s := s.polled (k + 1) (.engine :: .wait 0 :: rest)) hb hw (.inl rfl)).trans ht
  have hlast : step t = .next (t.polled 1 rest) := step_wait_idle hcompleted.1 hagenda
  refine ⟨t.polled 1 rest, ?_, hcompleted, rfl, ?_⟩
  · calc core.run (k + 3) s
        = core.run (2 + (k + 1)) s := by rw [Nat.add_comm 2]
      _ = core.run 2 (s.polled (k + 1) (.engine :: .wait 0 :: rest)) := run_wait_busy 2 k s hb ha
      _ = core.run 1 t := core_run_succ hengine 1
      _ = .next (t.polled 1 rest) := core_run_succ hlast 0
  · simp [State.polled, hreads]
    omega

end Sys2Proof.Machine
end

section
/-! PROOFS. The statements of spec/40_crc.md: the CRC function, the CRC commands, and who writes and reads CRC_STATE. -/

namespace Sys2Proof.Machine

/-! The CRC function (rules R401, R402 and R407). -/

/-- While the bits shifted out are 0, `step_bit` only shifts. -/
theorem crcStepBits_of_low_zero (n : Nat) : ∀ c : Word, (∀ i < n, c.getLsbD i = false) → crcStepBits n c = c >>> n := by
  induction n with
  | zero => exact fun c _ => (BitVec.ushiftRight_zero c).symm
  | succ n ih =>
    intro c h
    have hstep : crcStepBit c = c >>> 1 := by
      rw [crcStepBit, h 0 n.succ_pos, if_neg Bool.false_ne_true]
    have hlow : ∀ i < n, (c >>> 1).getLsbD i = false := fun i hi => by
      rw [BitVec.getLsbD_ushiftRight]
      exact h (1 + i) (by omega)
    rw [crcStepBits, hstep, ih _ hlow, ← BitVec.shiftRight_add, Nat.add_comm]

theorem getLsbD_lowByteMask (i : Nat) : (0xFF#32).getLsbD i = decide (i < 8) := by
  rw [BitVec.getLsbD_ofNat, show 0xFF = 2 ^ 8 - 1 from rfl, Nat.testBit_two_pow_sub_one, ← Bool.decide_and,
    decide_eq_decide]
  omega

/-- A word is its upper 24 bits and its low byte, with no bit in both. -/
theorem upper_xor_lowByte (x : Word) : ((x >>> 8) <<< 8) ^^^ (x &&& 0xFF#32) = x := by
  apply BitVec.eq_of_getLsbD_eq
  intro i hi
  rw [BitVec.getLsbD_xor, BitVec.getLsbD_and, getLsbD_lowByteMask, BitVec.getLsbD_shiftLeft, BitVec.getLsbD_ushiftRight]
  by_cases h : i < 8
  · simp [h]
  · simp [h, hi, show 8 + (i - 8) = i by omega]

/-- The upper 24 bits come out of eight bit steps as they were, shifted to the bottom. -/
theorem crcStepBits_eight_upper (x : Word) : crcStepBits 8 ((x >>> 8) <<< 8) = x >>> 8 := by
  rw [crcStepBits_of_low_zero 8 _ fun i hi => by simp [hi]]
  apply BitVec.eq_of_toNat_eq
  simp only [BitVec.toNat_ushiftRight, BitVec.toNat_shiftLeft, Nat.shiftLeft_eq, Nat.shiftRight_eq_div_pow]
  omega

theorem byte_ushiftRight_eight (b : Byte) : b.setWidth 32 >>> 8 = 0#32 := by
  apply BitVec.eq_of_getLsbD_eq
  intro i hi
  simp

/-- The table-driven form of `step_byte` (rule R401), by linearity over the upper bits and the low byte (rule R405). -/
theorem crcStepByte_tableDriven (c : Word) (b : Byte) :
    crcStepByte c b = (c >>> 8) ^^^ crcStepBits 8 ((c ^^^ b.setWidth 32) &&& 0xFF#32) := by
  have hupper : (c ^^^ b.setWidth 32) >>> 8 = c >>> 8 := by
    rw [BitVec.ushiftRight_xor_distrib, byte_ushiftRight_eight, BitVec.xor_zero]
  calc crcStepByte c b
      = crcStepBits 8 (((c ^^^ b.setWidth 32) >>> 8) <<< 8 ^^^ (c ^^^ b.setWidth 32) &&& 0xFF#32) := by
        rw [upper_xor_lowByte, crcStepByte]
    _ = (c >>> 8) ^^^ crcStepBits 8 ((c ^^^ b.setWidth 32) &&& 0xFF#32) := by
        rw [crcStepBits_xor, crcStepBits_eight_upper, hupper]

/-- Settles O19: all but the table-driven form, its entry T[1] and the check value is how the function is written. -/
theorem crcFunctionFollowsItsRule : Obligations.CrcFunctionFollowsItsRule := by
  refine ⟨fun _ => rfl, fun _ => rfl, fun _ _ => rfl, fun _ _ => rfl, crcUpdate_nil, crcUpdate_cons, fun _ => rfl,
    crcStepByte_tableDriven, ?_, ?_⟩
  · decide
  · decide +kernel

/-- Two strings that differ in one byte have different CRCs: before it the registers are equal, at it they part, and no
further byte brings two registers together. -/
theorem crc32_ne_of_byte_ne (pre post : List Byte) {b b' : Byte} (h : b ≠ b') :
    crc32 (pre ++ b :: post) ≠ crc32 (pre ++ b' :: post) := by
  intro he
  rw [crc32, crc32, BitVec.xor_left_inj, crcUpdate_append, crcUpdate_append] at he
  exact h (crcStepByte_injective_right _ _ _ (crcUpdate_injective_left post _ _ he))

/-- One flipped bit is another byte. -/
theorem flipBit_ne (b : Byte) {k : Nat} (hk : k < 8) : b ^^^ (1#8 <<< k) ≠ b := by
  intro h
  have hbit := congrArg (fun x : Byte => x.getLsbD k) h
  simp [hk] at hbit

/-- Settles O20: the flipped byte is another byte. -/
theorem singleBitFlipChangesTheCrc : Obligations.SingleBitFlipChangesTheCrc :=
  fun pre post b _ hk => crc32_ne_of_byte_ne pre post (flipBit_ne b hk)

/-! The CRC commands (rules R410 to R413). -/

/-- Settles O14: CRC_INIT has no operand and no error. -/
theorem crcInitLoadsTheInitialValue : Obligations.CrcInitLoadsTheInitialValue :=
  ⟨(decode_eq_ok_iff_eq_encode _ _).2 rfl, fun _ => ⟨_, rfl, BitVec.xor_self, rfl⟩⟩

/-- What CRC_UPDATE, CRC_COMPUTE and CRC_VERIFY share: the range check, then a use of the source region's bytes. -/
def State.overSource (s : State) (use : List Byte → Result) : Result :=
  if s.srcFits then resume (readBytes s.buf s.srcBase s.srcSize) use else s.raise (.block .rangeFault)

theorem exec_crcUpdate_eq_overSource (s : State) : exec .crcUpdate s = s.overSource fun bs =>
    State.complete { s with crcState := crcUpdate s.crcState bs, consumed := s.srcLen } := rfl

theorem exec_crcCompute_eq_overSource (s : State) : exec .crcCompute s = s.overSource fun bs =>
    State.complete { s with crcState := crcUpdate crcInitValue bs, consumed := s.srcLen } := rfl

theorem exec_crcVerify_eq_overSource (s : State) : exec .crcVerify s = s.overSource fun bs =>
    if crc32 bs = s.chunkCrc then State.complete { s with calcCrc := crc32 bs, consumed := s.srcLen }
    else State.raise { s with calcCrc := crc32 bs } (.chunk .badCrc) := rfl

theorem overSource_of_holds {s : State} (hfit : s.SrcFits) {bs : List Byte} (hlen : bs.length = s.srcLen.toNat)
    (hbs : Holds s.buf s.srcAddr.toNat bs) (use : List Byte → Result) : s.overSource use = use bs := by
  have hread : readBytes s.buf s.srcBase s.srcSize = .ok bs := (readBytes_ok_iff _ _ _ _).2 ⟨hlen, hbs⟩
  rw [State.overSource, if_pos (srcFits_true hfit), hread, resume_ok]

theorem overSource_of_not_fits {s : State} (h : ¬ s.SrcFits) (use : List Byte → Result) :
    s.overSource use = .next (s.finish 0x200#32) := by
  rw [State.overSource, srcFits_false h]
  rfl

/-- Settles O15: CRC_UPDATE is a use of the source region's bytes. -/
theorem crcUpdateFeedsTheSourceRegion : Obligations.CrcUpdateFeedsTheSourceRegion :=
  ⟨(decode_eq_ok_iff_eq_encode _ _).2 rfl, fun s =>
    ⟨fun hfit _ hlen hbs => (exec_crcUpdate_eq_overSource s).trans (overSource_of_holds hfit hlen hbs _),
      fun h => (exec_crcUpdate_eq_overSource s).trans (overSource_of_not_fits h _)⟩⟩

/-- Settles O16: the initial value and the final XOR are those of `crc32`. -/
theorem crcComputeStartsAfresh : Obligations.CrcComputeStartsAfresh :=
  ⟨(decode_eq_ok_iff_eq_encode _ _).2 rfl, fun s =>
    ⟨fun hfit _ hlen hbs =>
        ⟨_, (exec_crcCompute_eq_overSource s).trans (overSource_of_holds hfit hlen hbs _), rfl, rfl⟩,
      fun h => (exec_crcCompute_eq_overSource s).trans (overSource_of_not_fits h _)⟩⟩

/-- Settles O17: the comparison with CHUNK_CRC decides between the two ends. -/
theorem crcVerifyComparesWithChunkCrc : Obligations.CrcVerifyComparesWithChunkCrc := by
  refine ⟨(decode_eq_ok_iff_eq_encode _ _).2 rfl, fun s => ?_⟩
  rw [exec_crcVerify_eq_overSource]
  refine ⟨fun hfit bs hlen hbs => ?_, fun h => overSource_of_not_fits h _⟩
  rw [overSource_of_holds hfit hlen hbs]
  exact ⟨fun heq => if_pos heq, fun hne => if_neg hne⟩

/-- What a CRC_UPDATE that has fed the bytes `bs` leaves, as far as a next one looks at it. -/
structure CrcFed (s t : State) (bs : List Byte) : Prop where
  cfg : t.cfg = s.cfg
  buf : t.buf = s.buf
  err : t.err = 0#32
  crcState : t.crcState = crcUpdate s.crcState bs

/-- A CRC_UPDATE over a segment that the buffer holds feeds that segment (rule R411). -/
theorem exec_crcUpdate_segment {s t : State} {a : Word} {bs : List Byte}
    (h : exec .crcUpdate { s with srcAddr := a, srcLen := BitVec.ofNat 32 bs.length } = .next t)
    (hlt : bs.length < 2 ^ 32) (hfit : a.toNat + bs.length ≤ s.cfg.bufSize) (hbs : Holds s.buf a.toNat bs) :
    CrcFed s t bs := by
  have hlen : (BitVec.ofNat 32 bs.length).toNat = bs.length := toNat_ofNat_word hlt
  rw [exec_crcUpdate_eq_overSource, overSource_of_holds (by rwa [← hlen] at hfit) hlen.symm hbs, complete_eq] at h
  obtain rfl := Host.Outcome.next.inj h
  exact ⟨rfl, rfl, rfl, rfl⟩

/-- Settles O18: each CRC_UPDATE feeds its part, and feeding two parts is feeding the whole. -/
theorem segmentedCrcIsTheWholeCrc : Obligations.SegmentedCrcIsTheWholeCrc := by
  intro s t u v x y hxy hfit hlt ht hu hv
  obtain ⟨hx, hy⟩ := (holds_append _ _ _ _).1 hxy
  have hmid : (s.srcAddr + BitVec.ofNat 32 x.length).toNat = s.srcAddr.toNat + x.length := by
    rw [BitVec.toNat_add, toNat_ofNat_word (by omega), Nat.mod_eq_of_lt (by omega)]
  obtain rfl := execCrcInit_next ht
  have hxfit : s.srcAddr.toNat + x.length ≤ s.cfg.bufSize := by omega
  have hfirst : CrcFed _ u x := exec_crcUpdate_segment hu (by omega) hxfit hx
  have hsecond : CrcFed u v y := exec_crcUpdate_segment hv (by omega) (by rw [hmid, hfirst.cfg]; exact hfit)
    (by rw [hmid, hfirst.buf]; exact hy)
  refine ⟨hsecond.err, ?_⟩
  calc v.crcState ^^^ 0xFFFFFFFF#32
      = crcUpdate (crcUpdate crcInitValue x) y ^^^ crcXorOut := by rw [hsecond.crcState, hfirst.crcState]; rfl
    _ = crc32 (x ++ y) := by rw [← crcUpdate_append, crc32]

/-! Who writes and reads CRC_STATE (rule R403). -/

/-- Where the first result is a next state, so is the second: the same with `v` in CRC_STATE. -/
def CrcStateAside (v : Word) (r r' : Result) : Prop := ∀ t, r = .next t → r' = .next { t with crcState := v }

theorem CrcStateAside.next (v : Word) (u : State) : CrcStateAside v (.next u) (.next { u with crcState := v }) := by
  rintro t ⟨⟩
  rfl

theorem CrcStateAside.ite {v : Word} {c : Prop} [Decidable c] {r₁ r₂ r₁' r₂' : Result} (h₁ : CrcStateAside v r₁ r₁')
    (h₂ : CrcStateAside v r₂ r₂') : CrcStateAside v (if c then r₁ else r₂) (if c then r₁' else r₂') := by
  split
  · exact h₁
  · exact h₂

/-- What is read from memory does not depend on CRC_STATE, so the continuations decide. -/
theorem CrcStateAside.resume {α : Type} {v : Word} {r : Except Fault α} {k k' : α → Result}
    (h : ∀ a, CrcStateAside v (k a) (k' a)) : CrcStateAside v (resume r k) (resume r k') := by
  cases r with
  | ok a => exact h a
  | error f => rintro t ⟨⟩

section

variable (s : State) (v : Word)

theorem execCrcVerify_crcStateAside : CrcStateAside v (execCrcVerify s) (execCrcVerify { s with crcState := v }) :=
  .ite (.resume fun _ => .ite (.next v _) (.next v _)) (.next v _)

theorem execChunkCrcGen_crcStateAside : CrcStateAside v (execChunkCrcGen s) (execChunkCrcGen { s with crcState := v }) :=
  .ite (.ite (.resume fun _ => .next v _) (.next v _)) (.next v _)

theorem execChunkDecode_crcStateAside : CrcStateAside v (execChunkDecode s) (execChunkDecode { s with crcState := v }) := by
  refine .ite (.resume fun r => ?_) (.next v _)
  match r with
  | .accepted .. => exact .next v _
  | .failed _ none => exact .next v _
  | .failed _ (some _) => exact .next v _

theorem execChunkEncode_crcStateAside : CrcStateAside v (execChunkEncode s) (execChunkEncode { s with crcState := v }) := by
  have hcheck : State.encodeCheck { s with crcState := v } = s.encodeCheck := rfl
  rw [execChunkEncode_eq, execChunkEncode_eq, hcheck]
  cases s.encodeCheck with
  | some e => exact .next v _
  | none => exact .resume fun _ => .next v _

theorem execSigCheck_crcStateAside : CrcStateAside v (execSigCheck s) (execSigCheck { s with crcState := v }) :=
  .ite (.resume fun _ => .ite (.next v _) (.next v _)) (.next v _)

theorem execSigEmit_crcStateAside : CrcStateAside v (execSigEmit s) (execSigEmit { s with crcState := v }) :=
  .ite (.ite (.next v _) (.next v _)) (.next v _)

theorem execPngParse_crcStateAside : CrcStateAside v (execPngParse s) (execPngParse { s with crcState := v }) := by
  have hcheck : State.parseCheck { s with crcState := v } = s.parseCheck := rfl
  rw [execPngParse_eq, execPngParse_eq, hcheck]
  cases s.parseCheck with
  | some e => exact .next v _
  | none =>
    refine .resume fun _ => .ite (.resume fun r => ?_) (.next v _)
    match r with
    | .finished _ => exact .ite (.next v _) (.next v _)
    | .stopped _ _ => exact .next v _

end

/-- A command outside the CRC generator carries CRC_STATE along. -/
theorem exec_crcStateAside {i : Instr} (h₁ : i ≠ .crcInit) (h₂ : i ≠ .crcUpdate) (h₃ : i ≠ .crcCompute) (s : State)
    (v : Word) : CrcStateAside v (exec i s) (exec i { s with crcState := v }) := by
  cases i with
  | crcInit => exact absurd rfl h₁
  | crcUpdate => exact absurd rfl h₂
  | crcCompute => exact absurd rfl h₃
  | crcVerify => exact execCrcVerify_crcStateAside s v
  | typeCheck => exact .next v _
  | chunkCrcGen => exact execChunkCrcGen_crcStateAside s v
  | chunkDecode => exact execChunkDecode_crcStateAside s v
  | chunkEncode => exact execChunkEncode_crcStateAside s v
  | sigCheck => exact execSigCheck_crcStateAside s v
  | sigEmit => exact execSigEmit_crcStateAside s v
  | pngParse => exact execPngParse_crcStateAside s v

/-- CRC_COMPUTE over another CRC_STATE: a success writes the same one, a RangeFault leaves it (rule R412). -/
theorem execCrcCompute_crcState {s t : State} (h : execCrcCompute s = .next t) (v : Word) :
    execCrcCompute { s with crcState := v } = .next t
      ∨ t.err ≠ 0#32 ∧ execCrcCompute { s with crcState := v } = .next { t with crcState := v } := by
  rcases execCrcCompute_next h with ⟨hfit, rfl⟩ | ⟨hfit, bs, hbs, rfl⟩
  · exact .inr ⟨finish_raised_err_ne_zero s _, if_neg (ne_true_of_eq_false hfit)⟩
  · exact .inl ((if_pos hfit).trans (congrArg (resume · _) hbs))

/-- Settles O21: the other commands have no result in CRC_STATE and carry it along; of the three that write it, CRC_INIT and
CRC_COMPUTE do not look at it. -/
theorem crcStateIsTheGeneratorsAlone : Obligations.CrcStateIsTheGeneratorsAlone := by
  constructor
  · intro i s t h₁ h₂ h₃ h
    have hresult : Reg.crcState ∉ resultRegs i := by
      revert h₁ h₂ h₃
      cases i <;> decide
    exact commandsWriteOnlyTheirResultRegisters i s t .crcState h (by decide) (by decide) hresult
  · intro i s t v h₂ h
    by_cases h₁ : i = .crcInit
    · subst h₁
      obtain rfl := execCrcInit_next h
      exact ⟨_, rfl, rfl, fun _ _ => rfl⟩
    by_cases h₃ : i = .crcCompute
    · subst h₃
      rcases execCrcCompute_crcState h v with h' | ⟨herr, h'⟩
      · exact ⟨t, h', rfl, fun _ _ => rfl⟩
      · exact ⟨_, h', rfl, fun _ h0 => absurd h0 herr⟩
    · exact ⟨_, exec_crcStateAside h₁ h₂ h₃ s v t h, rfl, fun hi => absurd hi (not_or_intro h₁ h₃)⟩

end Sys2Proof.Machine
end

section
/-! PROOFS. The statements of spec/41_chunk_codec.md: the type check, the chunk CRC, and decoding and encoding one record. -/

namespace Sys2Proof.Machine

/-! TYPE_CHECK (rules R451 and R460). -/

theorem toBe32_injective {x y : Word} (h : toBe32 x = toBe32 y) : x = y := by
  rw [← be32_toBe32 x, h, be32_toBe32]

/-- The bits of TYPEFLAGS, one property each (rule R451). -/
theorem getLsbD_typeFlagsOf (t : Word) (k : Nat) : (typeFlagsOf t).getLsbD k =
    (letters t && k == 0 || !t.getLsbD 29 && k == 1 || !t.getLsbD 21 && k == 2 || !t.getLsbD 13 && k == 3
      || t.getLsbD 5 && k == 4 || t == iendType && k == 5 || t == hdrType && k == 6) := by
  simp [typeFlagsOf, getLsbD_flagBit]

/-- A type code equals a constant exactly when their four bytes do (rule R452). -/
theorem beq_iff_toBe32_eq {t c : Word} {bs : List Byte} (hc : toBe32 c = bs) : (t == c) = true ↔ toBe32 t = bs := by
  rw [beq_iff_eq, ← hc]
  exact ⟨congrArg toBe32, toBe32_injective⟩

/-- Settles O23: TYPE_CHECK has one end, and each bit of its word is one property. -/
theorem typeCheckReportsEveryProperty : Obligations.TypeCheckReportsEveryProperty := by
  refine ⟨(decode_eq_ok_iff_eq_encode _ _).2 rfl, fun s t0 t1 t2 t3 h => ⟨typeFlagsOf s.chunkType, rfl, ?_⟩⟩
  have hbytes := h
  simp only [toBe32, List.cons.injEq, and_true] at hbytes
  obtain ⟨rfl, rfl, rfl, rfl⟩ := hbytes
  rw [← h]
  simp only [getLsbD_typeFlagsOf]
  refine ⟨?_, by simp, by simp, by simp, by simp, ?_, ?_, fun k hk => ?_⟩
  · simpa using letters_iff s.chunkType
  · simpa using beq_iff_toBe32_eq (t := s.chunkType) (c := iendType) (by decide)
  · simpa using beq_iff_toBe32_eq (t := s.chunkType) (c := hdrType) (by decide)
  · have hne : k ≠ 0 ∧ k ≠ 1 ∧ k ≠ 2 ∧ k ≠ 3 ∧ k ≠ 4 ∧ k ≠ 5 ∧ k ≠ 6 := by omega
    simp [hne]

/-! CHUNK_CRC_GEN (rule R461). -/

/-- Reading the data region gives the bytes it holds. -/
theorem readBytes_data {s : State} {d : List Byte} (hlen : d.length = s.chunkLen.toNat)
    (hd : Holds s.buf s.dataAddr.toNat d) : readBytes s.buf s.dataBase s.dataSize = .ok d :=
  (readBytes_ok_iff _ _ _ _).2 ⟨hlen, hd⟩

/-- Settles O24: the range check, then the letter check, then the CRC of the bytes read. -/
theorem chunkCrcGenComputesTheChunkCrc : Obligations.ChunkCrcGenComputesTheChunkCrc := by
  refine ⟨(decode_eq_ok_iff_eq_encode _ _).2 rfl, fun s => ⟨fun hfit => ?_, fun hfit hl => ?_, fun hfit hl d hlen hd => ?_⟩⟩
  · exact if_neg (ne_true_of_eq_false (dataFits_false hfit))
  · exact (if_pos (dataFits_true hfit)).trans (if_neg (ne_true_of_eq_false ((letters_false_iff _).2 hl)))
  · have hletters := (letters_iff _).2 hl
    rw [exec, execChunkCrcGen, if_pos (dataFits_true hfit), if_pos hletters, readBytes_data hlen hd]
    rfl

/-! CHUNK_DECODE (rules R470 and R471). -/

/-- The state in which CHUNK_DECODE ends with each answer of `decode_chunk`: CALC_CRC is kept where no CRC was computed. -/
def State.decodeEnd (s : State) : Decoded → State
  | .accepted len t stored crc => (s.storeDecoded len t stored crc).finish 0#32
  | .failed k crc => { s with calcCrc := crc.getD s.calcCrc }.finish (errCode (.chunk k))

theorem exec_chunkDecode_of_ok {s : State} (hfit : s.SrcFits) {r : Decoded}
    (h : decodeChunk s.buf s.srcBase s.srcSize = .ok r) : exec .chunkDecode s = .next (s.decodeEnd r) := by
  rw [exec, execChunkDecode, if_pos (srcFits_true hfit), h]
  match r with
  | .accepted .. => rfl
  | .failed _ none => rfl
  | .failed _ (some _) => rfl

theorem exec_chunkDecode_of_not_fits {s : State} (h : ¬ s.SrcFits) : exec .chunkDecode s = .next (s.finish 0x200#32) :=
  if_neg (ne_true_of_eq_false (srcFits_false h))

/-- A record whose CRC field and type are right passes steps 5 and 6 (rule R470). -/
theorem checkRecord_right (len : Nat) {ty : Word} (d : List Byte) (hl : LetterCode ty) :
    checkRecord len ty d (chunkCrcOf ty d) = .accepted len ty (chunkCrcOf ty d) (chunkCrcOf ty d) := by
  rw [checkRecord, if_pos rfl, if_pos ((letters_iff ty).2 hl)]

/-- CONSUMED holds the record's length: 12 + L as a u32 (rule R125). -/
theorem ofNat_recordLength (len : Word) : BitVec.ofNat 32 (12 + len.toNat) = 12#32 + len := by
  rw [BitVec.ofNat_add, BitVec.ofNat_toNat, BitVec.setWidth_eq]

/-- The registers of an accepted record, in terms of its LENGTH field. -/
theorem storeDecoded_lengthField (s : State) (len t stored crc : Word) : s.storeDecoded len.toNat t stored crc =
    { s with
      chunkLen := len, chunkType := t, chunkCrc := stored, dataAddr := s.srcAddr + 8#32, calcCrc := crc
      typeflags := typeFlagsOf t, consumed := 12#32 + len } := by
  rw [State.storeDecoded, ofNat_recordLength, BitVec.ofNat_toNat, BitVec.setWidth_eq]

/-- Settles O25: `decode_chunk` accepts the record, and CHUNK_DECODE stores what it answers. -/
theorem chunkDecodeAcceptsAGoodRecord : Obligations.ChunkDecodeAcceptsAGoodRecord := by
  intro s len ty d hfit hlen hn hl hh
  have hdec := decodeChunk_fields s.buf s.srcBase s.srcSize len ty d _ hlen hn hh
  rw [exec_chunkDecode_of_ok hfit (hdec.trans (congrArg _ (checkRecord_right _ d hl))), State.decodeEnd, hlen,
    storeDecoded_lengthField]
  rfl

/-- The ERR values of the four chunk errors (rule R331). -/
theorem eq_errCode_of_mem {k : ChunkKind} {e : Word}
    (h : (k, e) ∈ [(ChunkKind.tooShort, 0x001#32), (.tooLong, 0x002#32), (.badCrc, 0x003#32), (.generic, 0x004#32)]) :
    e = errCode (.chunk k) := by
  simp only [List.mem_cons, Prod.mk.injEq, List.not_mem_nil, or_false] at h
  rcases h with ⟨rfl, rfl⟩ | ⟨rfl, rfl⟩ | ⟨rfl, rfl⟩ | ⟨rfl, rfl⟩ <;> rfl

/-- Settles O26: `decode_chunk` fails with the record's kind, with a CRC where it has computed one. -/
theorem chunkDecodeFailsAtTheFirstCheck : Obligations.ChunkDecodeFailsAtTheFirstCheck := by
  refine fun s => ⟨exec_chunkDecode_of_not_fits, fun hfit k e he hfails => ?_⟩
  obtain rfl := eq_errCode_of_mem he
  obtain ⟨c, hdec, hnone, hsome⟩ := decodeChunk_fails _ _ _ _ hfails
  refine ⟨c.getD s.calcCrc, exec_chunkDecode_of_ok hfit hdec, fun hk => ?_, fun len ty d crc hk hlen hh => ?_⟩
  · rw [hnone hk, Option.getD_none]
  · obtain ⟨x, rfl, hx⟩ := hsome hk
    exact hx len ty d crc hlen hh

/-! CHUNK_ENCODE (rule R480). -/

theorem encodeOverlaps_iff (s : State) : s.encodeOverlaps = true ↔
    RegionsOverlap s.dataAddr.toNat s.chunkLen.toNat s.dstAddr.toNat (12 + s.chunkLen.toNat)
      ∧ s.dataAddr.toNat ≠ s.dstAddr.toNat + 8 := by
  rw [State.encodeOverlaps, Bool.and_eq_true, overlap_iff, bne_iff_ne]
  rfl

theorem encodeOverlaps_eq_false {s : State}
    (h : ¬ RegionsOverlap s.dataAddr.toNat s.chunkLen.toNat s.dstAddr.toNat (12 + s.chunkLen.toNat)
      ∨ s.dataAddr.toNat = s.dstAddr.toNat + 8) : s.encodeOverlaps = false := by
  rw [← Bool.not_eq_true, encodeOverlaps_iff]
  rintro ⟨hov, hne⟩
  exact h.elim (absurd hov) hne

theorem exec_chunkEncode_of_check {s : State} {e : Raised} (h : s.encodeCheck = some e) :
    exec .chunkEncode s = .next (s.finish (errCode e)) := by
  rw [exec, execChunkEncode_eq, h]
  rfl

theorem exec_chunkEncode_of_data {s : State} (h : s.encodeCheck = none) {d : List Byte}
    (hlen : d.length = s.chunkLen.toNat) (hd : Holds s.buf s.dataAddr.toNat d) :
    exec .chunkEncode s = .next ((s.storeEncoded d).finish 0#32) := by
  rw [exec, execChunkEncode_eq, h]
  exact congrArg (resume · _) (readBytes_data hlen hd)

theorem encodeCheck_of_not_fits {s : State} (h : ¬ s.DataFits ∨ ¬ s.DstFits) : s.encodeCheck = some (.block .rangeFault) := by
  by_cases hdata : s.DataFits
  · have hdst := dstFits_false (h.resolve_left (not_not_intro hdata))
    simp [State.encodeCheck, dataFits_true hdata, hdst]
  · simp [State.encodeCheck, dataFits_false hdata]

/-- With both regions in the buffer, the checks left are capacity, overlap and letters, in this order. -/
theorem encodeCheck_of_fits {s : State} (hdata : s.DataFits) (hdst : s.DstFits) : s.encodeCheck =
    if s.dstLen.toNat < 12 + s.chunkLen.toNat then some (.block .dstTooSmall)
    else if s.encodeOverlaps then some (.block .overlap)
    else if !letters s.chunkType then some (.chunk .generic)
    else none := by
  rw [State.encodeCheck, dataFits_true hdata, dstFits_true hdst]
  rfl

/-- Settles O28: each failure is the first check that fails, and raises with nothing written. -/
theorem chunkEncodeFailsAtTheFirstCheck : Obligations.ChunkEncodeFailsAtTheFirstCheck := by
  refine fun s => ⟨fun h => exec_chunkEncode_of_check (encodeCheck_of_not_fits h), fun hdata hdst => ?_⟩
  have hcheck := encodeCheck_of_fits hdata hdst
  refine ⟨fun hsmall => ?_, fun hcap => ⟨fun hov hne => ?_, fun hok hl => ?_⟩⟩
  · exact exec_chunkEncode_of_check (hcheck.trans (if_pos hsmall))
  · rw [if_neg (Nat.not_lt.2 hcap), if_pos ((encodeOverlaps_iff s).2 ⟨hov, hne⟩)] at hcheck
    exact exec_chunkEncode_of_check hcheck
  · rw [if_neg (Nat.not_lt.2 hcap), encodeOverlaps_eq_false hok, (letters_false_iff _).2 hl] at hcheck
    exact exec_chunkEncode_of_check hcheck

/-- What a CHUNK_ENCODE stores: the record of its chunk, in a region of the record's length. -/
theorem storeEncoded_holds {s : State} {d : List Byte} (hlen : d.length = s.chunkLen.toNat) :
    Holds (s.storeEncoded d).buf s.dstAddr.toNat
      (fieldsBytes s.chunkLen s.chunkType d (crc32 (toBe32 s.chunkType ++ d))) := by
  rw [fieldsBytes_eq_recordBytes _ _ _ _ hlen]
  exact holds_writeBytes _ _ _

theorem storeEncoded_sameBytesOutside {s : State} {d : List Byte} (hlen : d.length = s.chunkLen.toNat) :
    SameBytesOutside s.buf (s.storeEncoded d).buf s.dstAddr.toNat (12 + s.chunkLen.toNat) := by
  rw [← hlen, ← length_recordBytes s.chunkType d (chunkCrcOf s.chunkType d)]
  exact sameBytesOutside_writeBytes _ _ _

/-- Settles O27: no check fails, and the record is stored from the data read before. -/
theorem chunkEncodeWritesTheRecord : Obligations.ChunkEncodeWritesTheRecord := by
  intro s d hdata hdst hcap hok hl hlen hd
  have hcheck : s.encodeCheck = none := by
    rw [encodeCheck_of_fits hdata hdst, if_neg (Nat.not_lt.2 hcap), encodeOverlaps_eq_false hok, (letters_iff _).2 hl]
    rfl
  refine ⟨(s.storeEncoded d).buf, ?_, storeEncoded_holds hlen, storeEncoded_sameBytesOutside hlen⟩
  rw [exec_chunkEncode_of_data hcheck hlen hd, ← ofNat_recordLength]
  rfl

/-! Decoding an encoded record (rule R481). -/

/-- Settles O29: the encoder leaves a good record, which the decoder accepts, and its data field holds the data read. -/
theorem decodeOfEncodedChunkGivesItBack : Obligations.DecodeOfEncodedChunkGivesItBack := by
  intro s t u h h0 hbuf hcfg hsrc hsize
  rcases execChunkEncode_next h with ⟨e, -, rfl⟩ | ⟨hcheck, d, hread, rfl⟩
  · exact absurd h0 (finish_raised_err_ne_zero _ _)
  obtain ⟨-, hdst, hcap, -, hletters⟩ := encodeCheck_none hcheck
  obtain ⟨hlen, hdata⟩ := (readBytes_ok_iff _ _ _ _).1 hread
  have hfit : u.SrcFits := by
    have hregion := (dstFits_iff s).1 hdst
    show u.srcAddr.toNat + u.srcLen.toNat ≤ u.cfg.bufSize
    rw [hsrc, hsize, hcfg]
    exact (Nat.add_le_add_left hcap _).trans hregion
  have hrecord := storeEncoded_holds hlen
  have hfield := ((holds_append _ _ _ _).1 ((holds_append _ _ _ _).1 hrecord).1).2
  rw [← State.finish_buf (s.storeEncoded d) 0#32, ← hbuf, ← hsrc] at hrecord
  refine ⟨_, chunkDecodeAcceptsAGoodRecord u _ _ d hfit hlen hsize.ge ((letters_iff _).1 hletters) hrecord, rfl, rfl, rfl,
    rfl, congrArg (· + 8#32) hsrc, fun i hi => ?_⟩
  have hi' : i < d.length := hlen.symm ▸ hi
  calc readByte u.buf (s.dstAddr.toNat + 8 + i)
      = d[i]? := by rw [hbuf]; exact hfield i hi'
    _ = readByte s.buf (s.dataAddr.toNat + i) := (hdata i hi').symm

/-! A record with one byte changed (rules R407 and R482). -/

/-- Storing a byte in a region changes the string it holds at that place. -/
theorem Holds.writeByte_set {m : Memory} {a : Nat} {bs : List Byte} (h : Holds m a bs) (k : Nat) (b : Byte) :
    Holds (writeByte m (a + k) b) a (bs.set k b) := by
  intro i hi
  rw [List.length_set] at hi
  rw [readByte_writeByte, List.getElem?_set]
  by_cases hik : i = k
  · subst hik
    simp [hi]
  · rw [if_neg (by omega), if_neg (Ne.symm hik), h i hi]

/-- A string with one byte changed has another CRC. -/
theorem crc32_set_ne {bs : List Byte} {i : Nat} {b b' : Byte} (hb : bs[i]? = some b) (hne : b' ≠ b) :
    crc32 (bs.set i b') ≠ crc32 bs := by
  obtain ⟨hi, rfl⟩ := List.getElem?_eq_some_iff.1 hb
  have hsplit : bs.take i ++ bs[i] :: bs.drop (i + 1) = bs := by
    rw [List.getElem_cons_drop, List.take_append_drop]
  rw [List.set_eq_take_append_cons_drop, if_pos hi]
  have := crc32_ne_of_byte_ne (bs.take i) (bs.drop (i + 1)) hne
  rwa [hsplit] at this

section

variable {m : Memory} {a n : Nat} {len crc : Word} {body : List Byte}

/-- A record fails with BadCRC where its CRC field is not the CRC of the bytes between LENGTH and CRC. -/
theorem recordFails_badCrc_of_body (hlen : body.length = 4 + len.toNat) (hn : 12 + len.toNat ≤ n)
    (hh : Holds m a (toBe32 len ++ (body ++ toBe32 crc))) (hcrc : crc32 body ≠ crc) : RecordFails m a n .badCrc := by
  have hbody : toBe32 (be32 (body.take 4)) ++ body.drop 4 = body := by
    rw [toBe32_be32 _ (by simp; omega), List.take_append_drop]
  refine ⟨len, be32 (body.take 4), body.drop 4, crc, by simp; omega, hn, ?_, by rwa [hbody]⟩
  rwa [fieldsBytes, List.append_assoc (toBe32 len), hbody, List.append_assoc]

/-- A record with a right CRC fails with BadCRC once any one byte behind its LENGTH field is another one. -/
theorem recordFails_badCrc_of_changed (hlen : body.length = 4 + len.toNat) (hn : 12 + len.toNat ≤ n)
    (hh : Holds m a (toBe32 len ++ (body ++ toBe32 crc))) (hcrc : crc32 body = crc) {i : Nat} {b b' : Byte}
    (hb : (body ++ toBe32 crc)[i]? = some b) (hne : b' ≠ b) : RecordFails (writeByte m (a + (4 + i)) b') a n .badCrc := by
  have hset := hh.writeByte_set (4 + i) b'
  rw [List.set_append_right _ _ (by simp), length_toBe32, Nat.add_sub_cancel_left] at hset
  by_cases hi : i < body.length
  · rw [List.set_append_left _ _ hi] at hset
    rw [List.getElem?_append_left hi] at hb
    exact recordFails_badCrc_of_body (by rwa [List.length_set]) hn hset (hcrc ▸ crc32_set_ne hb hne)
  · have hi := Nat.not_lt.1 hi
    rw [List.set_append_right _ _ hi] at hset
    rw [List.getElem?_append_right hi] at hb
    have hfield : toBe32 (be32 ((toBe32 crc).set (i - body.length) b')) = (toBe32 crc).set (i - body.length) b' :=
      toBe32_be32 _ (by simp)
    refine recordFails_badCrc_of_body hlen hn (hfield.symm ▸ hset) fun heq => hne ?_
    obtain ⟨hlt, -⟩ := List.getElem?_eq_some_iff.1 hb
    rw [← heq, hcrc] at hfield
    rw [hfield, List.getElem?_set_self hlt] at hb
    exact Option.some.inj hb

end

/-- A record that CHUNK_DECODE has accepted: it fits, and its CRC field is the CRC of its type and data (rule R470). -/
theorem exec_chunkDecode_accepted {s t : State} (h : exec .chunkDecode s = .next t) (h0 : t.err = 0#32) :
    s.SrcFits ∧ 12 + t.chunkLen.toNat ≤ s.srcLen.toNat ∧ ∃ body : List Byte, body.length = 4 + t.chunkLen.toNat
      ∧ Holds s.buf s.srcAddr.toNat (toBe32 t.chunkLen ++ (body ++ toBe32 (crc32 body))) := by
  rcases execChunkDecode_next h with ⟨-, rfl⟩ | ⟨hf, r, hd, ⟨len, ty, st, crc, rfl, rfl⟩ | ⟨k, -, rfl⟩ | ⟨k, crc, -, rfl⟩⟩
  · exact absurd h0 (finish_raised_err_ne_zero _ _)
  · obtain ⟨d, rfl, hn, hlt, hh, rfl, -⟩ := decodeChunk_accepted _ _ _ _ _ _ _ hd
    have hlen : ((s.storeDecoded d.length ty (chunkCrcOf ty d) crc).finish 0#32).chunkLen.toNat = d.length :=
      toNat_ofNat_word hlt
    refine ⟨(srcFits_iff s).1 hf, hlen.symm ▸ hn, toBe32 ty ++ d, ?_, ?_⟩
    · rw [hlen, List.length_append, length_toBe32]
    · rw [recordBytes, List.append_assoc (toBe32 _), List.append_assoc] at hh
      exact hh
  · exact absurd h0 (finish_raised_err_ne_zero _ _)
  · exact absurd h0 (finish_raised_err_ne_zero _ _)

/-- Settles O30: the flipped byte is another byte, so the record it stands in fails with BadCRC. -/
theorem flippedRecordFailsWithBadCrc : Obligations.FlippedRecordFailsWithBadCrc := by
  intro s t k j b h h0 hk hlt hj hb
  obtain ⟨hfit, hn, body, hlen, hh⟩ := exec_chunkDecode_accepted h h0
  obtain ⟨i, rfl⟩ := Nat.exists_eq_add_of_le hk
  have hbytes := ((holds_append _ _ _ _).1 hh).2
  have hi : (body ++ toBe32 (crc32 body))[i]? = some b := by
    rw [← hb, ← Nat.add_assoc]
    exact (hbytes i (by simp; omega)).symm
  have hfails := recordFails_badCrc_of_changed hlen hn hh rfl hi (flipBit_ne b hj)
  obtain ⟨-, hfailure⟩ := chunkDecodeFailsAtTheFirstCheck
    { s with buf := writeByte s.buf (s.srcAddr.toNat + (4 + i)) (b ^^^ (1#8 <<< j)) }
  obtain ⟨c, hexec, -⟩ := hfailure hfit .badCrc 0x003#32 (by decide) hfails
  exact ⟨_, hexec, rfl, rfl, rfl, rfl⟩

end Sys2Proof.Machine
end

section
/-! PROOFS. The statements of spec/42_png_stream.md: the signature commands, the walk of PNG_PARSE and its ends, and the
commands that build a stream. -/

namespace Sys2Proof.Machine

/-! SIG_CHECK and SIG_EMIT (rules R510 and R511). -/

/-- SIG_CHECK ends with what the comparison of its first eight bytes answers. -/
theorem exec_sigCheck_of_ok {s : State} (hfit : s.SrcFits) {ok : Bool}
    (h : signatureMatches s.buf s.srcBase s.srcSize = .ok ok) : exec .sigCheck s =
      if ok then .next ({ s with consumed := 8#32 }.finish 0#32) else .next (s.finish (errCode (.cont .badHeader))) := by
  rw [exec, execSigCheck, if_pos (srcFits_true hfit), h]
  rfl

/-- Eight bytes other than the signature do not match it. -/
theorem signatureMatches_wrong {m : Memory} {a n : Nat} {bs : List Byte} (hn : 8 ≤ n) (hlen : bs.length = 8)
    (hh : Holds m a bs) (hne : bs ≠ pngSig) : signatureMatches m a n = .ok false := by
  rw [signatureMatches_holds m a n bs hn hlen hh, beq_false_of_ne hne]

theorem signatureMatches_right {m : Memory} {a n : Nat} (hn : 8 ≤ n) (hh : Holds m a pngSig) :
    signatureMatches m a n = .ok true :=
  signatureMatches_holds m a n pngSig hn rfl hh

/-- Settles O31: the range check, then the length, then the comparison of the eight bytes read. -/
theorem sigCheckComparesEightBytes : Obligations.SigCheckComparesEightBytes := by
  refine ⟨(decode_eq_ok_iff_eq_encode _ _).2 rfl, fun s => ⟨fun hfit => ?_, fun hfit hshort => ?_,
    fun hfit hlong bs hlen hh => ⟨?_, fun hne => ?_⟩⟩⟩
  · exact if_neg (ne_true_of_eq_false (srcFits_false hfit))
  · exact exec_sigCheck_of_ok hfit (signatureMatches_short _ _ _ hshort)
  · rintro rfl
    exact exec_sigCheck_of_ok hfit (signatureMatches_right hlong hh)
  · exact exec_sigCheck_of_ok hfit (signatureMatches_wrong hlong hlen hh hne)

/-- Settles O32: the range check, then the capacity check, then the signature stored as a byte string. -/
theorem sigEmitWritesTheSignature : Obligations.SigEmitWritesTheSignature := by
  refine ⟨(decode_eq_ok_iff_eq_encode _ _).2 rfl, fun s => ⟨fun hfit => ?_, fun hfit hsmall => ?_, fun hfit hcap =>
    ⟨writeBytes s.buf s.dstBase pngSig, ?_, holds_writeBytes _ _ _, sameBytesOutside_writeBytes _ _ pngSig⟩⟩⟩
  · exact if_neg (ne_true_of_eq_false (dstFits_false hfit))
  · exact (if_pos (dstFits_true hfit)).trans (if_pos hsmall)
  · exact (if_pos (dstFits_true hfit)).trans (if_neg (Nat.not_lt.2 hcap))

/-! What PNG_PARSE answers at each of its ends (rules R520 to R522). -/

section

variable {s : State}

theorem exec_pngParse_of_check {e : Raised} (h : s.parseCheck = some e) :
    exec .pngParse s = .next (s.finish (errCode e)) := by
  rw [exec, execPngParse_eq, h]
  rfl

theorem exec_pngParse_of_wrong_signature (hcheck : s.parseCheck = none)
    (hsig : signatureMatches s.buf s.srcBase s.srcSize = .ok false) :
    exec .pngParse s = .next (s.parseFailed (.cont .badHeader) 0 0 s.buf) := by
  rw [exec, execPngParse_eq, hcheck, hsig]
  rfl

theorem exec_pngParse_of_stopped (hcheck : s.parseCheck = none)
    (hsig : signatureMatches s.buf s.srcBase s.srcSize = .ok true) {e : Raised} {w : Walk}
    (hwalk : s.walk = .ok (.stopped e w)) :
    exec .pngParse s = .next (s.parseFailed e w.count w.off w.buf) := by
  rw [exec, execPngParse_eq, hcheck, hsig, hwalk]
  rfl

theorem exec_pngParse_of_finished (hcheck : s.parseCheck = none)
    (hsig : signatureMatches s.buf s.srcBase s.srcSize = .ok true) {w : Walk} (hwalk : s.walk = .ok (.finished w)) :
    exec .pngParse s = s.endParse w := by
  rw [exec, execPngParse_eq, hcheck, hsig, hwalk]
  rfl

theorem parseCheck_of_not_fits (h : ¬ s.SrcFits ∨ ¬ s.DstFits) : s.parseCheck = some (.block .rangeFault) := by
  by_cases hsrc : s.SrcFits
  · have hdst := dstFits_false (h.resolve_left (not_not_intro hsrc))
    simp [State.parseCheck, srcFits_true hsrc, hdst]
  · simp [State.parseCheck, srcFits_false hsrc]

theorem parseCheck_of_overlap (hsrc : s.SrcFits) (hdst : s.DstFits)
    (h : RegionsOverlap s.srcAddr.toNat s.srcLen.toNat s.dstAddr.toNat s.dstLen.toNat) :
    s.parseCheck = some (.block .overlap) := by
  have hov : overlap s.srcBase s.srcSize s.dstBase s.dstSize = true := (overlap_iff _ _ _ _).2 h
  simp [State.parseCheck, srcFits_true hsrc, dstFits_true hdst, hov]

end

/-- Settles O37: the first block check that fails raises; past them a stream without the signature raises BadHeader. -/
theorem pngParseChecksOperandsThenSignature : Obligations.PngParseChecksOperandsThenSignature := by
  refine fun s => ⟨fun h => exec_pngParse_of_check (parseCheck_of_not_fits h),
    fun hsrc hdst hov => exec_pngParse_of_check (parseCheck_of_overlap hsrc hdst hov), fun hp hbad => ?_⟩
  refine exec_pngParse_of_wrong_signature (parseCheck_of_operands hp) ?_
  by_cases hshort : s.srcLen.toNat < 8
  · exact signatureMatches_short _ _ _ hshort
  · obtain ⟨bs, hlen, hh, hne⟩ := hbad.resolve_left hshort
    exact signatureMatches_wrong (Nat.not_lt.1 hshort) hlen hh hne

/-! A walk behind valid chunks (rules R520 to R522). -/

/-- `decode_chunk` accepts the record of a valid chunk (rule R470). -/
theorem decodeChunk_validRecord {m : Memory} {a n : Nat} {c : Chunk} (hv : c.Valid) (hn : 12 + c.data.length ≤ n)
    (hh : Holds m a c.record) : decodeChunk m a n = .ok (.accepted c.data.length c.type c.crc c.crc) := by
  obtain ⟨hl, hlen⟩ := hv
  rw [decodeChunk_record m a n c.type c.crc c.data hlen hn hh]
  exact congrArg _ (checkRecord_right _ _ hl)

/-- Where PNG_PARSE has walked over the valid chunks `cs` at the head of its stream: its walk stands behind their records, has
their descriptors in the table, and has kept every byte outside them. -/
structure StandsBehind (s : State) (cs : List Chunk) (w : Walk) : Prop where
  off : w.off = (streamBytes cs).length
  count : w.count = cs.length
  first : w.first = cs.head?.map Chunk.type
  last : w.last = cs.getLast?.map Chunk.type
  table : Holds w.buf s.dstAddr.toNat (tableBytes 8 cs)
  outside : SameBytesOutside s.buf w.buf s.dstAddr.toNat (16 * cs.length)

/-- PNG_PARSE ends in the state `u m` for a memory `m` that holds the descriptors of `cs` and is as before outside them
(rules R520 and R522). -/
def ParseEnds (s : State) (cs : List Chunk) (u : Memory → State) : Prop :=
  ∃ m : Memory, exec .pngParse s = .next (u m) ∧ Holds m s.dstAddr.toNat (tableBytes 8 cs)
    ∧ SameBytesOutside s.buf m s.dstAddr.toNat (16 * cs.length)

section

variable {s : State} {cs : List Chunk} {w : Walk}

theorem StandsBehind.parseEnds (h : StandsBehind s cs w) {u : Memory → State} (he : exec .pngParse s = .next (u w.buf)) :
    ParseEnds s cs u :=
  ⟨w.buf, he, h.table, h.outside⟩

/-- Every chunk takes bytes of the stream, so the bound of the loop outlasts the chunks (rule R523, log entry 10). -/
theorem length_lt_length_streamBytes (cs : List Chunk) : cs.length < (streamBytes cs).length := by
  have := le_recordsLength cs
  rw [length_streamBytes]
  omega

/-- The walk's stream is as it was: the table lies apart from it (rule R520). -/
theorem StandsBehind.source (h : StandsBehind s cs w) (hp : s.ParseOperands) (hcap : 16 * cs.length ≤ s.dstLen.toNat) {x : Nat}
    (hlo : s.srcAddr.toNat ≤ x) (hhi : x < s.srcAddr.toNat + s.srcLen.toNat) : readByte w.buf x = readByte s.buf x := by
  obtain ⟨-, -, hdis⟩ := hp
  refine h.outside x ?_
  by_contra hin
  exact hdis ⟨by omega, by omega, by omega, by omega⟩

variable (hp : s.ParseOperands) (hv : ∀ c ∈ cs, c.Valid) (hh : Holds s.buf s.srcAddr.toNat (streamBytes cs))
  (hcap : 16 * cs.length ≤ s.dstLen.toNat)

include hp hv hh hcap

/-- Over a stream of valid chunks and nothing else, PNG_PARSE comes to its required-chunk check behind all of them. -/
theorem exec_pngParse_wholeStream (hlen : (streamBytes cs).length = s.srcLen.toNat) :
    ∃ w, StandsBehind s cs w ∧ exec .pngParse s = s.endParse w := by
  obtain ⟨hcheck, hsig, w, hwalk, hoff, hcount, htable, hout, hfirst, hlast⟩ := parse_good s cs hp hv hlen.le hh hcap
  refine ⟨w, ⟨hoff, hcount, hfirst, hlast, htable, hout⟩, exec_pngParse_of_finished hcheck hsig ?_⟩
  rw [hwalk]
  exact walkStream_end _ _ _ _ _ _ (hoff.trans hlen).ge

/-- What stops the walk behind the chunks `cs` is what PNG_PARSE raises, with their number and the offset behind them. -/
theorem exec_pngParse_stopsBehind (hlt : (streamBytes cs).length < s.srcLen.toNat) {e : Raised}
    (hstop : ∀ (fuel : Nat) (w : Walk), StandsBehind s cs w →
      walkStream s.srcBase s.srcSize s.dstBase s.dstSize (fuel + 1) w = .ok (.stopped e w)) :
    ParseEnds s cs (s.parseFailed e cs.length (streamBytes cs).length) := by
  obtain ⟨hcheck, hsig, w, hwalk, hoff, hcount, htable, hout, hfirst, hlast⟩ := parse_good s cs hp hv hlt.le hh hcap
  have hw : StandsBehind s cs w := ⟨hoff, hcount, hfirst, hlast, htable, hout⟩
  obtain ⟨fuel, hfuel⟩ : ∃ fuel, s.srcSize = cs.length + (fuel + 1) :=
    Nat.exists_eq_add_of_lt ((length_lt_length_streamBytes cs).trans hlt)
  rw [hfuel, Nat.add_sub_cancel_left, ← hfuel, hstop fuel w hw] at hwalk
  exact hw.parseEnds (by rw [exec_pngParse_of_stopped hcheck hsig hwalk, hcount, hoff])

end

/-- The required-chunk check of a walk behind `cs` is that of `cs` (rule R521). -/
theorem StandsBehind.requiredOk_iff {s : State} {cs : List Chunk} {w : Walk} (h : StandsBehind s cs w) :
    requiredOk w = true ↔ RequiredChunks cs :=
  Machine.requiredOk_iff cs w h.count h.first h.last

/-- Settles O33: the walk finishes behind all the chunks, and the required-chunk check passes or is off. -/
theorem pngParseDescribesEveryChunk : Obligations.PngParseDescribesEveryChunk := by
  intro s cs hp hv hlen hh hcap hreq
  obtain ⟨w, hw, hexec⟩ := exec_pngParse_wholeStream hp hv hh hcap hlen
  have hok : ¬ (s.structEn && !requiredOk w) = true := by
    simpa [hw.requiredOk_iff] using hreq
  rw [endParse_eq, if_neg hok, State.parseSucceeded, hw.count] at hexec
  exact hw.parseEnds hexec

/-- Settles O34: the walk finishes behind all the chunks, and the required-chunk check fails. -/
theorem pngParseRequiresHeaderAndEnd : Obligations.PngParseRequiresHeaderAndEnd := by
  intro s cs hp hv hlen hh hcap hstruct hreq
  obtain ⟨w, hw, hexec⟩ := exec_pngParse_wholeStream hp hv hh hcap hlen
  have hmissing : (s.structEn && !requiredOk w) = true := by
    simpa [hstruct, ← hw.requiredOk_iff] using hreq
  have hsize : BitVec.ofNat 32 s.srcSize = s.srcLen := (BitVec.ofNat_toNat 32 s.srcLen).trans (BitVec.setWidth_eq _)
  rw [endParse_eq, if_pos hmissing, State.parseFailed, hw.count, hsize] at hexec
  exact hw.parseEnds hexec

/-- The ERR values of the four chunk errors that a container error wraps (rules R330 and R331). -/
theorem eq_errCode_chunkError_of_mem {k : ChunkKind} {e : Word}
    (h : (k, e) ∈ [(ChunkKind.tooShort, 0x051#32), (.tooLong, 0x052#32), (.badCrc, 0x053#32), (.generic, 0x054#32)]) :
    e = errCode (.cont (.chunkError k)) := by
  simp only [List.mem_cons, Prod.mk.injEq, List.not_mem_nil, or_false] at h
  rcases h with ⟨rfl, rfl⟩ | ⟨rfl, rfl⟩ | ⟨rfl, rfl⟩ | ⟨rfl, rfl⟩ <;> rfl

/-- Settles O35: the record behind the chunks still fails in the walk's memory, and stops the walk. -/
theorem pngParseStopsAtTheFirstBadRecord : Obligations.PngParseStopsAtTheFirstBadRecord := by
  intro s cs k e he hp hv hlt hh hcap hfails
  obtain rfl := eq_errCode_chunkError_of_mem he
  refine exec_pngParse_stopsBehind hp hv hh hcap hlt fun fuel w hw => ?_
  have hfails' := recordFails_congr s.buf w.buf _ _ k (fun x hlo hhi => hw.source hp hcap (by omega) (by omega)) hfails
  obtain ⟨crc, hdec, -⟩ := decodeChunk_fails _ _ _ _ hfails'
  rw [← hw.off] at hdec hlt
  exact walkStream_failed _ _ _ _ _ _ _ _ hlt hdec

/-- Settles O36: the record behind the chunks decodes in the walk's memory, and the table has no room for its descriptor. -/
theorem pngParseStopsWhenTheTableIsFull : Obligations.PngParseStopsWhenTheTableIsFull := by
  intro s cs c hp hv hlen hh hcap hfull
  rw [streamBytes_append, holds_append] at hh
  rw [streamBytes_append, List.length_append, length_record] at hlen
  obtain ⟨hstream, hrecord⟩ := hh
  obtain ⟨hvs, hvc⟩ := List.forall_mem_append.1 hv
  refine exec_pngParse_stopsBehind (e := .block .dstTooSmall) hp hvs hstream hcap (by omega) fun fuel w hw => ?_
  have hrecord' : Holds w.buf (s.srcAddr.toNat + (streamBytes cs).length) c.record := by
    refine holds_congr s.buf w.buf _ _ (fun i hi => ?_) hrecord
    rw [length_record] at hi
    exact hw.source hp hcap (by omega) (by omega)
  have hdec := decodeChunk_validRecord (n := s.srcLen.toNat - (streamBytes cs).length) (hvc c List.mem_cons_self)
    (by omega) hrecord'
  rw [← hw.off] at hdec hlen
  exact walkStream_full _ _ _ _ _ _ _ _ _ _ (show w.off < s.srcLen.toNat by omega) hdec (hw.count.symm ▸ hfull)

/-! The end of a finished walk (rule R523). -/

/-- A walk of PNG_PARSE has passed the signature and at least twelve bytes for each chunk (rule R523). -/
theorem walk_count_off {s : State} {r : WalkEnd} (h : s.walk = .ok r) : 8 + 12 * r.walk.count ≤ r.walk.off := by
  refine walkStream_induct _ _ _ _ (fun w => 8 + 12 * w.count ≤ w.off) ?_ _ _ _ h (Nat.le_refl 8)
  intro w len t st crc hw _ _ _
  rw [Walk.advance_count, Walk.advance_off]
  omega

/-- Settles O38: the walk ends at the end of the stream, twelve bytes or more for each chunk behind the signature. -/
theorem finishedWalkStandsAtTheStreamEnd : Obligations.FinishedWalkStandsAtTheStreamEnd := by
  intro s w h8 hwalk
  have hoff : w.off = s.srcLen.toNat := walk_finished_off h8 hwalk
  have hcount : 8 + 12 * w.count ≤ w.off := walk_count_off hwalk
  exact ⟨hoff, by omega⟩

/-! Building a stream (rule R512). -/

/-- A successful CHUNK_ENCODE of the data `d` ends in the state that stores its record. -/
theorem exec_chunkEncode_accepted {s t : State} (h : exec .chunkEncode s = .next t) (h0 : t.err = 0#32) {d : List Byte}
    (hlen : d.length = s.chunkLen.toNat) (hd : Holds s.buf s.dataAddr.toNat d) : t = (s.storeEncoded d).finish 0#32 := by
  rcases execChunkEncode_next h with ⟨e, -, rfl⟩ | ⟨hcheck, -⟩
  · exact absurd h0 (finish_raised_err_ne_zero _ _)
  · rw [exec_chunkEncode_of_data hcheck hlen hd] at h
    exact (Host.Outcome.next.inj h).symm

/-- A successful CHUNK_ENCODE at the end of a stream leaves the stream of one chunk more. -/
theorem storeEncoded_holds_stream {s : State} {a : Nat} {cs : List Chunk} {d : List Byte}
    (hh : Holds s.buf a (streamBytes cs)) (hend : s.dstAddr.toNat = a + (streamBytes cs).length) :
    Holds (s.storeEncoded d).buf a (streamBytes (cs ++ [{ type := s.chunkType, data := d }])) := by
  rw [streamBytes_append, holds_append, ← hend]
  refine ⟨holds_congr s.buf _ a _ (fun i hi => ?_) hh, holds_writeBytes _ _ _⟩
  exact readByte_writeBytes_outside _ _ _ _ (.inl (show a + i < s.dstAddr.toNat by omega))

/-- Settles O39: SIG_EMIT stores the signature, and CHUNK_ENCODE stores one record behind the stream it leaves alone. -/
theorem serializingCommandsBuildTheStream : Obligations.SerializingCommandsBuildTheStream := by
  refine ⟨fun s t h h0 => ?_, fun s t a cs d _ hh hend hlen hd h h0 => ?_⟩
  · rcases execSigEmit_next h with ⟨-, rfl⟩ | ⟨-, -, rfl⟩ | ⟨-, -, rfl⟩
    · exact absurd h0 (finish_raised_err_ne_zero _ _)
    · exact absurd h0 (finish_raised_err_ne_zero _ _)
    · exact ⟨holds_writeBytes _ _ _, rfl⟩
  · obtain ⟨hconsumed, -⟩ := execChunkEncode_exact h h0
    obtain rfl := exec_chunkEncode_accepted h h0 hlen hd
    refine ⟨storeEncoded_holds_stream hh hend, ?_⟩
    rw [hconsumed, hend, streamBytes_append, List.length_append, length_record, hlen, Nat.add_assoc]

end Sys2Proof.Machine
end

section
/-! PROOFS. The statements of spec/60_exceptions.md: what a failed command leaves alone, what every completed command leaves,
and what the host can do while a command is in flight. -/

namespace Sys2Proof.Machine

/-! A failed command (rule R611). -/

/-- A failed command but PNG_PARSE writes no byte: its written region is empty. -/
theorem writtenRegion_failed {i : Instr} {s t : State} (hi : i ≠ .pngParse) (he : t.err ≠ 0#32) :
    (writtenRegion i s t).2 = 0 := by
  cases i with
  | chunkEncode | sigEmit => exact if_neg he
  | pngParse => exact absurd rfl hi
  | _ => rfl

theorem SameBytesOutside.sameBytes {m m' : Memory} {base : Nat} (h : SameBytesOutside m m' base 0) : SameBytes m m' :=
  fun a => h a (Nat.lt_or_ge a base)

/-- Settles O41: a command with ERR != 0 has raised, having written its failure registers alone, and its written region is
empty. -/
theorem failedCommandsAreAtomic : Obligations.FailedCommandsAreAtomic := by
  intro i s t h he
  refine ⟨fun r hs hr hf => ?_, fun hi => ?_⟩
  · cases exec_outcome h with
    | completed u _ => exact absurd rfl he
    | raised e u _ kept => exact (regValue_finish u _ hs hr).trans (kept r hf)
  · have hout := exec_sameBytesOutside h
    rw [writtenRegion_failed hi he] at hout
    exact hout.sameBytes

/-! A completed command (rules R601 and R610). -/

theorem zero_mem_possibleErrs (i : Instr) : 0#32 ∈ possibleErrs i := by
  cases i <;> exact List.mem_cons_self

/-- A command leaves ERR = 0 or the code of an error it can raise (rule R601). -/
theorem exec_err_possible {i : Instr} {s t : State} (h : exec i s = .next t) : t.err ∈ possibleErrs i := by
  cases exec_outcome h with
  | completed u _ => exact zero_mem_possibleErrs i
  | raised e u possible _ => exact possible

/-- After completion the IRQ output is CTRL.IRQ_EN (rule R620). -/
theorem State.completed.irqOutput_eq {t : State} (h : t.completed) : irqOutput t = t.irqEn := by
  obtain ⟨-, hdone, -⟩ := h
  rw [irqOutput, hdone, Bool.true_and]

/-- Settles O42, from how every command ends and the errors each can raise. -/
theorem commandsLeaveTheCompletionEffects : Obligations.CommandsLeaveTheCompletionEffects := by
  intro i s t h
  have hend := exec_commandEnd h
  obtain ⟨-, hirq, -⟩ := hend.environment
  exact ⟨hend.completed, hend.environment, hend.completed.irqOutput_eq.trans hirq, exec_err_possible h⟩

/-! A command in flight (rules R610 and R711). -/

/-- With DONE = 0 a write to STATUS can clear OVERRUN alone (rule R112). -/
theorem writeStatus_of_not_done {s : State} (hd : s.done = false) (v : Word) :
    s.writeStatus v = { s with overrun := s.overrun && !v.getLsbD 3 } := by
  rw [State.writeStatus, hd, Bool.false_and, ← hd]

/-- A register write while a command is in flight reaches STATUS or is filtered: only OVERRUN can change (rule R102). -/
theorem writeOffset_inFlight {s : State} (hb : s.busy = true) (hd : s.done = false) (off : Nat) (v : Word) :
    ∃ o : Bool, s.writeOffset off v = { s with overrun := o } := by
  by_cases ho : off = regOffset .status
  · exact ⟨_, (if_pos ho).trans (writeStatus_of_not_done hd v)⟩
  · exact ⟨true, writeOffset_busy hb v ho⟩

/-- A host access but reset, while a command is in flight, changes OVERRUN and what the host has read, nothing else (rule
R711). -/
theorem hostStep_inFlight {a : HostAccess} {s t : State} (hb : s.busy = true) (hd : s.done = false) (hreset : a ≠ .reset)
    (hpower : a ≠ .powerOn) (h : hostStep a s = .next t) :
    ∃ (o : Bool) (rs : List Readback), t = { s with overrun := o, reads := rs } := by
  rcases hostStep_next h with ⟨off, -, -, -, rfl⟩ | ⟨off, v, -, -, -, rfl⟩ | ⟨x, -, -, ⟨-, rfl⟩ | ⟨hidle, -⟩⟩
    | ⟨x, b, -, -, ⟨-, rfl⟩ | ⟨hidle, -⟩⟩ | ⟨ha, -⟩ | ⟨ha, -⟩
  · exact ⟨_, _, rfl⟩
  · obtain ⟨o, ho⟩ := writeOffset_inFlight hb hd off v
    exact ⟨o, _, ho⟩
  · exact ⟨_, _, rfl⟩
  · exact nomatch hb.symm.trans hidle
  · exact ⟨_, _, rfl⟩
  · exact nomatch hb.symm.trans hidle
  · exact absurd ha hreset
  · exact absurd ha hpower

/-- OVERRUN shows in STATUS alone, and the agenda and the values read in no register (rules R101 and R112). -/
theorem regValue_overrun_agenda_reads (s : State) (o : Bool) (ag : List Turn) (rs : List Readback) {r : Reg} (hr : r ≠ .status) :
    regValue { s with overrun := o, agenda := ag, reads := rs } r = regValue s r := by
  cases r with
  | status => exact absurd rfl hr
  | _ => rfl

/-- Settles O58: the access changes OVERRUN alone, which no other register and no byte shows. -/
theorem nothingChangesWhileACommandIsInFlight : Obligations.NothingChangesWhileACommandIsInFlight := by
  intro s t rest a hb hd hturn hreset hpower h
  rw [step_host hturn] at h
  obtain ⟨o, rs, rfl⟩ := hostStep_inFlight (s := { s with agenda := rest }) hb hd hreset hpower h
  exact ⟨rfl, fun _ => rfl, fun r hr => regValue_overrun_agenda_reads s o rest rs hr⟩

end Sys2Proof.Machine
end

section
/-! PROOFS. The statement of spec/70_reset_and_hazards.md: what a reset restores, and what it leaves to the buffer. -/

namespace Sys2Proof.Machine

/-- No register shows the buffer's bytes, the agenda or the values read (rule R101). -/
theorem regValue_buf_agenda_reads (s : State) (m : Memory) (ag : List Turn) (rs : List Readback) (r : Reg) :
    regValue { s with buf := m, agenda := ag, reads := rs } r = regValue s r := by
  cases r <;> rfl

/-- A reset or power-on turn leaves the reset state of the machine's own parameters, whatever the command in flight; the two
differ in the buffer alone (rules R700 and R701). -/
theorem step_reset_or_powerOn {s : State} {a : HostAccess} {rest : List Turn} (ha : a = .reset ∨ a = .powerOn)
    (h : s.agenda = .host a :: rest) :
    ∃ m : Memory, step s = .next { State.resetWith s.cfg with buf := m, agenda := rest, reads := s.reads }
      ∧ (a = .reset → m = s.buf) ∧ (a = .powerOn → m = []) := by
  rcases ha with rfl | rfl
  · exact ⟨s.buf, step_host h, fun _ => rfl, nofun⟩
  · exact ⟨[], step_host h, nofun, fun _ => rfl⟩

/-- Settles O13: the next state is the reset state but for the buffer, the agenda and the values read, which no register
shows. -/
theorem resetRestoresTheResetState : Obligations.ResetRestoresTheResetState := by
  intro s rest a ha hturn
  obtain ⟨m, hstep, hreset, hpower⟩ := step_reset_or_powerOn ha hturn
  exact ⟨_, hstep, regValue_buf_agenda_reads _ m rest s.reads, rfl, rfl, rfl, rfl, rfl, rfl, rfl, rfl, rfl,
    BitVec.xor_self, rfl, rfl, rfl, fun h x => by rw [hreset h], fun h x => by rw [hpower h, readByte_nil]⟩

end Sys2Proof.Machine
end
